-- ==== Sys2Proof/Word.lean ====
section
/-! DEFINITION. The word types of the block: bytes and symbols, and the 32-bit command and response words
(00_scope.md R11: SYM_BITS, CMD_BITS, RESP_BITS). Every value of the spec is unsigned (R13). -/

namespace Sys2Proof

/-- A byte of a stream, or a symbol of the 256-symbol alphabet (R11). -/
abbrev Byte := BitVec 8

/-- A command word or the response register (R11, R90, R31). -/
abbrev Word := BitVec 32

end Sys2Proof
end

