-- ==== Sys2Proof/Syntax.lean ====
section
/-! DEFINITION. The commands of HUFFCORE-1 as abstract terms: one constructor per row of spec/opcode_table.json
(30_encoding.md R93), with the operand fields of its format (R91, R92). -/

namespace Sys2Proof

/-- What `RD` can read: the selectors of 43_control.md R251, by name. -/
inductive Sel where
  | status | marker | outPos | writer | inPos | reader
  | len | code | cpl | symlist | encSum | encCnt
  | dcpl | dsyms | decSum | numSym | dt | fill | win | remain
deriving DecidableEq, Repr

/-- A command (30_encoding.md R93). -/
inductive Instr where
  /-- R250 -/
  | nop
  /-- R251 -/
  | rd (sel : Sel) (idx : BitVec 16)
  /-- R252 -/
  | clrErr
  /-- R253 -/
  | softReset
  /-- R123 -/
  | frPut (b : Byte)
  /-- R124 -/
  | frRaw (b : Byte)
  /-- R125 -/
  | frGet
  /-- R126 -/
  | frRawget
  /-- R154 -/
  | bwBits (n : BitVec 5) (v : BitVec 16)
  /-- R155 -/
  | bwFlush
  /-- R159 -/
  | encClrlen
  /-- R160 -/
  | encSetlen (sym : Byte) (len : BitVec 5)
  /-- R161 -/
  | encBuild
  /-- R162 -/
  | encSetcntLo (imm : BitVec 16)
  /-- R163 -/
  | encSetcntHi (imm : BitVec 16)
  /-- R165 -/
  | encHdr
  /-- R166 -/
  | encSym (sym : Byte)
  /-- R203 -/
  | brBits (n : BitVec 5)
  /-- R205 -/
  | decHdr
  /-- R208 -/
  | decBuild
  /-- R209 -/
  | decSeed
  /-- R210 -/
  | decSym
  /-- R211 -/
  | decRun
deriving DecidableEq, Repr

end Sys2Proof
end

