-- ==== Sys2Proof/WellFormed.lean ====
section
/-! DEFINITION. The value constraints of 30_encoding.md R96 on a command's operands. -/

namespace Sys2Proof

/-- The index range of an `RD` selector (43_control.md R251): a selector without an index takes 0 only. -/
def Sel.Covers : Sel → BitVec 16 → Prop
  | .len, i | .code, i | .symlist, i | .dsyms, i => i.toNat ≤ 255
  | .cpl, i | .dcpl, i => 1 ≤ i.toNat ∧ i.toNat ≤ 16
  | .dt, _ => True
  | .status, i | .marker, i | .outPos, i | .writer, i | .inPos, i | .reader, i
  | .encSum, i | .encCnt, i | .decSum, i | .numSym, i | .fill, i | .win, i | .remain, i => i = 0

/-- A command whose operands meet R96: `n ≤ 16` for `BW_BITS` and `BR_BITS`, an index in its selector's range for `RD`. -/
def Instr.WellFormed : Instr → Prop
  | .rd sel idx => sel.Covers idx
  | .bwBits n _ => n.toNat ≤ 16
  | .brBits n => n.toNat ≤ 16
  | .nop | .clrErr | .softReset | .frPut _ | .frRaw _ | .frGet | .frRawget | .bwFlush | .encClrlen | .encSetlen _ _
  | .encBuild | .encSetcntLo _ | .encSetcntHi _ | .encHdr | .encSym _ | .decHdr | .decBuild | .decSeed | .decSym | .decRun =>
    True

end Sys2Proof
end

