-- ==== Sys2Proof/Decode.lean ====
section
/-! DEFINITION. The command encoding (30_encoding.md): opcode map R93, formats R91, the total decoding procedure R98 with
its illegal words R94 to R96, the encoder, and the host's view of the decoder (`decodeTableWord`). -/

namespace Sys2Proof

/-- The 23 opcodes of the opcode map (R93), by mnemonic. -/
inductive Opcode where
  | nop | rd | clrErr | softReset
  | frPut | frRaw | frGet | frRawget
  | bwBits | bwFlush | encClrlen | encSetlen | encBuild | encSetcntLo | encSetcntHi | encHdr | encSym
  | brBits | decHdr | decBuild | decSeed | decSym | decRun
deriving DecidableEq, Repr

/-- The seven formats of R91. -/
inductive Format where
  | f0 | fb | fl | fn | fnr | fi | fr
deriving DecidableEq, Repr

/-- The opcode byte, `w[31:24]` (R93). -/
def Opcode.byte : Opcode → Byte
  | .nop => 0x00 | .rd => 0x01 | .clrErr => 0x02 | .softReset => 0x03
  | .frPut => 0x10 | .frRaw => 0x11 | .frGet => 0x12 | .frRawget => 0x13
  | .bwBits => 0x20 | .bwFlush => 0x21 | .encClrlen => 0x22 | .encSetlen => 0x23
  | .encBuild => 0x24 | .encSetcntLo => 0x25 | .encSetcntHi => 0x26 | .encHdr => 0x27 | .encSym => 0x28
  | .brBits => 0x30 | .decHdr => 0x31 | .decBuild => 0x32 | .decSeed => 0x33 | .decSym => 0x34 | .decRun => 0x35

/-- The format of an opcode (R93). -/
def Opcode.format : Opcode → Format
  | .nop | .clrErr | .softReset | .frGet | .frRawget | .bwFlush | .encClrlen | .encBuild | .encHdr
  | .decHdr | .decBuild | .decSeed | .decSym | .decRun => .f0
  | .rd => .fr
  | .frPut | .frRaw | .encSym => .fb
  | .encSetlen => .fl
  | .bwBits => .fn
  | .encSetcntLo | .encSetcntHi => .fi
  | .brBits => .fnr

/-- The mask of a format: a 1 in every opcode bit and every reserved bit (R91). -/
def Format.mask : Format → Word
  | .f0 => 0xFFFFFFFF | .fb => 0xFFFFFF00 | .fl => 0xFFFFE000 | .fn => 0xFFE00000
  | .fnr => 0xFFE0FFFF | .fi => 0xFFFF0000 | .fr => 0xFF000000

/-- The match value of an opcode's row: the opcode byte above 24 zeros (R95). -/
def Opcode.matchWord (o : Opcode) : Word := o.byte ++ 0#24

/-- The opcode map as a list of rows, in the table's order (R93). -/
def opcodeMap : List Opcode :=
  [.nop, .rd, .clrErr, .softReset, .frPut, .frRaw, .frGet, .frRawget,
   .bwBits, .bwFlush, .encClrlen, .encSetlen, .encBuild, .encSetcntLo, .encSetcntHi, .encHdr, .encSym,
   .brBits, .decHdr, .decBuild, .decSeed, .decSym, .decRun]

/-- The opcode of an opcode byte; none for a reserved one (R94). -/
def Opcode.ofByte (b : Byte) : Option Opcode := opcodeMap.find? (fun o => o.byte == b)

/-- The selector number of an `RD` selector (43_control.md R251). -/
def Sel.byte : Sel → Byte
  | .status => 0x00 | .marker => 0x01 | .outPos => 0x02 | .writer => 0x03 | .inPos => 0x04 | .reader => 0x05
  | .len => 0x10 | .code => 0x11 | .cpl => 0x12 | .symlist => 0x13 | .encSum => 0x14 | .encCnt => 0x15
  | .dcpl => 0x20 | .dsyms => 0x21 | .decSum => 0x22 | .numSym => 0x23 | .dt => 0x24 | .fill => 0x25
  | .win => 0x26 | .remain => 0x27

/-- The selectors of R251, in the table's order. -/
def selMap : List Sel :=
  [.status, .marker, .outPos, .writer, .inPos, .reader, .len, .code, .cpl, .symlist, .encSum, .encCnt,
   .dcpl, .dsyms, .decSum, .numSym, .dt, .fill, .win, .remain]

/-- The selector of a selector number; none when R251 has none. -/
def Sel.ofByte (b : Byte) : Option Sel := selMap.find? (fun x => x.byte == b)

/-- The least and the greatest index of a selector (R251); `(0, 0)` for one without an index. -/
def Sel.idxRange : Sel → Nat × Nat
  | .len | .code | .symlist | .dsyms => (0, 255)
  | .cpl | .dcpl => (1, 16)
  | .dt => (0, 65535)
  | .status | .marker | .outPos | .writer | .inPos | .reader | .encSum | .encCnt
  | .decSum | .numSym | .fill | .win | .remain => (0, 0)

/-- The index is in the selector's range (R96, R251). -/
def Sel.idxLegal (x : Sel) (idx : BitVec 16) : Bool :=
  decide (x.idxRange.1 ≤ idx.toNat) && decide (idx.toNat ≤ x.idxRange.2)

/-- A bit count `BW_BITS` and `BR_BITS` take (R96). -/
def countLegal (n : BitVec 5) : Bool := decide (n.toNat ≤ 16)

/-- The opcode byte of a command word (R90). -/
def opByte (w : Word) : Byte := w.extractLsb' 24 8

/-- Why a word is illegal (R94 to R96, R301). -/
inductive Illegal where
  /-- The opcode is not in the opcode map (R94). -/
  | reservedOpcode
  /-- A reserved bit of the row's format is 1 (R95). -/
  | reservedBit (o : Opcode)
  /-- `n` above 16, an `RD` selector that R251 does not list, or an index outside its range (R96). -/
  | operandRange (o : Opcode)
deriving DecidableEq, Repr

/-- Step (3) of R98: the operand fields of the row's format (R91), with the value constraints of R96. -/
def operandsOf (o : Opcode) (w : Word) : Option Instr :=
  let b : Byte := w.extractLsb' 0 8
  let n : BitVec 5 := w.extractLsb' 16 5
  let low : BitVec 16 := w.extractLsb' 0 16
  match o with
  | .nop => some .nop
  | .rd =>
    match Sel.ofByte (w.extractLsb' 16 8) with
    | some x => if x.idxLegal low then some (.rd x low) else none
    | none => none
  | .clrErr => some .clrErr
  | .softReset => some .softReset
  | .frPut => some (.frPut b)
  | .frRaw => some (.frRaw b)
  | .frGet => some .frGet
  | .frRawget => some .frRawget
  | .bwBits => if countLegal n then some (.bwBits n low) else none
  | .bwFlush => some .bwFlush
  | .encClrlen => some .encClrlen
  | .encSetlen => some (.encSetlen b (w.extractLsb' 8 5))
  | .encBuild => some .encBuild
  | .encSetcntLo => some (.encSetcntLo low)
  | .encSetcntHi => some (.encSetcntHi low)
  | .encHdr => some .encHdr
  | .encSym => some (.encSym b)
  | .brBits => if countLegal n then some (.brBits n) else none
  | .decHdr => some .decHdr
  | .decBuild => some .decBuild
  | .decSeed => some .decSeed
  | .decSym => some .decSym
  | .decRun => some .decRun

/-- Decoding a command word, in the order of R98: total, and an illegal word is rejected by name. -/
def decode (w : Word) : Except Illegal Instr :=
  match Opcode.ofByte (opByte w) with
  | none => .error .reservedOpcode
  | some o =>
    if w &&& o.format.mask = o.matchWord then
      match operandsOf o w with
      | some i => .ok i
      | none => .error (.operandRange o)
    else .error (.reservedBit o)

/-- The opcode of a command (R93). -/
def Instr.opcode : Instr → Opcode
  | .nop => .nop | .rd _ _ => .rd | .clrErr => .clrErr | .softReset => .softReset
  | .frPut _ => .frPut | .frRaw _ => .frRaw | .frGet => .frGet | .frRawget => .frRawget
  | .bwBits _ _ => .bwBits | .bwFlush => .bwFlush | .encClrlen => .encClrlen | .encSetlen _ _ => .encSetlen
  | .encBuild => .encBuild | .encSetcntLo _ => .encSetcntLo | .encSetcntHi _ => .encSetcntHi
  | .encHdr => .encHdr | .encSym _ => .encSym
  | .brBits _ => .brBits | .decHdr => .decHdr | .decBuild => .decBuild | .decSeed => .decSeed
  | .decSym => .decSym | .decRun => .decRun

/-- The operand bits `w[23:0]` of a command, by its format (R91): reserved bits are 0. -/
def Instr.operandBits : Instr → BitVec 24
  | .rd x idx => x.byte ++ idx
  | .frPut b | .frRaw b | .encSym b => 0#16 ++ b
  | .bwBits n v => 0#3 ++ n ++ v
  | .encSetlen sym len => 0#11 ++ len ++ sym
  | .encSetcntLo imm | .encSetcntHi imm => 0#8 ++ imm
  | .brBits n => 0#3 ++ n ++ 0#16
  | .nop | .clrErr | .softReset | .frGet | .frRawget | .bwFlush | .encClrlen | .encBuild | .encHdr
  | .decHdr | .decBuild | .decSeed | .decSym | .decRun => 0#24

/-- The word of a command (R90, R91). -/
def encode (i : Instr) : Word := i.opcode.byte ++ i.operandBits

/-- The command of a row's bits: one 32-bit word (R90), bit 0 least significant, so every bit above `nbits` is 0. A row wider
than a command word is none of this block's. -/
def decodeTableWord (nbits w : Nat) : Option Instr :=
  if nbits ≤ 32 then
    match decode (BitVec.ofNat 32 (w % 2 ^ nbits)) with
    | .ok i => some i
    | .error _ => none
  else none

end Sys2Proof
end

