-- ==== Sys2Proof/Config.lean ====
section
/-! DEFINITION. The fixed implementation parameters of HUFFCORE-1 (00_scope.md R11). Every one is fixed (R12), and the spec
leaves no value of the block open (93_implementation_defined.md), so no parameter and no free value stands here. -/

namespace Sys2Proof.Config

/-- NUM_LEN_CLASSES: length classes 1 to 16 (R11). -/
def numLenClasses : Nat := 16

/-- MAX_CODE_LEN (R11): the longest code, and the largest bit count of one read or write. -/
def maxCodeLen : Nat := 16

/-- The number of symbols of the alphabet, 2^SYM_BITS (R11). -/
def alphabetSize : Nat := 256

/-- DT_DEPTH (R11): the decode table always has 65536 entries. -/
def dtDepth : Nat := 65536

/-- SEGLEN_MIN (R11). -/
def seglenMin : Nat := 19

/-- SEGLEN_MAX (R11). -/
def seglenMax : Nat := 275

/-- HDR_FIXED_BYTES (R11): the bytes of a header before its symbol list. -/
def hdrFixedBytes : Nat := 21

/-- COUNT_BYTES (R11): the bytes of the trailing symbol count. -/
def countBytes : Nat := 4

end Sys2Proof.Config
end

