-- ==== Sys2Proof/Machine/Table.lean ====
section
/-! DEFINITION. The internal tables of the block (20_memory.md R61) as plain data. A table is a list of runs: `(n, a)` says
that the next `n` entries are `a`. Entries past the last run are the reset entry `d`. The canonical form `Table.wf` (no empty
run, no two neighbours alike, the last run not of reset entries) makes equal tables equal data; every operation below keeps
it (Laws/Table.lean). DESIGN CHOICE, safe (log 8). -/

namespace Sys2Proof.Machine

/-- A table as runs of equal entries, from index 0 on. -/
abbrev Table (α : Type) := List (Nat × α)

/-- `T[i]`: entry `i`; the reset entry `d` past the last run. -/
def Table.get {α : Type} (d : α) : Table α → Nat → α
  | [], _ => d
  | (n, a) :: t, i => if i < n then a else Table.get d t (i - n)

/-- A run of `n` entries `a` put before the table `t`, in canonical form. -/
def Table.push {α : Type} [DecidableEq α] (d : α) (n : Nat) (a : α) (t : Table α) : Table α :=
  if n = 0 then t
  else match t with
    | [] => if a = d then [] else [(n, a)]
    | (m, b) :: r => if a = b then (n + m, a) :: r else (n, a) :: (m, b) :: r

/-- The first `k` entries of the first table, then the second table. -/
def Table.splice {α : Type} [DecidableEq α] (d : α) : Table α → Nat → Table α → Table α
  | [], k, r => Table.push d k d r
  | (n, a) :: t, k, r => if k ≤ n then Table.push d k a r else Table.push d n a (Table.splice d t (k - n) r)

/-- The table without its first `k` entries. -/
def Table.drop {α : Type} : Table α → Nat → Table α
  | [], _ => []
  | (n, a) :: t, k => if k < n then (n - k, a) :: t else Table.drop t (k - n)

/-- `T[x] <- a` for the `n` indexes from `lo` on. -/
def Table.fill {α : Type} [DecidableEq α] (d : α) (t : Table α) (lo n : Nat) (a : α) : Table α :=
  Table.splice d t lo (Table.push d n a (Table.drop t (lo + n)))

/-- `T[i] <- a`. -/
def Table.set {α : Type} [DecidableEq α] (d : α) (t : Table α) (i : Nat) (a : α) : Table α := Table.fill d t i 1 a

/-- `T[i] <- x0; T[i+1] <- x1; …` for the listed entries. -/
def Table.setMany {α : Type} [DecidableEq α] (d : α) (t : Table α) (i : Nat) : List α → Table α
  | [] => t
  | x :: xs => Table.setMany d (Table.set d t i x) (i + 1) xs

/-- The canonical form. -/
def Table.wf {α : Type} [DecidableEq α] (d : α) : Table α → Bool
  | [] => true
  | (n, a) :: t => decide (0 < n) && (match t with
      | [] => decide (a ≠ d)
      | (_, b) :: _ => decide (a ≠ b)) && Table.wf d t

/-- The number of entries the runs list: no entry from there on differs from the reset entry. -/
def Table.extent {α : Type} : Table α → Nat
  | [] => 0
  | (n, _) :: t => n + Table.extent t

end Sys2Proof.Machine
end

