-- ==== Sys2Proof/Machine/State.lean ====
section
/-! DEFINITION. The state of the block (10_state.md R22 to R51; R52 says the list is complete), the host's side of it as plain
data (R56), the state after reset (R55), and the reasons a step can stop. -/

namespace Sys2Proof.Machine

/-- The fields of `STATUS` (10_state.md R22). Its reserved bits are hard-wired to 0 and have no storage; `Status.word`
(Machine/Flags.lean) is the 32-bit register. -/
structure Status where
  /-- `ERR`, bits 4:0 (R23) -/
  err : BitVec 5
  /-- `ENC_READY`, bit 8 (R25) -/
  encReady : Bool
  /-- `HDR_VALID`, bit 9 (R26) -/
  hdrValid : Bool
  /-- `DEC_READY`, bit 10 (R27) -/
  decReady : Bool
  /-- `SEEDED`, bit 11 (R28) -/
  seeded : Bool
  /-- `WARN_LONG`, bit 12 (R29) -/
  warnLong : Bool
  /-- `WARN_INCOMPLETE`, bit 13 (R30) -/
  warnIncomplete : Bool
  /-- `ERR_OP`, bits 23:16 (R24) -/
  errOp : Byte
deriving DecidableEq, Repr

/-- One entry of the decode table `DT` (10_state.md R48). -/
structure DtEntry where
  v : Bool
  len : BitVec 5
  sym : Byte
deriving DecidableEq, Repr

/-- The unfilled entry `{V=0, LEN=0, SYM=0}`, which is also `DT`'s reset entry (R48, R55). -/
abbrev DtEntry.unfilled : DtEntry := ⟨false, 0, 0⟩

/-- One move of the host between commands (48_host_reference.md R270): a command word, or the reset input (R341). -/
inductive HostMove where
  | command (w : Word)
  | resetInput
deriving DecidableEq, Repr

/-- The host's answer to `RawIn` (20_memory.md R64). -/
inductive InAnswer where
  | byte (b : Byte)
  | endOfStream
deriving DecidableEq, Repr

/-- The host's answer to `RawOut` (20_memory.md R65). -/
inductive OutAnswer where
  | accept
  | fail
deriving DecidableEq, Repr

/-- The host's answer to `SymOut`: SOUT never fails (20_memory.md R66). -/
inductive SymAnswer where
  | accept
deriving DecidableEq, Repr

/-- The host's answers on one port, in the order of the requests: those of `script`, then `rest` to every later request.
`rest = none` is a host that answers no more: "delay without bound" (48_host_reference.md R271). -/
structure Answers (α : Type) where
  script : List α
  rest : Option α
deriving DecidableEq, Repr

/-- The state. Fields before the line are the block's (R22 to R51), fields after it the host's side (R56). -/
structure State where
  /-- `STATUS` (R22) -/
  status : Status
  /-- `RESP` (R31) -/
  resp : Word
  /-- `MARKER` (R32) -/
  marker : Byte
  /-- `OUT_POS` (R33) -/
  outPos : BitVec 32
  /-- `IN_POS` (R34) -/
  inPos : BitVec 32
  /-- `WBUF` (R35) -/
  wbuf : Byte
  /-- `WCNT` (R35) -/
  wcnt : BitVec 3
  /-- `RBUF` (R36) -/
  rbuf : Byte
  /-- `RCNT` (R36) -/
  rcnt : BitVec 4
  /-- `LEN[0..255]` (R37) -/
  len : Table (BitVec 5)
  /-- `CODE[0..255]` (R38) -/
  code : Table (BitVec 16)
  /-- `CLEN[0..255]` (R38) -/
  clen : Table (BitVec 5)
  /-- `CPL[1..16]` (R39); index 0 is no entry and stays as reset left it -/
  cpl : Table (BitVec 9)
  /-- `SYMLIST[0..255]` (R40) -/
  symlist : Table Byte
  /-- `NSYM` (R41) -/
  nsym : BitVec 9
  /-- `MIN_BITS` (R41) -/
  minBits : BitVec 5
  /-- `MAX_BITS` (R41) -/
  maxBits : BitVec 5
  /-- `ENC_CNT` (R42) -/
  encCnt : BitVec 32
  /-- `DCPL[1..16]` (R43); index 0 is no entry and stays as reset left it -/
  dcpl : Table Byte
  /-- `DSYMS[0..255]` (R44) -/
  dsyms : Table Byte
  /-- `DNSYM` (R45) -/
  dnsym : BitVec 9
  /-- `NUM_SYM` (R46) -/
  numSym : BitVec 32
  /-- `DMAX_BITS` (R47) -/
  dmaxBits : BitVec 5
  /-- `DT[0..65535]` (R48) -/
  dt : Table DtEntry
  /-- `FILL` (R49) -/
  fill : BitVec 17
  /-- `WIN` (R50) -/
  win : BitVec 16
  /-- `REMAIN` (R51) -/
  remain : BitVec 32
  -- ---------------------------------------------------------------- the host's side (R56)
  /-- The host's moves, in order (R21, R283; log 1, log 2). -/
  program : List HostMove
  /-- The index of the next move (R21). -/
  pos : Nat
  /-- The host's answers on BIN (R64; log 3). -/
  bin : Answers InAnswer
  /-- The host's answers on BOUT (R65; log 3). -/
  boutHost : Answers OutAnswer
  /-- The bytes appended to BOUT, oldest first (R65, R283; log 4). -/
  bout : List Byte
  /-- The host's answers on SOUT (R66; log 3). -/
  soutHost : Answers SymAnswer
  /-- The symbols appended to SOUT, oldest first (R66, R283; log 4). -/
  sout : List Byte
deriving DecidableEq, Repr

/-- The state right after reset: every register and table entry 0 (R55, R340). The host's side is a host with no moves, an
empty BIN that answers end-of-stream, and sinks that accept: DESIGN CHOICE (log 1, log 3, log 4). -/
def State.reset : State where
  status := ⟨0, false, false, false, false, false, false, 0⟩
  resp := 0
  marker := 0
  outPos := 0
  inPos := 0
  wbuf := 0
  wcnt := 0
  rbuf := 0
  rcnt := 0
  len := []
  code := []
  clen := []
  cpl := []
  symlist := []
  nsym := 0
  minBits := 0
  maxBits := 0
  encCnt := 0
  dcpl := []
  dsyms := []
  dnsym := 0
  numSym := 0
  dmaxBits := 0
  dt := []
  fill := 0
  win := 0
  remain := 0
  program := []
  pos := 0
  bin := ⟨[], some .endOfStream⟩
  boutHost := ⟨[], some .accept⟩
  bout := []
  soutHost := ⟨[], some .accept⟩
  sout := []

/-- Why the machine stops. None of these is an error of the block: an error (60_exceptions.md R304) is a next state. -/
inductive Fault where
  /-- Raised by `step` when the host has no further move: the run has ended and the block is idle (R283). Safe: the block
  itself only waits (log 6). -/
  | idle
  /-- Raised by `rawIn` when the host never answers a BIN request: the command stalls and the step does not end (R64, R271,
  93_implementation_defined.md `stuck`). Safe: no next state is claimed (log 5). -/
  | binStalled
  /-- Raised by `rawOut` when the host never answers a BOUT request (R65, R271). Safe (log 5). -/
  | boutStalled
  /-- Raised by `symOut` when the host never accepts a symbol (R66, R271). Safe (log 5). -/
  | soutStalled
deriving DecidableEq, Repr

/-- Why the model gives no meaning. -/
inductive Refusal where
  /-- Raised by `exec` alone, for an instruction that has no meaning yet. Safe. No arm of this model raises it. -/
  | notModelled (mnemonic : String)
deriving DecidableEq, Repr

end Sys2Proof.Machine
end

