-- ==== Sys2Proof/Machine/Flags.lean ====
section
/-! DEFINITION. `STATUS`: the error codes (60_exceptions.md R304), the register's layout (10_state.md R22), and the rules of its
two computed flags, `WARN_LONG` (R29) and `WARN_INCOMPLETE` (R30). -/

namespace Sys2Proof.Machine

/-- The errors of 60_exceptions.md R304, by name. -/
inductive Err where
  | illegal | notReady | seq | noSymbols | oversub | ioWrite | ioRead | marker
  | badMarker | badLength | badClass | countMismatch | overlap | emptySlot | noCode | cplOverflow
deriving DecidableEq, Repr

/-- The error code (R304). -/
def Err.code : Err → BitVec 5
  | .illegal => 1 | .notReady => 2 | .seq => 3 | .noSymbols => 4 | .oversub => 5 | .ioWrite => 6 | .ioRead => 7
  | .marker => 8 | .badMarker => 9 | .badLength => 10 | .badClass => 11 | .countMismatch => 12 | .overlap => 13
  | .emptySlot => 14 | .noCode => 15 | .cplOverflow => 16

/-- `STATUS` as the 32-bit register (R22): reserved bits read as 0. -/
def Status.word (x : Status) : Word :=
  0#8 ++ x.errOp ++ 0#2 ++ BitVec.ofBool x.warnIncomplete ++ BitVec.ofBool x.warnLong ++ BitVec.ofBool x.seeded ++
    BitVec.ofBool x.decReady ++ BitVec.ofBool x.hdrValid ++ BitVec.ofBool x.encReady ++ 0#3 ++ x.err

/-- Every symbol, in ascending order: `s = 0 to 255`. -/
def allSymbols : List Byte := (List.range Config.alphabetSize).map (BitVec.ofNat 8)

/-- The length classes, in ascending order: `L = 1 to 16`. -/
def lenClasses : List Nat := List.range' 1 Config.numLenClasses

/-- `WARN_LONG`: some `LEN[s]` is 17 or more (R29, 41_encoder.md R161). -/
def someLong (len : Table (BitVec 5)) : Bool := allSymbols.any (fun s => decide (17 ≤ (len.get 0 s.toNat).toNat))

/-- `WARN_INCOMPLETE`: the fill cursor is not `2^max_bits` (R30, 42_decoder.md R207). -/
def tableIncomplete (cur maxBits : Nat) : Bool := decide (cur ≠ 2 ^ maxBits)

end Sys2Proof.Machine
end

