-- ==== Sys2Proof/Machine/Ops.lean ====
section
/-! DEFINITION. The shared operations: raising an error and leaving the error state (60_exceptions.md R310, R314), the gating
of a command (R300), the ports (20_memory.md R64 to R66), the framer's primitives (40_framer.md R120, R121), the bit writer
(41_encoder.md R150 to R152), the bit reader (42_decoder.md R200, R201), reset (70_reset_and_hazards.md R340), and fetching
the host's next move (10_state.md R21). -/

namespace Sys2Proof.Machine

/-! ## Whole-state updates -/

/-- `raise` (R310): `ERR` gets the error's code and `ERR_OP` the opcode byte of the current command. Nothing else changes:
there is no vector, handler, saved position or mode. -/
def State.raise (e : Err) (op : Byte) (s : State) : State :=
  { s with status := { s.status with err := e.code, errOp := op } }

/-- The return from the error state (R314; 43_control.md R252): `ERR` and `ERR_OP` to 0, nothing else. -/
def State.clearError (s : State) : State := { s with status := { s.status with err := 0, errOp := 0 } }

/-- Reset (R340, R341; 43_control.md R253): every register and table entry to its value of R55. It has no port transaction, so
the host's side stays. -/
def State.blockReset (s : State) : State :=
  { State.reset with
    program := s.program, pos := s.pos, bin := s.bin, boutHost := s.boutHost, bout := s.bout
    soutHost := s.soutHost, sout := s.sout }

/-- The host's next move, if it has one (R21). -/
def State.nextMove (s : State) : Option HostMove := s.program[s.pos]?

/-- One move of the host's list is done: the index advances by exactly one (R21, R300). -/
def State.advance (s : State) : State := { s with pos := s.pos + 1 }

/-- The host's list with the move `m` at index `pos`, where `step` takes its next move. Should `pos` lie past the end of the
list, which no run reaches, the gap is filled with `NOP` words. -/
def placeMove (program : List HostMove) (pos : Nat) (m : HostMove) : List HostMove :=
  program.take pos ++ List.replicate (pos - program.length) (.command 0) ++ m :: program.drop (pos + 1)

/-! ## A command in progress -/

/-- Why a command in progress ends early: by `raise`, or because the host never answers a port request. -/
inductive Stop where
  | raised (e : Err)
  | stalled (f : Fault)
deriving DecidableEq, Repr

/-- A command, or a primitive of one, as pseudocode: it reads and writes the state, and a stop keeps every write made before it
(00_scope.md R15; 60_exceptions.md R312). -/
abbrev Cmd (α : Type) := EStateM Stop State α

/-- `raise E_X` within a command (R15). -/
def raiseErr {α : Type} (e : Err) : Cmd α := throw (.raised e)

/-- `require c else E_X` (R15). -/
def require (c : Bool) (e : Err) : Cmd Unit := if c then pure () else raiseErr e

/-- How a command with opcode byte `op` ends: it completed, it raised an error (R310), or it stalls for ever (R271). -/
def finish (op : Byte) : EStateM.Result Stop State Unit → Host.Outcome State Fault Refusal
  | .ok _ s => .next s
  | .error (.raised e) s => .next (s.raise e op)
  | .error (.stalled f) _ => .fault f

/-- A gated command (R300): in the error state it is dropped and changes nothing; otherwise it runs its rule. -/
def runGated (o : Opcode) (body : Cmd Unit) (s : State) : Host.Outcome State Fault Refusal :=
  if s.status.err = 0 then finish o.byte (body s) else .next s

/-- An illegal word with opcode byte `op` (R301): `E_ILLEGAL` and nothing else, or dropped in the error state (R300). -/
def illegalWord (op : Byte) (s : State) : Host.Outcome State Fault Refusal :=
  if s.status.err = 0 then .next (s.raise .illegal op) else .next s

/-! ## The ports -/

/-- The host's answer to one request, and its answers to the later ones; none when it never answers. -/
def Answers.ask {α : Type} (a : Answers α) : Option (α × Answers α) :=
  match a.script with
  | x :: xs => some (x, { a with script := xs })
  | [] => match a.rest with
    | some x => some (x, a)
    | none => none

/-- `RawIn()` (R64): one byte of BIN, or `E_IO_READ` on end-of-stream. -/
def rawIn : Cmd Byte := do
  let s ← get
  match s.bin.ask with
  | some (.byte b, rest) =>
    set { s with bin := rest, inPos := s.inPos + 1 }
    pure b
  | some (.endOfStream, rest) =>
    set { s with bin := rest }
    raiseErr .ioRead
  | none => throw (.stalled .binStalled)

/-- `RawOut(b)` (R65): `b` appended to BOUT, or `E_IO_WRITE` when the host fails it. -/
def rawOut (b : Byte) : Cmd Unit := do
  let s ← get
  match s.boutHost.ask with
  | some (.accept, rest) => set { s with boutHost := rest, bout := s.bout ++ [b], outPos := s.outPos + 1 }
  | some (.fail, rest) =>
    set { s with boutHost := rest }
    raiseErr .ioWrite
  | none => throw (.stalled .boutStalled)

/-- `SymOut(s)` (R66): the symbol appended to SOUT. -/
def symOut (sym : Byte) : Cmd Unit := do
  let s ← get
  match s.soutHost.ask with
  | some (.accept, rest) => set { s with soutHost := rest, sout := s.sout ++ [sym] }
  | none => throw (.stalled .soutStalled)

/-- `n` bytes of BIN, raw and in order (42_decoder.md R205). -/
def rawInMany : Nat → Cmd (List Byte)
  | 0 => pure []
  | n + 1 => do
    let b ← rawIn
    let bs ← rawInMany n
    pure (b :: bs)

/-- Bytes to BOUT, raw and in order (41_encoder.md R165). -/
def rawOutMany : List Byte → Cmd Unit
  | [] => pure ()
  | b :: bs => do
    rawOut b
    rawOutMany bs

/-! ## The framer's primitives -/

/-- `StuffOut(b)` (40_framer.md R120). -/
def stuffOut (b : Byte) : Cmd Unit := do
  rawOut b
  if b = 0xFF then rawOut 0x00 else pure ()

/-- `UnstuffIn()` (40_framer.md R121). -/
def unstuffIn : Cmd Byte := do
  let b ← rawIn
  if b = 0xFF then do
    let b2 ← rawIn
    if b2 = 0x00 then pure b
    else do
      modify fun s => { s with marker := b2 }
      raiseErr .marker
  else pure b

/-! ## The bit writer -/

/-- `b` with bit `k` set to `bit`. -/
def putBit (b : Byte) (k : Nat) (bit : Bool) : Byte :=
  (b &&& ~~~(1#8 <<< k)) ||| ((BitVec.ofBool bit).setWidth 8 <<< k)

/-- `WriteBit(bit)` (41_encoder.md R150): the buffer is cleared before `StuffOut`. -/
def writeBit (bit : Bool) : Cmd Unit := do
  let s ← get
  let v := putBit s.wbuf (7 - s.wcnt.toNat) bit
  if s.wcnt = 7 then do
    set { s with wbuf := 0, wcnt := 0 }
    stuffOut v
  else set { s with wbuf := v, wcnt := s.wcnt + 1 }

/-- `WriteBits(v, n)` (41_encoder.md R151): bits `v[n-1]` to `v[0]`. -/
def writeBits (v : BitVec 16) : Nat → Cmd Unit
  | 0 => pure ()
  | n + 1 => do
    writeBit (v.getLsbD n)
    writeBits v n

/-- The loop of `Flush`, for at most `fuel` bits. -/
def flushLoop : Nat → Cmd Unit
  | 0 => pure ()
  | fuel + 1 => do
    let s ← get
    if s.wcnt = 0 then pure ()
    else do
      writeBit true
      flushLoop fuel

/-- `Flush()` (41_encoder.md R152): 1 bits while `WCNT != 0`, which are at most 7. -/
def flush : Cmd Unit := flushLoop 8

/-! ## The bit reader -/

/-- `ReadBit()` (42_decoder.md R200). -/
def readBit : Cmd Bool := do
  let s ← get
  if s.rcnt = 0 then do
    let b ← unstuffIn
    modify fun s => { s with rbuf := b, rcnt := 7 }
    pure (b.getLsbD 7)
  else do
    set { s with rcnt := s.rcnt - 1 }
    pure (s.rbuf.getLsbD (s.rcnt.toNat - 1))

/-- The loop of `ReadBits`: `n` more bits appended to the value `v`. -/
def readBitsLoop : Nat → BitVec 16 → Cmd (BitVec 16)
  | 0, v => pure v
  | n + 1, v => do
    let bit ← readBit
    readBitsLoop n ((v <<< 1) ||| (BitVec.ofBool bit).setWidth 16)

/-- `ReadBits(n)` (42_decoder.md R201). -/
def readBits (n : Nat) : Cmd (BitVec 16) := readBitsLoop n 0

end Sys2Proof.Machine
end

