-- ==== Sys2Proof/Machine/Operands.lean ====
section
/-! DEFINITION. What `RD` reads: `Value(sel, idx)` of 43_control.md R251. Every bit the table does not list is 0. -/

namespace Sys2Proof.Machine

/-- `Value(sel, idx)` (R251). -/
def State.value (s : State) (sel : Sel) (idx : Nat) : Word :=
  match sel with
  | .status => s.status.word
  | .marker => s.marker.setWidth 32
  | .outPos => s.outPos
  | .writer => 0#21 ++ s.wcnt ++ s.wbuf
  | .inPos => s.inPos
  | .reader => 0#20 ++ s.rcnt ++ s.rbuf
  | .len => (s.len.get 0 idx).setWidth 32
  | .code => 0#11 ++ s.clen.get 0 idx ++ s.code.get 0 idx
  | .cpl => (s.cpl.get 0 idx).setWidth 32
  | .symlist => (s.symlist.get 0 idx).setWidth 32
  | .encSum => 0#3 ++ s.maxBits ++ 0#3 ++ s.minBits ++ 0#7 ++ s.nsym
  | .encCnt => s.encCnt
  | .dcpl => (s.dcpl.get 0 idx).setWidth 32
  | .dsyms => (s.dsyms.get 0 idx).setWidth 32
  | .decSum => 0#11 ++ s.dmaxBits ++ 0#7 ++ s.dnsym
  | .numSym => s.numSym
  | .dt =>
    let e := s.dt.get .unfilled idx
    0#15 ++ BitVec.ofBool e.v ++ 0#3 ++ e.len ++ e.sym
  | .fill => s.fill.setWidth 32
  | .win => s.win.setWidth 32
  | .remain => s.remain

end Sys2Proof.Machine
end

