-- ==== Sys2Proof/Machine/Control.lean ====
section
/-! DEFINITION. The control commands (43_control.md): `NOP`, `RD`, `CLR_ERR`, `SOFT_RESET`. These four run in the error state
too (60_exceptions.md R300). -/

namespace Sys2Proof.Machine

/-- `NOP` (R250). -/
def execNop (s : State) : Host.Outcome State Fault Refusal := .next s

/-- `RD sel, idx` (R251). An index outside the selector's range is illegal (R96): no decoded word has one (log 9). -/
def execRd (sel : Sel) (idx : BitVec 16) (s : State) : Host.Outcome State Fault Refusal :=
  if sel.idxLegal idx then .next { s with resp := s.value sel idx.toNat } else illegalWord Opcode.rd.byte s

/-- `CLR_ERR` (R252). -/
def execClrErr (s : State) : Host.Outcome State Fault Refusal := .next s.clearError

/-- `SOFT_RESET` (R253). -/
def execSoftReset (s : State) : Host.Outcome State Fault Refusal := .next s.blockReset

end Sys2Proof.Machine
end

