-- ==== Sys2Proof/Machine/Canon.lean ====
section
/-! DEFINITION. The canonical code mapper: `Canon`, a function of `LEN` alone (41_encoder.md R156, R158). -/

namespace Sys2Proof.Machine

/-- The working values of `Canon` (R156). The running counter is a Nat: R156 calls it 17 bits, and its value after the last
shift can be 2^17 (R157 (d)), which nothing reads (log 7). -/
structure CanonAcc where
  counter : Nat
  code : Table (BitVec 16)
  clen : Table (BitVec 5)
  cpl : Table (BitVec 9)
  /-- `SYMLIST'[0 .. n-1]`; `n` is its length. -/
  syms : List Byte
deriving DecidableEq, Repr

/-- The values before the first class. -/
def canonStart : CanonAcc := ⟨0, [], [], [], []⟩

/-- The assignment of the next code of class `L` to symbol `s` (R156). -/
def assignSymbol (L : Nat) (s : Byte) (a : CanonAcc) : CanonAcc where
  counter := a.counter + 1
  code := a.code.set 0 s.toNat (BitVec.ofNat 16 a.counter)
  clen := a.clen.set 0 s.toNat (BitVec.ofNat 5 L)
  cpl := a.cpl.set 0 L (a.cpl.get 0 L + 1)
  syms := a.syms ++ [s]

/-- The inner loop of `Canon`: the symbols of class `L`, in the order given. -/
def assignClass (len : Table (BitVec 5)) (L : Nat) : List Byte → CanonAcc → Except Err CanonAcc
  | [], a => .ok a
  | s :: ss, a =>
    if (len.get 0 s.toNat).toNat = L then
      if 2 ^ L ≤ a.counter then .error .oversub else assignClass len L ss (assignSymbol L s a)
    else assignClass len L ss a

/-- The outer loop of `Canon`: after each class the counter shifts left by one. -/
def assignClasses (len : Table (BitVec 5)) : List Nat → CanonAcc → Except Err CanonAcc
  | [], a => .ok a
  | L :: Ls, a =>
    match assignClass len L allSymbols a with
    | .error e => .error e
    | .ok b => assignClasses len Ls { b with counter := b.counter <<< 1 }

/-- Some symbol has a length in 1 to 16. -/
def someCoded (len : Table (BitVec 5)) : Bool :=
  allSymbols.any fun s => decide (1 ≤ (len.get 0 s.toNat).toNat) && decide ((len.get 0 s.toNat).toNat ≤ 16)

/-- `Canon(LEN)` (R156): `E_NO_SYMBOLS`, `E_OVERSUB`, or the code table. -/
def canon (len : Table (BitVec 5)) : Except Err CanonAcc :=
  if someCoded len then assignClasses len lenClasses canonStart else .error .noSymbols

/-- The first of the classes `Ls` whose count is not 0; 0 when there is none. -/
def firstUsed {n : Nat} (cpl : Table (BitVec n)) (Ls : List Nat) : Nat :=
  (Ls.find? fun L => decide (0 < (cpl.get 0 L).toNat)).getD 0

/-- `MIN'`: the least class in use (R156). -/
def leastClass {n : Nat} (cpl : Table (BitVec n)) : Nat := firstUsed cpl lenClasses

/-- `MAX'` (R156), and the decoder's `max_bits` (42_decoder.md R206): the greatest class in use, 0 when none is. -/
def greatestClass {n : Nat} (cpl : Table (BitVec n)) : Nat := firstUsed cpl lenClasses.reverse

end Sys2Proof.Machine
end

