-- ==== Sys2Proof/Machine/DecTable.lean ====
section
/-! DEFINITION. `BuildTable`, the fill of the decode table (42_decoder.md R206, R207). -/

namespace Sys2Proof.Machine

/-- The working values of `BuildTable` (R207). -/
structure FillAcc where
  dt : Table DtEntry
  /-- The fill cursor. -/
  cur : Nat
  /-- The index of the next entry of `DSYMS`. -/
  k : Nat
deriving DecidableEq, Repr

/-- How `BuildTable` ends: with `E_OVERLAP` or not, and the working values then. -/
structure FillResult where
  overlap : Bool
  acc : FillAcc
deriving DecidableEq, Repr

/-- The `span = 2^(M - L)` slots of the next symbol of class `L` (R207). -/
def fillSymbol (M L : Nat) (dsyms : Table Byte) (a : FillAcc) : FillAcc where
  dt := a.dt.fill .unfilled a.cur (2 ^ (M - L)) ⟨true, BitVec.ofNat 5 L, dsyms.get 0 a.k⟩
  cur := a.cur + 2 ^ (M - L)
  k := a.k + 1

/-- The inner loop: `n` symbols of class `L` (R207). -/
def fillClass (M L : Nat) (dsyms : Table Byte) : Nat → FillAcc → FillResult
  | 0, a => ⟨false, a⟩
  | n + 1, a =>
    if 2 ^ M < a.cur + 2 ^ (M - L) then ⟨true, a⟩ else fillClass M L dsyms n (fillSymbol M L dsyms a)

/-- The outer loop over the length classes (R207). -/
def fillClasses (M : Nat) (dcpl dsyms : Table Byte) : List Nat → FillAcc → FillResult
  | [], a => ⟨false, a⟩
  | L :: Ls, a =>
    let r := fillClass M L dsyms (dcpl.get 0 L).toNat a
    if r.overlap then r else fillClasses M dcpl dsyms Ls r.acc

/-- `BuildTable` on the parsed counts and symbols, over the old table `dt` (R207): the first `2^M` entries are unfilled first,
and the others are not touched. -/
def buildTable (dcpl dsyms : Table Byte) (dt : Table DtEntry) : FillResult :=
  let M := greatestClass dcpl
  fillClasses M dcpl dsyms lenClasses ⟨dt.fill .unfilled 0 (2 ^ M) .unfilled, 0, 0⟩

end Sys2Proof.Machine
end

