-- ==== Sys2Proof/Machine/Header.lean ====
section
/-! DEFINITION. The DHT header: the bytes the serializer writes (41_encoder.md R164) and the checks of the parser
(42_decoder.md R204). -/

namespace Sys2Proof.Machine

/-- A 32-bit value as four bytes, most significant first (20_memory.md R69). -/
def bytesBE (v : BitVec 32) : List Byte :=
  [v.extractLsb' 24 8, v.extractLsb' 16 8, v.extractLsb' 8 8, v.extractLsb' 0 8]

/-- `seglen = 19 + NSYM`, 16 bits (R164). -/
def segLen (nsym : BitVec 9) : BitVec 16 := 19 + nsym.setWidth 16

/-- The low byte of each of the 16 counts, in class order (R164). -/
def countBytes (cpl : Table (BitVec 9)) : List Byte := lenClasses.map fun L => (cpl.get 0 L).setWidth 8

/-- `SYMLIST[0 .. NSYM-1]` (R164). -/
def listedSymbols (symlist : Table Byte) (nsym : BitVec 9) : List Byte :=
  (List.range nsym.toNat).map fun k => symlist.get 0 k

/-- `HdrBytes()` (R164). -/
def hdrBytes (s : State) : List Byte :=
  [0xFF, 0xC4, (segLen s.nsym).extractLsb' 8 8, (segLen s.nsym).extractLsb' 0 8, 0x00] ++
    countBytes s.cpl ++ listedSymbols s.symlist s.nsym ++ bytesBE s.encCnt

/-- A class whose count a byte cannot carry (R165). -/
def someCountOver (cpl : Table (BitVec 9)) : Bool := lenClasses.any fun L => decide (255 < (cpl.get 0 L).toNat)

/-- Byte `i` of the fixed header bytes `h[0..20]` (R204). -/
def hdrByte (h : List Byte) (i : Nat) : Byte := h.getD i 0

/-- The segment length of a parsed header, `h[2] ++ h[3]` (R204). -/
def hdrSegLen (h : List Byte) : Nat := (hdrByte h 2 ++ hdrByte h 3).toNat

/-- The 16 counts `h[5..20]` of a parsed header (R204, R205). -/
def hdrCounts (h : List Byte) : List Byte := lenClasses.map fun L => hdrByte h (4 + L)

/-- `N`, the sum of the 16 counts (R204). -/
def hdrTotal (h : List Byte) : Nat := ((hdrCounts h).map BitVec.toNat).sum

/-- The header checks, in the order of R204; none when the header passes. -/
def hdrError (h : List Byte) : Option Err :=
  if ¬(hdrByte h 0 = 0xFF ∧ hdrByte h 1 = 0xC4) then some .badMarker
  else if ¬(Config.seglenMin ≤ hdrSegLen h ∧ hdrSegLen h ≤ Config.seglenMax) then some .badLength
  else if hdrByte h 4 ≠ 0x00 then some .badClass
  else if 19 + hdrTotal h ≠ hdrSegLen h then some .countMismatch
  else none

/-- The trailing count, `c[0] ++ c[1] ++ c[2] ++ c[3]` (R205). -/
def wordBE (c : List Byte) : BitVec 32 := c.getD 0 0 ++ c.getD 1 0 ++ c.getD 2 0 ++ c.getD 3 0

end Sys2Proof.Machine
end

