-- ==== Sys2Proof/Machine/Decoder.lean ====
section
/-! DEFINITION. The decoder's commands (42_decoder.md R203 to R211): the bit reader, the DHT parser, the table builder, and the
symbol lookup. -/

namespace Sys2Proof.Machine

/-- `BR_BITS n` (R203). `n` above 16 is illegal (R96): no decoded word has it (log 9). -/
def execBrBits (n : BitVec 5) (s : State) : Host.Outcome State Fault Refusal :=
  if countLegal n then
    runGated .brBits (do
      let v ← readBits n.toNat
      modify fun s => { s with resp := v.setWidth 32 }) s
  else illegalWord Opcode.brBits.byte s

/-- The writes of a `DEC_HDR` that parsed (R205): the fixed bytes `h`, the symbols `y` and the count bytes `c`. -/
def installHeader (h y c : List Byte) (s : State) : State :=
  { s with
    dcpl := s.dcpl.setMany 0 1 (hdrCounts h), dsyms := s.dsyms.setMany 0 0 y
    dnsym := BitVec.ofNat 9 (hdrTotal h), numSym := wordBE c
    status := { s.status with hdrValid := true } }

/-- `DEC_HDR` (R205). -/
def execDecHdr (s : State) : Host.Outcome State Fault Refusal :=
  runGated .decHdr (do
    let s ← get
    require (s.rcnt = 0) .seq
    set { s with status := { s.status with hdrValid := false, decReady := false, seeded := false } }
    let h ← rawInMany Config.hdrFixedBytes
    match hdrError h with
    | some e => raiseErr e
    | none => do
      let y ← rawInMany (hdrTotal h)
      let c ← rawInMany Config.countBytes
      modify (installHeader h y c)) s

/-- The state after the fill of `DEC_BUILD` (R207, R208), whether it ended with `E_OVERLAP` or not. -/
def installTable (s : State) : State :=
  let r := buildTable s.dcpl s.dsyms s.dt
  { s with
    dmaxBits := BitVec.ofNat 5 (greatestClass s.dcpl), dt := r.acc.dt, fill := BitVec.ofNat 17 r.acc.cur
    status := { s.status with decReady := false, seeded := false, warnIncomplete := false } }

/-- `DEC_BUILD` (R208). -/
def execDecBuild (s : State) : Host.Outcome State Fault Refusal :=
  runGated .decBuild (do
    let s ← get
    require s.status.hdrValid .notReady
    let r := buildTable s.dcpl s.dsyms s.dt
    let t := installTable s
    set t
    if r.overlap then raiseErr .overlap
    else set { t with status := { t.status with
      warnIncomplete := tableIncomplete r.acc.cur (greatestClass s.dcpl), decReady := true } }) s

/-- The seeding of the window, shared by `DEC_SEED` and `DEC_RUN` (R209, R211). -/
def seedWindow : Cmd Unit := do
  let s ← get
  require s.status.decReady .notReady
  set { s with status := { s.status with seeded := false }, remain := s.numSym }
  let w ← readBits s.dmaxBits.toNat
  modify fun s => { s with win := w, status := { s.status with seeded := true } }

/-- `DEC_SEED` (R209). -/
def execDecSeed (s : State) : Host.Outcome State Fault Refusal := runGated .decSeed seedWindow s

/-- `((WIN << LEN) OR b) mod 2^M`, formed at 32 bits (R210). -/
def shiftWindow (win : BitVec 16) (len : Nat) (b : BitVec 16) (M : Nat) : BitVec 16 :=
  BitVec.ofNat 16 (((win.setWidth 32 <<< len) ||| b.setWidth 32).toNat % 2 ^ M)

/-- The lookup, emission and refill of one symbol, shared by `DEC_SYM` and `DEC_RUN` (R210, R211). -/
def decodeSymbol : Cmd Unit := do
  let s ← get
  let M := s.dmaxBits.toNat
  let e := s.dt.get .unfilled (s.win.toNat % 2 ^ M)
  require e.v .emptySlot
  symOut e.sym
  modify fun s => { s with resp := e.sym.setWidth 32, remain := s.remain - 1 }
  let s ← get
  if s.remain = 0 then pure ()
  else do
    let b ← readBits e.len.toNat
    modify fun s => { s with win := shiftWindow s.win e.len.toNat b M }

/-- `DEC_SYM` (R210). -/
def execDecSym (s : State) : Host.Outcome State Fault Refusal :=
  runGated .decSym (do
    let s ← get
    require s.status.seeded .notReady
    require (s.remain ≠ 0) .seq
    decodeSymbol) s

/-- The loop of `DEC_RUN` (R211), for at most `fuel` symbols. -/
def decodeLoop : Nat → Cmd Unit
  | 0 => pure ()
  | fuel + 1 => do
    let s ← get
    if s.remain = 0 then pure ()
    else do
      decodeSymbol
      decodeLoop fuel

/-- `DEC_RUN` (R211): each pass of the loop lowers `REMAIN` by one, so `NUM_SYM` passes end it. -/
def execDecRun (s : State) : Host.Outcome State Fault Refusal :=
  runGated .decRun (do
    seedWindow
    let s ← get
    decodeLoop s.remain.toNat) s

end Sys2Proof.Machine
end

