-- ==== Sys2Proof/Machine/Encoder.lean ====
section
/-! DEFINITION. The encoder's commands (41_encoder.md R154 to R166): the bit writer, the code mapper, the DHT serializer and
the symbol encoder. -/

namespace Sys2Proof.Machine

/-- `BW_BITS n, v` (R154). `n` above 16 is illegal (R96): no decoded word has it (log 9). -/
def execBwBits (n : BitVec 5) (v : BitVec 16) (s : State) : Host.Outcome State Fault Refusal :=
  if countLegal n then runGated .bwBits (writeBits v n.toNat) s else illegalWord Opcode.bwBits.byte s

/-- `BW_FLUSH` (R155). -/
def execBwFlush (s : State) : Host.Outcome State Fault Refusal := runGated .bwFlush flush s

/-- `ENC_CLRLEN` (R159): every `LEN[s]` to 0, which is the table with no run. -/
def execEncClrlen (s : State) : Host.Outcome State Fault Refusal :=
  runGated .encClrlen (modify fun s => { s with len := [], status := { s.status with encReady := false } }) s

/-- `ENC_SETLEN sym, len` (R160). -/
def execEncSetlen (sym : Byte) (len : BitVec 5) (s : State) : Host.Outcome State Fault Refusal :=
  runGated .encSetlen
    (modify fun s =>
      { s with len := s.len.set 0 sym.toNat len, status := { s.status with encReady := false } }) s

/-- The writes of `ENC_BUILD` before its checks (R161). -/
def beginBuild (s : State) : State :=
  { s with status := { s.status with warnLong := someLong s.len, encReady := false } }

/-- The writes of a successful `ENC_BUILD` (R161). -/
def installCode (r : CanonAcc) (s : State) : State :=
  { s with
    code := r.code, clen := r.clen, cpl := r.cpl, symlist := s.symlist.setMany 0 0 r.syms
    nsym := BitVec.ofNat 9 r.syms.length
    minBits := BitVec.ofNat 5 (leastClass r.cpl), maxBits := BitVec.ofNat 5 (greatestClass r.cpl)
    status := { s.status with encReady := true } }

/-- `ENC_BUILD` (R161). -/
def execEncBuild (s : State) : Host.Outcome State Fault Refusal :=
  runGated .encBuild (do
    modify beginBuild
    let s ← get
    match canon s.len with
    | .error e => raiseErr e
    | .ok r => modify (installCode r)) s

/-- `ENC_SETCNT_LO imm` (R162). -/
def execEncSetcntLo (imm : BitVec 16) (s : State) : Host.Outcome State Fault Refusal :=
  runGated .encSetcntLo (modify fun s => { s with encCnt := s.encCnt.extractLsb' 16 16 ++ imm }) s

/-- `ENC_SETCNT_HI imm` (R163). -/
def execEncSetcntHi (imm : BitVec 16) (s : State) : Host.Outcome State Fault Refusal :=
  runGated .encSetcntHi (modify fun s => { s with encCnt := imm ++ s.encCnt.extractLsb' 0 16 }) s

/-- `ENC_HDR` (R165). -/
def execEncHdr (s : State) : Host.Outcome State Fault Refusal :=
  runGated .encHdr (do
    let s ← get
    require s.status.encReady .notReady
    require (s.wcnt = 0) .seq
    require (!someCountOver s.cpl) .cplOverflow
    rawOutMany (hdrBytes s)) s

/-- `ENC_SYM sym` (R166). -/
def execEncSym (sym : Byte) (s : State) : Host.Outcome State Fault Refusal :=
  runGated .encSym (do
    let s ← get
    require s.status.encReady .notReady
    require (s.clen.get 0 sym.toNat ≠ 0) .noCode
    writeBits (s.code.get 0 sym.toNat) (s.clen.get 0 sym.toNat).toNat) s

end Sys2Proof.Machine
end

