-- ==== Sys2Proof/Machine/Framer.lean ====
section
/-! DEFINITION. The byte commands of the framer (40_framer.md R123 to R126). -/

namespace Sys2Proof.Machine

/-- `FR_PUT b` (R123). -/
def execFrPut (b : Byte) (s : State) : Host.Outcome State Fault Refusal :=
  runGated .frPut (do
    let s ← get
    require (s.wcnt = 0) .seq
    stuffOut b) s

/-- `FR_RAW b` (R124). -/
def execFrRaw (b : Byte) (s : State) : Host.Outcome State Fault Refusal :=
  runGated .frRaw (do
    let s ← get
    require (s.wcnt = 0) .seq
    rawOut b) s

/-- `FR_GET` (R125). -/
def execFrGet (s : State) : Host.Outcome State Fault Refusal :=
  runGated .frGet (do
    let s ← get
    require (s.rcnt = 0) .seq
    let b ← unstuffIn
    modify fun s => { s with resp := b.setWidth 32 }) s

/-- `FR_RAWGET` (R126). -/
def execFrRawget (s : State) : Host.Outcome State Fault Refusal :=
  runGated .frRawget (do
    let s ← get
    require (s.rcnt = 0) .seq
    let b ← rawIn
    modify fun s => { s with resp := b.setWidth 32 }) s

end Sys2Proof.Machine
end

