-- ==== Sys2Proof/Machine/Dispatch.lean ====
section
/-! DEFINITION. The meaning of each command: one arm per constructor of Instr (30_encoding.md R93). -/

namespace Sys2Proof.Machine

def exec (i : Instr) (s : State) : Host.Outcome State Fault Refusal :=
  match i with
  | .nop => Sys2Proof.Machine.execNop s
  | .rd sel idx => Sys2Proof.Machine.execRd sel idx s
  | .clrErr => Sys2Proof.Machine.execClrErr s
  | .softReset => Sys2Proof.Machine.execSoftReset s
  | .frPut b => Sys2Proof.Machine.execFrPut b s
  | .frRaw b => Sys2Proof.Machine.execFrRaw b s
  | .frGet => Sys2Proof.Machine.execFrGet s
  | .frRawget => Sys2Proof.Machine.execFrRawget s
  | .bwBits n v => Sys2Proof.Machine.execBwBits n v s
  | .bwFlush => Sys2Proof.Machine.execBwFlush s
  | .encClrlen => Sys2Proof.Machine.execEncClrlen s
  | .encSetlen sym len => Sys2Proof.Machine.execEncSetlen sym len s
  | .encBuild => Sys2Proof.Machine.execEncBuild s
  | .encSetcntLo imm => Sys2Proof.Machine.execEncSetcntLo imm s
  | .encSetcntHi imm => Sys2Proof.Machine.execEncSetcntHi imm s
  | .encHdr => Sys2Proof.Machine.execEncHdr s
  | .encSym sym => Sys2Proof.Machine.execEncSym sym s
  | .brBits n => Sys2Proof.Machine.execBrBits n s
  | .decHdr => Sys2Proof.Machine.execDecHdr s
  | .decBuild => Sys2Proof.Machine.execDecBuild s
  | .decSeed => Sys2Proof.Machine.execDecSeed s
  | .decSym => Sys2Proof.Machine.execDecSym s
  | .decRun => Sys2Proof.Machine.execDecRun s

end Sys2Proof.Machine
end

