-- ==== Sys2Proof/Machine/Step.lean ====
section
/-! DEFINITION. One step: the host's next move, taken when the block is idle (60_exceptions.md R300; 48_host_reference.md R270;
70_reset_and_hazards.md R352: a command is one step). -/

namespace Sys2Proof.Machine

/-- One step: decode and run the next command word, raise or drop an illegal one, or take the reset input; the host's index
advances by one (R21). With no move left the run has ended (R283). -/
def step (s : State) : Host.Outcome State Fault Refusal :=
  match s.nextMove with
  | none => .fault .idle
  | some .resetInput => .next s.advance.blockReset
  | some (.command w) =>
    match decode w with
    | .ok i => exec i s.advance
    | .error _ => illegalWord (opByte w) s.advance

/-- `s` with the command word of a table row's bits as the host's next move (log 11). -/
def State.withFetchWord (s : State) (nbits w : Nat) : State :=
  { s with program := placeMove s.program s.pos (.command (BitVec.ofNat 32 (w % 2 ^ nbits))) }

end Sys2Proof.Machine
end

