-- ==== Sys2Proof/Machine/HostRef.lean ====
section
/-! DEFINITION. The host-side reference functions of 48_host_reference.md (R272 to R281), which are specified but are no
hardware (00_scope.md R8): the frequency counter, the code-length builder, the drivers and the classes of failures
(60_exceptions.md R305); and the pseudo-instructions of 30_encoding.md R100. The step function uses none of them (log 12). -/

namespace Sys2Proof.Machine

/-! ## Pseudo-instructions (R100) -/

/-- `RD_STATUS`. -/
def rdStatus : List Instr := [.rd .status 0]

/-- `ENC_SETCNT c`. -/
def encSetcnt (c : BitVec 32) : List Instr := [.encSetcntLo (c.extractLsb' 0 16), .encSetcntHi (c.extractLsb' 16 16)]

/-- `BW_BYTE b`. -/
def bwByte (b : Byte) : List Instr := [.bwBits 8 (b.setWidth 16)]

/-- `BR_BYTE`. -/
def brByte : List Instr := [.brBits 8]

/-- `ENC_LENS s0:L0, s1:L1, …`. -/
def encLens (ls : List (Byte × BitVec 5)) : List Instr := .encClrlen :: ls.map fun p => .encSetlen p.1 p.2

/-! ## Frequency counter and tree builder -/

/-- `count_frequencies(data)` (R272): entry `b` counts the positions that hold `b`. -/
def countFrequencies (data : List Byte) : List Nat := allSymbols.map fun b => data.count b

/-- `TREE_MERGE_PLACEMENT` (R276), the one open parameter: an argument of the builder (R12). -/
inductive Placement where
  | lowSlot
  | append
deriving DecidableEq, Repr

/-- A node of the Huffman tree (R273, R275). -/
inductive Tree where
  | leaf (s : Byte)
  | node (a b : Tree)
deriving DecidableEq, Repr

/-- The active node array (R273): each node with its count. -/
abbrev Active := List (Nat × Tree)

/-- The leaves: one per symbol with a nonzero frequency, in ascending order (R273). -/
def leaves (freq : List Nat) : Active :=
  allSymbols.filterMap fun s => if 0 < freq.getD s.toNat 0 then some (freq.getD s.toNat 0, .leaf s) else none

/-- The least index with the least count of a nonempty array, skipping index `skip` (R274). -/
def leastIndex (A : Active) (skip : Option Nat) : Nat :=
  let live := (List.range A.length).filter fun i => decide (some i ≠ skip)
  let count := fun i => (A.getD i (0, .leaf 0)).1
  (live.find? fun i => live.all fun j => decide (count i ≤ count j)).getD 0

/-- One merge (R274 to R276): the two nodes of least count give way to their sum, placed as the parameter says. -/
def mergeOnce (p : Placement) (A : Active) : Active :=
  let i1 := leastIndex A none
  let i2 := leastIndex A (some i1)
  let x := A.getD i1 (0, .leaf 0)
  let y := A.getD i2 (0, .leaf 0)
  let m := (x.1 + y.1, Tree.node x.2 y.2)
  match p with
  | .lowSlot => (A.set (min i1 i2) m).eraseIdx (max i1 i2)
  | .append => (A.eraseIdx (max i1 i2)).eraseIdx (min i1 i2) ++ [m]

/-- Merging while more than two nodes remain (R275). Each merge removes one node, so `fuel` of the array's length suffices. -/
def mergeAll (p : Placement) : Nat → Active → Active
  | 0, A => A
  | fuel + 1, A => if 2 < A.length then mergeAll p fuel (mergeOnce p A) else A

/-- The depth of each leaf below a node that stands at depth `d` (R277). -/
def Tree.depths (d : Nat) : Tree → List (Byte × Nat)
  | .leaf s => [(s, d)]
  | .node a b => a.depths (d + 1) ++ b.depths (d + 1)

/-- The code lengths of a frequency table (R273 to R277): none is the construction error "no symbols to code". The nodes left
are the root's children; a single leaf gets length 1. -/
def codeLengths (p : Placement) (freq : List Nat) : Option (List (Byte × Nat)) :=
  match leaves freq with
  | [] => none
  | A => some ((mergeAll p A.length A).flatMap fun x => x.2.depths 1)

/-! ## Drivers -/

/-- The command list of the encode driver (R280), with the lengths loaded in ascending symbol order (log 12); none for the
construction error (R273). It reads `STATUS` at the end. DESIGN CHOICE (log 15): R280 does not say what the driver does with
2^32 or more bytes, whose number `ENC_SETCNT` cannot take; here the count is loaded modulo 2^32. -/
def encodeDriver (p : Placement) (data : List Byte) : Option (List Instr) :=
  match codeLengths p (countFrequencies data) with
  | none => none
  | some ls =>
    let loads := allSymbols.filterMap fun s =>
      (ls.find? fun x => x.1 == s).map fun x => Instr.encSetlen s (BitVec.ofNat 5 (min x.2 31))
    some ([.encClrlen] ++ loads ++ [.encBuild] ++ encSetcnt (BitVec.ofNat 32 data.length) ++ [.encHdr] ++
      data.map .encSym ++ [.bwFlush] ++ rdStatus)

/-- The command list of the decode driver (R281). Its last command reads `STATUS`, which is how the host learns of an error
(60_exceptions.md R311). -/
def decodeDriver : List Instr := [.decHdr, .decBuild, .decRun] ++ rdStatus

/-- The failure of a driver's call, told from `RESP` after its last command, which read `STATUS`: `ERR` is not 0 (R280, R281).
An error is kept until then, because no driver clears it (60_exceptions.md R300). -/
def callFailed (resp : Word) : Bool := decide (resp.extractLsb' 0 5 ≠ 0)

/-- How many bytes 0x00 a host appends so that the decoder's lookahead of `M - Ln` bits past the last code finds bits beyond
the `p` padding bits: `ceil((M - L_n - p) / 8)` (R282). -/
def lookaheadBytes (M Ln p : Nat) : Nat := (M - Ln - p + 7) / 8

/-- A failure as the source's taxonomy groups it (60_exceptions.md R304, R305); `spec` is a condition the source does not
have. -/
inductive FailureClass where
  | spec | construction | io | format | contract
deriving DecidableEq, Repr

/-- The class column of R304, with the grouping of R305. -/
def failureClass : Err → FailureClass
  | .illegal | .notReady | .seq | .emptySlot => .spec
  | .noSymbols | .oversub | .cplOverflow => .construction
  | .ioWrite | .ioRead | .marker => .io
  | .badMarker | .badLength | .badClass | .countMismatch | .overlap => .format
  | .noCode => .contract

/-- A program of commands as the host's list of moves (R283). -/
def asProgram (is : List Instr) : List HostMove := is.map fun i => .command (encode i)

/-- A host that offers the bytes `bs` on BIN and then end-of-stream. -/
def offering (bs : List Byte) : Answers InAnswer := ⟨bs.map .byte, some .endOfStream⟩

end Sys2Proof.Machine
end

