-- ==== Sys2Proof/Safety.lean ====
section
/-! DEFINITION. What counts as a safe run, and the terms the claims use: the invariants of the state (10_state.md R54 and the
rules beside it), the host's answers by number, streams as lists of bits and bytes, and what a canonical code and a decode
table are, said without the machine's own loops. -/

namespace Sys2Proof.Machine

/-! ## Invariants -/

/-- The sum of the 16 entries of a class table: `Σ_{L=1..16} T[L]`. -/
def classSum {n : Nat} (t : Table (BitVec n)) : Nat := (lenClasses.map fun L => (t.get 0 L).toNat).sum

/-- The invariants of 10_state.md R54, clause by clause. `WCNT <= 7` is the width of `WCNT` (R35). -/
structure State.SpecInv (s : State) : Prop where
  /-- `WBUF[7 - WCNT : 0] = 0` when `WCNT > 0`, and `WBUF = 0` when `WCNT = 0`. -/
  writer : ∀ k, k < 8 - s.wcnt.toNat → s.wbuf.getLsbD k = false
  /-- `WCNT <= 7`. -/
  writerCount : s.wcnt.toNat ≤ 7
  /-- `RCNT <= 8`. -/
  readerCount : s.rcnt.toNat ≤ 8
  /-- If `SEEDED = 1` then `WIN < 2^DMAX_BITS` and `DEC_READY = 1`. -/
  window : s.status.seeded = true → s.win.toNat < 2 ^ s.dmaxBits.toNat ∧ s.status.decReady = true
  /-- If `DEC_READY = 1` then `HDR_VALID = 1`. -/
  ready : s.status.decReady = true → s.status.hdrValid = true
  /-- `DMAX_BITS <= 16`. -/
  maxBits : s.dmaxBits.toNat ≤ 16
  /-- If `ENC_READY = 1` then `NSYM = Σ CPL[L]` and `NSYM >= 1`. -/
  encoder : s.status.encReady = true → s.nsym.toNat = classSum s.cpl ∧ 1 ≤ s.nsym.toNat
  /-- If `HDR_VALID = 1` then `DNSYM = Σ DCPL[L] <= 256`. -/
  header : s.status.hdrValid = true → s.dnsym.toNat = classSum s.dcpl ∧ classSum s.dcpl ≤ 256

/-- A table in canonical form whose entries from index `size` on are reset entries (20_memory.md R61 gives the sizes; log 8). -/
def TableOk {α : Type} [DecidableEq α] (d : α) (size : Nat) (t : Table α) : Prop :=
  Table.wf d t = true ∧ Table.extent t ≤ size

/-- What else holds between commands: the tables' form (log 8), and rules of single registers. -/
structure State.DataInv (s : State) : Prop where
  len : TableOk 0 256 s.len
  code : TableOk 0 256 s.code
  clen : TableOk 0 256 s.clen
  cpl : TableOk 0 17 s.cpl
  symlist : TableOk 0 256 s.symlist
  dcpl : TableOk 0 17 s.dcpl
  dsyms : TableOk 0 256 s.dsyms
  dt : TableOk .unfilled 65536 s.dt
  /-- R23: codes 17 to 31 are never written. -/
  errCode : s.status.err.toNat ≤ 16
  /-- R313: with `ERR = 0`, `ERR_OP = 0`. -/
  errOp : s.status.err = 0 → s.status.errOp = 0
  /-- R38: `CLEN[s]` is 0 to 16, and the bits of `CODE[s]` above it are 0. -/
  codeFits : ∀ x : Byte, (s.clen.get 0 x.toNat).toNat ≤ 16 ∧
    (s.code.get 0 x.toNat).toNat < 2 ^ (s.clen.get 0 x.toNat).toNat
  /-- R48: a filled slot of the current table holds a length in 1 to `DMAX_BITS`. -/
  slotLen : s.status.decReady = true → ∀ x, x < 2 ^ s.dmaxBits.toNat → (s.dt.get .unfilled x).v = true →
    1 ≤ (s.dt.get .unfilled x).len.toNat ∧ (s.dt.get .unfilled x).len.toNat ≤ s.dmaxBits.toNat
  /-- R49: `FILL` is 0 to 65536. -/
  fill : s.fill.toNat ≤ 65536
  /-- R30: the flag of a built table says whether the fill cursor is not `2^max_bits`. -/
  incomplete : s.status.decReady = true →
    (s.status.warnIncomplete = true ↔ s.fill.toNat ≠ 2 ^ s.dmaxBits.toNat)

/-! ## The host's answers, by number -/

/-- The host's answer to request number `k` from now; none when it never comes. -/
def Answers.nth {α : Type} (a : Answers α) (k : Nat) : Option α :=
  match a.script[k]? with
  | some x => some x
  | none => a.rest

/-- The host's answers after `k` requests. -/
def Answers.skip {α : Type} (k : Nat) (a : Answers α) : Answers α := { a with script := a.script.drop k }

/-- The next answers on BIN are the bytes `bs`. -/
def Answers.Offers (a : Answers InAnswer) (bs : List Byte) : Prop :=
  ∀ k, k < bs.length → a.nth k = some (.byte (bs.getD k 0))

/-- The next answers on BIN are the bytes `bs` and then end-of-stream. -/
def Answers.OffersThenEnds (a : Answers InAnswer) (bs : List Byte) : Prop :=
  a.Offers bs ∧ a.nth bs.length = some .endOfStream

/-- The next `n` answers on BOUT are accept. -/
def Answers.AcceptsBytes (a : Answers OutAnswer) (n : Nat) : Prop := ∀ k, k < n → a.nth k = some .accept

/-- The next `n` answers on BOUT are accept, and the one after them is fail. -/
def Answers.FailsAfter (a : Answers OutAnswer) (n : Nat) : Prop := a.AcceptsBytes n ∧ a.nth n = some .fail

/-- The next answers on BIN are the bytes `bs`, and the request after them is never answered. -/
def Answers.OffersThenSilent (a : Answers InAnswer) (bs : List Byte) : Prop := a.Offers bs ∧ a.nth bs.length = none

/-- The next `n` answers on BOUT are accept, and the request after them is never answered. -/
def Answers.SilentAfter (a : Answers OutAnswer) (n : Nat) : Prop := a.AcceptsBytes n ∧ a.nth n = none

/-- The next `n` answers on SOUT are accept. -/
def Answers.AcceptsSymbols (a : Answers SymAnswer) (n : Nat) : Prop := ∀ k, k < n → a.nth k = some .accept

/-- The host answers every request on every port (48_host_reference.md R271). -/
def State.HostAnswers (s : State) : Prop := s.bin.rest ≠ none ∧ s.boutHost.rest ≠ none ∧ s.soutHost.rest ≠ none

/-- `s` after `k` bytes taken from BIN. -/
def State.took (s : State) (k : Nat) : State := { s with bin := s.bin.skip k, inPos := s.inPos + BitVec.ofNat 32 k }

/-- `s` after `k` bytes taken from BIN and then an end-of-stream answer. -/
def State.tookToEnd (s : State) (k : Nat) : State :=
  { s with bin := s.bin.skip (k + 1), inPos := s.inPos + BitVec.ofNat 32 k }

/-- `s` with the error `code` raised by a command whose opcode byte is `op` (60_exceptions.md R310). -/
def State.failed (s : State) (code : BitVec 5) (op : Byte) : State :=
  { s with status := { s.status with err := code, errOp := op } }

/-- `s` after the bytes `bs` were accepted on BOUT. -/
def State.gave (s : State) (bs : List Byte) : State :=
  { s with
    boutHost := s.boutHost.skip bs.length, bout := s.bout ++ bs, outPos := s.outPos + BitVec.ofNat 32 bs.length }

/-- `s` after the bytes `bs` were accepted on BOUT and the byte after them was failed. -/
def State.gaveThenRefused (s : State) (bs : List Byte) : State :=
  { s.gave bs with boutHost := s.boutHost.skip (bs.length + 1) }

/-- `s` after the symbols `ys` were accepted on SOUT. -/
def State.emitted (s : State) (ys : List Byte) : State :=
  { s with soutHost := s.soutHost.skip ys.length, sout := s.sout ++ ys }

/-! ## Streams as lists -/

/-- The stuffed form of data bytes: a 0x00 after each 0xFF (40_framer.md R120, R122). -/
def stuffed (ds : List Byte) : List Byte := ds.flatMap fun d => if d = 0xFF then [0xFF, 0x00] else [d]

/-- The low `n` bits of `v`, most significant first (41_encoder.md R151). -/
def bitsOf {w : Nat} (v : BitVec w) (n : Nat) : List Bool := (List.range n).map fun i => v.getLsbD (n - 1 - i)

/-- The bits of data bytes, most significant first within each byte (00_scope.md R14). -/
def streamBits (ds : List Byte) : List Bool := ds.flatMap fun d => bitsOf d 8

/-- Bits as a number, the first bit in the most significant place (42_decoder.md R201). -/
def bitsVal (bs : List Bool) : Nat := bs.foldl (fun v b => 2 * v + b.toNat) 0

/-- The bits grouped eight at a time, the first into bit 7 of the first byte: the complete groups (41_encoder.md R153). -/
def dataBytes (bs : List Bool) : List Byte :=
  (List.range (bs.length / 8)).map fun j => BitVec.ofNat 8 (bitsVal ((bs.drop (8 * j)).take 8))

/-- The bits after the last complete group. -/
def leftover (bs : List Bool) : List Bool := bs.drop (8 * (bs.length / 8))

/-- The bits the writer holds: the `WCNT` high bits of `WBUF` (10_state.md R35). -/
def State.pendingBits (s : State) : List Bool := (List.range s.wcnt.toNat).map fun i => s.wbuf.getLsbD (7 - i)

/-- The bits the reader holds: the `RCNT` low bits of `RBUF`, the next one first (10_state.md R36). -/
def State.bufferedBits (s : State) : List Bool := bitsOf s.rbuf s.rcnt.toNat

/-- `s` with the bits `bs` in its writer: bit `i` of the list in `WBUF[7 - i]`, the other bits 0 (10_state.md R35, R54). -/
def State.holdingBits (s : State) (bs : List Bool) : State :=
  { s with
    wbuf := BitVec.ofNat 8 (bitsVal bs * 2 ^ (8 - bs.length)), wcnt := BitVec.ofNat 3 bs.length }

/-- `s` after the writer took the bits `bs` and the host accepted each completed byte (41_encoder.md R150, R153). -/
def State.wroteBits (s : State) (bs : List Bool) : State :=
  (s.gave (stuffed (dataBytes (s.pendingBits ++ bs)))).holdingBits (leftover (s.pendingBits ++ bs))

/-- How many bytes the writer completes and stuffs for the bits `bs`. -/
def State.bytesFor (s : State) (bs : List Bool) : Nat := (stuffed (dataBytes (s.pendingBits ++ bs))).length

/-- `s` after the writer took the bits `bs`, of which the host failed stuffed byte number `k`: the bytes before it are on BOUT,
the completed byte is lost and the writer is empty (41_encoder.md R150, R151). -/
def State.lostByte (s : State) (bs : List Bool) (k : Nat) : State :=
  { s.gaveThenRefused ((stuffed (dataBytes (s.pendingBits ++ bs))).take k) with wbuf := 0, wcnt := 0 }

/-- How many data bytes the reader takes for `n` bits (42_decoder.md R202). -/
def State.dataNeeded (s : State) (n : Nat) : Nat := (n - s.rcnt.toNat + 7) / 8

/-- The `n` bits the reader returns when the data bytes it takes are `ds`. -/
def State.readOf (s : State) (n : Nat) (ds : List Byte) : List Bool := (s.bufferedBits ++ streamBits ds).take n

/-- `s` after the reader returned `n` bits and took the data bytes `ds` for them (42_decoder.md R200, R202). -/
def State.readBitsOf (s : State) (n : Nat) (ds : List Byte) : State :=
  { s.took (stuffed ds).length with
    rbuf := ds.getLastD s.rbuf, rcnt := BitVec.ofNat 4 (s.rcnt.toNat + 8 * ds.length - n) }

/-- The reader, asked for `n` bits, takes the data bytes `ds` and then stops short of them, in state `u` with error `code`
(40_framer.md R121; 42_decoder.md R200, R201): end-of-stream, end-of-stream after a 0xFF, or a marker. The bits it had are
lost, and its buffer is used up. -/
def State.ReaderStops (s : State) (n : Nat) (ds : List Byte) (u : State) (code : BitVec 5) : Prop :=
  ds.length < s.dataNeeded n ∧
  ((s.bin.OffersThenEnds (stuffed ds) ∧ code = 7 ∧
      u = { s.tookToEnd (stuffed ds).length with rbuf := ds.getLastD s.rbuf, rcnt := 0 }) ∨
    (s.bin.OffersThenEnds (stuffed ds ++ [0xFF]) ∧ code = 7 ∧
      u = { s.tookToEnd ((stuffed ds).length + 1) with rbuf := ds.getLastD s.rbuf, rcnt := 0 }) ∨
    ∃ x : Byte, x ≠ 0 ∧ s.bin.Offers (stuffed ds ++ [0xFF, x]) ∧ code = 8 ∧
      u = { s.took ((stuffed ds).length + 2) with rbuf := ds.getLastD s.rbuf, rcnt := 0, marker := x })

/-- The reader, asked for `n` bits, takes the data bytes `ds` and then waits for ever, short of them: for a data byte, or for
the byte after a 0xFF (20_memory.md R64; 40_framer.md R121; 42_decoder.md R200). -/
def State.ReaderWaits (s : State) (n : Nat) (ds : List Byte) : Prop :=
  ds.length < s.dataNeeded n ∧
    (s.bin.OffersThenSilent (stuffed ds) ∨ s.bin.OffersThenSilent (stuffed ds ++ [0xFF]))

/-- The data bytes of a whole payload: a last incomplete group is completed with 1 bits (41_encoder.md R153). -/
def paddedBytes (bs : List Bool) : List Byte := dataBytes (bs ++ List.replicate ((8 - bs.length % 8) % 8) true)

/-- `UnstuffIn` as often as given, with the bytes it returns. -/
def unstuffMany : Nat → Cmd (List Byte)
  | 0 => pure []
  | n + 1 => do
    let b ← unstuffIn
    let bs ← unstuffMany n
    pure (b :: bs)

/-- `StuffOut` of each byte in turn. -/
def stuffMany : List Byte → Cmd Unit
  | [] => pure ()
  | b :: bs => do
    stuffOut b
    stuffMany bs

/-! ## Canonical codes -/

/-- The loaded length of a symbol as a number. -/
def lenOf (len : Table (BitVec 5)) (x : Byte) : Nat := (len.get 0 x.toNat).toNat

/-- The symbol has a length in 1 to 16 (41_encoder.md R156). -/
def Coded (len : Table (BitVec 5)) (x : Byte) : Prop := 1 ≤ lenOf len x ∧ lenOf len x ≤ 16

/-- The coded symbols in canonical order: by rising length, then by rising symbol (10_state.md R40). -/
def canonicalOrder (len : Table (BitVec 5)) : List Byte :=
  lenClasses.flatMap fun L => allSymbols.filter fun x => decide (lenOf len x = L)

/-- The Kraft sum of a list of lengths, scaled by `2^M`: `Σ 2^(M - L)`. -/
def kraft (M : Nat) (Ls : List Nat) : Nat := (Ls.map fun L => 2 ^ (M - L)).sum

/-- The symbols that stand before `x` in canonical order. -/
def earlier (len : Table (BitVec 5)) (x : Byte) : List Byte := (canonicalOrder len).takeWhile fun y => decide (y ≠ x)

/-- `len` has the canonical code `code`, `clen` (41_encoder.md R157 (b), (c)): a coded symbol's code, scaled to 16 bits, is the
scaled Kraft sum of the symbols before it; a symbol with no length in 1 to 16 has none (R158). -/
def IsCanonicalCode (len : Table (BitVec 5)) (code : Table (BitVec 16)) (clen : Table (BitVec 5)) : Prop :=
  ∀ x : Byte,
    (Coded len x → (clen.get 0 x.toNat).toNat = lenOf len x ∧
      (code.get 0 x.toNat).toNat * 2 ^ (16 - lenOf len x) = kraft 16 ((earlier len x).map (lenOf len))) ∧
    (¬Coded len x → clen.get 0 x.toNat = 0 ∧ code.get 0 x.toNat = 0)

/-! ## Decode tables -/

/-- The lengths of a header's symbols, in order: `DCPL[L]` times `L` for each class. -/
def classList (dcpl : Table Byte) : List Nat := lenClasses.flatMap fun L => List.replicate (dcpl.get 0 L).toNat L

/-- The greatest class with a nonzero count, and 0 when there is none (42_decoder.md R206), said of every class. -/
def IsMaxBits (dcpl : Table Byte) (M : Nat) : Prop :=
  (∀ L, 1 ≤ L → L ≤ 16 → dcpl.get 0 L ≠ 0 → L ≤ M) ∧ (M = 0 ∨ 1 ≤ M ∧ M ≤ 16 ∧ dcpl.get 0 M ≠ 0)

/-- The first slot of symbol number `k` (42_decoder.md R207; 41_encoder.md R157 (c)). -/
def slotStart (M : Nat) (Ls : List Nat) (k : Nat) : Nat := kraft M (Ls.take k)

/-- The first `n` symbols fill their slots in turn, the slots after them up to `2^M` are unfilled, and the slots from `2^M` on
are those of the old table (42_decoder.md R207, R208). -/
def IsFilledTable (M : Nat) (Ls : List Nat) (dsyms : Table Byte) (old new : Table DtEntry) (n : Nat) : Prop :=
  (∀ k, k < n → ∀ x, slotStart M Ls k ≤ x → x < slotStart M Ls (k + 1) →
    new.get .unfilled x = ⟨true, BitVec.ofNat 5 (Ls.getD k 0), dsyms.get 0 k⟩) ∧
  (∀ x, slotStart M Ls n ≤ x → x < 2 ^ M → new.get .unfilled x = .unfilled) ∧
  (∀ x, 2 ^ M ≤ x → new.get .unfilled x = old.get .unfilled x)

/-- A ready table belongs to what it was built from (70_reset_and_hazards.md R347): the code table, its counts and its symbol
list to the loaded lengths, and the decode table to the parsed header. -/
structure State.ReadyInv (s : State) : Prop where
  code : s.status.encReady = true → IsCanonicalCode s.len s.code s.clen
  counts : s.status.encReady = true → ∀ L, 1 ≤ L → L ≤ 16 →
    (s.cpl.get 0 L).toNat = (canonicalOrder s.len).countP fun x => decide (lenOf s.len x = L)
  symbols : s.status.encReady = true → s.nsym.toNat = (canonicalOrder s.len).length ∧
    ∀ k, k < s.nsym.toNat → s.symlist.get 0 k = (canonicalOrder s.len).getD k 0
  /-- The old table of `IsFilledTable` is the table itself: entries outside the current table have no source. -/
  table : s.status.decReady = true → IsMaxBits s.dcpl s.dmaxBits.toNat ∧
    IsFilledTable s.dmaxBits.toNat (classList s.dcpl) s.dsyms s.dt s.dt (classList s.dcpl).length ∧
    s.fill.toNat = kraft s.dmaxBits.toNat (classList s.dcpl)

/-- The window after a symbol of length `len` whose refill bits are `bs` (42_decoder.md R210). -/
def nextWindow (M w : Nat) (bs : List Bool) : Nat := (w * 2 ^ bs.length + bitsVal bs) % 2 ^ M

/-- With window `w`, and the stream bits `bs` for its refills, the decoder emits `ys` and uses up exactly `bs`; the refill is
skipped for the last symbol (42_decoder.md R210, R211). The last window is `w'`. -/
def DecodesTo (dt : Table DtEntry) (M : Nat) : List Byte → Nat → List Bool → Nat → Prop
  | [], w, bs, w' => bs = [] ∧ w' = w
  | [y], w, bs, w' =>
    (dt.get .unfilled w).v = true ∧ (dt.get .unfilled w).sym = y ∧ bs = [] ∧ w' = w
  | y :: z :: ys, w, bs, w' =>
    let e := dt.get .unfilled w
    e.v = true ∧ e.sym = y ∧ e.len.toNat ≤ bs.length ∧
      DecodesTo dt M (z :: ys) (nextWindow M w (bs.take e.len.toNat)) (bs.drop e.len.toNat) w'

/-- The code bits of a symbol, first bit first (20_memory.md R70). -/
def codeBits (code : Table (BitVec 16)) (clen : Table (BitVec 5)) (x : Byte) : List Bool :=
  bitsOf (code.get 0 x.toNat) (clen.get 0 x.toNat).toNat

/-! ## Legal words -/

/-- The rows of spec/opcode_table.json: mask and match (30_encoding.md R91, R93). -/
def opcodeRows : List (Word × Word) :=
  [(0xFFFFFFFF, 0x00000000), (0xFF000000, 0x01000000), (0xFFFFFFFF, 0x02000000), (0xFFFFFFFF, 0x03000000),
   (0xFFFFFF00, 0x10000000), (0xFFFFFF00, 0x11000000), (0xFFFFFFFF, 0x12000000), (0xFFFFFFFF, 0x13000000),
   (0xFFE00000, 0x20000000), (0xFFFFFFFF, 0x21000000), (0xFFFFFFFF, 0x22000000), (0xFFFFE000, 0x23000000),
   (0xFFFFFFFF, 0x24000000), (0xFFFF0000, 0x25000000), (0xFFFF0000, 0x26000000), (0xFFFFFFFF, 0x27000000),
   (0xFFFFFF00, 0x28000000),
   (0xFFE0FFFF, 0x30000000), (0xFFFFFFFF, 0x31000000), (0xFFFFFFFF, 0x32000000), (0xFFFFFFFF, 0x33000000),
   (0xFFFFFFFF, 0x34000000), (0xFFFFFFFF, 0x35000000)]

/-- The selectors of 43_control.md R251 with the least and greatest index of each (0 and 0 for "none"). -/
def selectorRows : List (Nat × Nat × Nat) :=
  [(0x00, 0, 0), (0x01, 0, 0), (0x02, 0, 0), (0x03, 0, 0), (0x04, 0, 0), (0x05, 0, 0),
   (0x10, 0, 255), (0x11, 0, 255), (0x12, 1, 16), (0x13, 0, 255), (0x14, 0, 0), (0x15, 0, 0),
   (0x20, 1, 16), (0x21, 0, 255), (0x22, 0, 0), (0x23, 0, 0), (0x24, 0, 65535), (0x25, 0, 0), (0x26, 0, 0), (0x27, 0, 0)]

/-- A legal command word, said from the tables (30_encoding.md R94 to R96): a row's fixed bits match, the bit count of
`BW_BITS` and `BR_BITS` is at most 16, and the selector and index of `RD` are in R251's table. -/
def LegalWord (w : Word) : Prop :=
  (∃ r ∈ opcodeRows, w &&& r.1 = r.2) ∧
  (w.extractLsb' 24 8 = 0x20 ∨ w.extractLsb' 24 8 = 0x30 → (w.extractLsb' 16 5).toNat ≤ 16) ∧
  (w.extractLsb' 24 8 = 0x01 → ∃ r ∈ selectorRows, (w.extractLsb' 16 8).toNat = r.1 ∧
    r.2.1 ≤ (w.extractLsb' 0 16).toNat ∧ (w.extractLsb' 0 16).toNat ≤ r.2.2)

/-! ## Commands by unit -/

/-- The four commands that run in the error state (60_exceptions.md R300). -/
def isControl : Instr → Bool
  | .nop | .rd _ _ | .clrErr | .softReset => true
  | .frPut _ | .frRaw _ | .frGet | .frRawget | .bwBits _ _ | .bwFlush | .encClrlen | .encSetlen _ _ | .encBuild
  | .encSetcntLo _ | .encSetcntHi _ | .encHdr | .encSym _ | .brBits _ | .decHdr | .decBuild | .decSeed | .decSym | .decRun => false

/-- The commands of the encoder path and of the code tables, which never touch the decoder side (20_memory.md R68). -/
def isEncoderSide : Instr → Bool
  | .frPut _ | .frRaw _ | .bwBits _ _ | .bwFlush | .encClrlen | .encSetlen _ _ | .encBuild | .encSetcntLo _
  | .encSetcntHi _ | .encHdr | .encSym _ => true
  | .nop | .rd _ _ | .clrErr | .softReset | .frGet | .frRawget | .brBits _ | .decHdr | .decBuild | .decSeed | .decSym
  | .decRun => false

/-- The commands of the decoder path and of the decode table (20_memory.md R68). -/
def isDecoderSide : Instr → Bool
  | .frGet | .frRawget | .brBits _ | .decHdr | .decBuild | .decSeed | .decSym | .decRun => true
  | .nop | .rd _ _ | .clrErr | .softReset | .frPut _ | .frRaw _ | .bwBits _ _ | .bwFlush | .encClrlen | .encSetlen _ _
  | .encBuild | .encSetcntLo _ | .encSetcntHi _ | .encHdr | .encSym _ => false

/-- The commands that may write `RESP` (10_state.md R31). -/
def writesResp : Instr → Bool
  | .rd _ _ | .frGet | .frRawget | .brBits _ | .decSym | .decRun => true
  | .nop | .clrErr | .softReset | .frPut _ | .frRaw _ | .bwBits _ _ | .bwFlush | .encClrlen | .encSetlen _ _ | .encBuild
  | .encSetcntLo _ | .encSetcntHi _ | .encHdr | .encSym _ | .decHdr | .decBuild | .decSeed => false

/-- `s` with everything the decoder side and the controls may write put back to what `t` has: what is left to compare is the
encoder's tables, its writer and BOUT. -/
def State.withDecoderSideOf (s t : State) : State :=
  { s with
    status := { s.status with
      err := t.status.err, errOp := t.status.errOp, hdrValid := t.status.hdrValid, decReady := t.status.decReady
      seeded := t.status.seeded, warnIncomplete := t.status.warnIncomplete }
    resp := t.resp, marker := t.marker, inPos := t.inPos, rbuf := t.rbuf, rcnt := t.rcnt, dcpl := t.dcpl
    dsyms := t.dsyms, dnsym := t.dnsym, numSym := t.numSym, dmaxBits := t.dmaxBits, dt := t.dt, fill := t.fill
    win := t.win, remain := t.remain, bin := t.bin, soutHost := t.soutHost, sout := t.sout }

/-- `s` with everything the encoder side may write put back to what `t` has. -/
def State.withEncoderSideOf (s t : State) : State :=
  { s with
    status := { s.status with
      err := t.status.err, errOp := t.status.errOp, encReady := t.status.encReady, warnLong := t.status.warnLong }
    outPos := t.outPos, wbuf := t.wbuf, wcnt := t.wcnt, len := t.len, code := t.code, clen := t.clen, cpl := t.cpl
    symlist := t.symlist, nsym := t.nsym, minBits := t.minBits, maxBits := t.maxBits, encCnt := t.encCnt
    boutHost := t.boutHost, bout := t.bout }

/-- Commands issued in order; it stops where one has no next state. -/
def execAll : List Instr → State → Host.Outcome State Fault Refusal
  | [], s => .next s
  | i :: is, s =>
    match exec i s with
    | .next t => execAll is t
    | .fault f => .fault f
    | .refused r => .refused r

/-- `DEC_SYM` issued `k` times, the host going on whatever `STATUS` says (70_reset_and_hazards.md R344). -/
def decSymTimes : Nat → State → Host.Outcome State Fault Refusal
  | 0, s => .next s
  | k + 1, s =>
    match exec .decSym s with
    | .next t => decSymTimes k t
    | .fault f => .fault f
    | .refused r => .refused r

end Sys2Proof.Machine
end

