-- ==== Sys2Proof/Certificates/Slice0/Obligations.lean ====
section
/-! DEFINITION. The statements for the provers. Each docstring names the rule of spec/ it formalises. The vocabulary (`took`,
`gave`, `failed`, `Offers`, …) is in Sys2Proof/Safety.lean. -/

open Sys2Proof Sys2Proof.Machine

/-! ## Encoding -/

/-- 30_encoding.md R91, R93: one word of each format, written out from the tables, decodes to its command. -/
def Obligations.SampleWordsDecode : Prop :=
  decode 0x00000000 = .ok .nop ∧
  decode 0x01240005 = .ok (.rd .dt 5) ∧
  decode 0x02000000 = .ok .clrErr ∧
  decode 0x100000FF = .ok (.frPut 0xFF) ∧
  decode 0x200800FF = .ok (.bwBits 8 0xFF) ∧
  decode 0x23000141 = .ok (.encSetlen 0x41 1) ∧
  decode 0x26000102 = .ok (.encSetcntHi 0x0102) ∧
  decode 0x30030000 = .ok (.brBits 3) ∧
  decode 0x35000000 = .ok .decRun

/-- Every well-formed command decodes from its own encoding, with every operand it has (R91, R92, R98). -/
def Obligations.DecodeOfEncode : Prop := ∀ i : Instr, i.WellFormed → decode (encode i) = .ok i

/-- A word that decodes is the encoding of the command it decodes to, and that command is well formed: each word has one
meaning and no bit of it is dropped (R95, R96, R98). -/
def Obligations.EncodeOfDecode : Prop := ∀ (w : Word) (i : Instr), decode w = .ok i → encode i = w ∧ i.WellFormed

/-- R94, R95, R96: exactly the words the opcode table and the value constraints allow are legal; every other word is
rejected. -/
def Obligations.DecodesExactlyTheLegalWords : Prop := ∀ w : Word, (∃ i, decode w = .ok i) ↔ LegalWord w

/-- R94: every reserved opcode is illegal, and without an error pending it raises `E_ILLEGAL` and changes nothing else. -/
def Obligations.ReservedOpcodeRaisesIllegal : Prop :=
  ∀ (s : State) (w : Word),
    (let op := (w.extractLsb' 24 8).toNat
     (0x04 ≤ op ∧ op ≤ 0x0F) ∨ (0x14 ≤ op ∧ op ≤ 0x1F) ∨ (0x29 ≤ op ∧ op ≤ 0x2F) ∨ (0x36 ≤ op ∧ op ≤ 0xFF)) →
    s.nextMove = some (.command w) → s.status.err = 0 →
    step s = .next (State.failed { s with pos := s.pos + 1 } 1 (w.extractLsb' 24 8))

/-! ## One step -/

/-- A step runs the decoded command: the host's index moves on, and the rest is `exec`. -/
def Obligations.StepRunsDecodedCommand : Prop :=
  ∀ (s : State) (w : Word) (i : Instr), s.program[s.pos]? = some (.command w) → decode w = .ok i →
    step s = exec i { s with pos := s.pos + 1 }

/-- R300, R301: without an error pending a legal command runs its rule and an illegal word raises `E_ILLEGAL` with its own
opcode byte and nothing else; in the error state the four control commands run and every other word, legal or illegal, is
dropped and changes no state. All count as one move of the host. -/
def Obligations.StepGatesByErrorState : Prop :=
  ∀ (s : State) (w : Word), s.program[s.pos]? = some (.command w) →
    let u : State := { s with pos := s.pos + 1 }
    (s.status.err = 0 →
      (∀ i, decode w = .ok i → step s = exec i u) ∧
      ((∀ i, decode w ≠ .ok i) → step s = .next (u.failed 1 (w.extractLsb' 24 8)))) ∧
    (s.status.err ≠ 0 →
      (∀ i, decode w = .ok i → isControl i = true → step s = exec i u) ∧
      ((∀ i, decode w = .ok i → isControl i = false) → step s = .next u))

/-- R340, R341: the reset input between commands puts every register and table entry to its reset value; the host's streams
and its list of moves stay. It runs in the error state too. That the reset input is a move of the host's list, and that the
index counts it, is the model's choice (log 2). -/
def Obligations.ResetInputResets : Prop :=
  ∀ s : State, s.program[s.pos]? = some .resetInput →
    step s = .next { State.reset with
      program := s.program, pos := s.pos + 1, bin := s.bin, boutHost := s.boutHost, bout := s.bout
      soutHost := s.soutHost, sout := s.sout }

/-- R21: the index of the next command is advanced by exactly one when a command completes, fails or is dropped, and no command
changes the host's list. That the index counts the reset input too is the model's choice (log 2). -/
def Obligations.PositionAdvancesByOne : Prop :=
  ∀ s t : State, step s = .next t → t.pos = s.pos + 1 ∧ t.program = s.program

/-- R271: when the host has a next move and answers every port request, the step completes; so nothing but the host stops the
block (log 5, log 6), and no command is refused. -/
def Obligations.StepCompletesWhenHostAnswers : Prop :=
  ∀ s : State, s.pos < s.program.length → s.HostAnswers → ∃ t, step s = .next t

/-- R24, R310: an error raised by a step was raised with no error pending, it is one of the codes 1 to 16, and `ERR_OP` is the
opcode byte of the word that raised it. -/
def Obligations.RaisedErrorNamesItsOpcode : Prop :=
  ∀ s t : State, step s = .next t → t.status.err ≠ 0 → t.status.err ≠ s.status.err →
    s.status.err = 0 ∧ 1 ≤ t.status.err.toNat ∧ t.status.err.toNat ≤ 16 ∧
      ∃ w, s.program[s.pos]? = some (.command w) ∧ t.status.errOp = w.extractLsb' 24 8

/-- R54, which the spec derives from the command rules: the invariants hold after reset, and every step keeps them from every
state that meets them. -/
def Obligations.StepKeepsSpecInv : Prop :=
  State.reset.SpecInv ∧ ∀ s t : State, s.SpecInv → step s = .next t → t.SpecInv

/-- R54's invariants hold after reset, and so do the table form (log 8, the model's choice) and the register rules R23, R30,
R38, R48, R49, R313. -/
def Obligations.InvariantsHoldAtReset : Prop := State.reset.SpecInv ∧ State.reset.DataInv

/-- The table form (log 8) and the register rules R23, R30, R38, R48, R49, R313 are kept by every step from every state that
meets them and R54's invariants. -/
def Obligations.StepKeepsDataInv : Prop :=
  ∀ s t : State, s.SpecInv → s.DataInv → step s = .next t → t.DataInv

/-! ## Control -/

/-- `RD sel, idx` completes with `v` in `RESP`, changes nothing else, and `v` is as `P` says. -/
def RdGives (s : State) (sel : Sel) (idx : BitVec 16) (P : Word → Prop) : Prop :=
  ∃ v, exec (.rd sel idx) s = .next { s with resp := v } ∧ P v

/-- R22, R251: `RD 0x00` gives `STATUS`, field by field, with its reserved bits 0. -/
def Obligations.RdGivesStatusLayout : Prop :=
  ∀ s : State, RdGives s .status 0 fun v =>
    v.extractLsb' 0 5 = s.status.err ∧ v.extractLsb' 5 3 = 0 ∧ v.getLsbD 8 = s.status.encReady ∧
    v.getLsbD 9 = s.status.hdrValid ∧ v.getLsbD 10 = s.status.decReady ∧ v.getLsbD 11 = s.status.seeded ∧
    v.getLsbD 12 = s.status.warnLong ∧ v.getLsbD 13 = s.status.warnIncomplete ∧ v.extractLsb' 14 2 = 0 ∧
    v.extractLsb' 16 8 = s.status.errOp ∧ v.extractLsb' 24 8 = 0

/-- R251: what `RD` gives for each other selector without an index. -/
def Obligations.RdGivesRegisters : Prop :=
  ∀ s : State,
    RdGives s .marker 0 (fun v => v.extractLsb' 0 8 = s.marker ∧ v.extractLsb' 8 24 = 0) ∧
    RdGives s .outPos 0 (fun v => v = s.outPos) ∧
    RdGives s .writer 0
      (fun v => v.extractLsb' 0 8 = s.wbuf ∧ v.extractLsb' 8 3 = s.wcnt ∧ v.extractLsb' 11 21 = 0) ∧
    RdGives s .inPos 0 (fun v => v = s.inPos) ∧
    RdGives s .reader 0
      (fun v => v.extractLsb' 0 8 = s.rbuf ∧ v.extractLsb' 8 4 = s.rcnt ∧ v.extractLsb' 12 20 = 0) ∧
    RdGives s .encSum 0
      (fun v => v.extractLsb' 0 9 = s.nsym ∧ v.extractLsb' 9 7 = 0 ∧ v.extractLsb' 16 5 = s.minBits ∧
        v.extractLsb' 21 3 = 0 ∧ v.extractLsb' 24 5 = s.maxBits ∧ v.extractLsb' 29 3 = 0) ∧
    RdGives s .encCnt 0 (fun v => v = s.encCnt) ∧
    RdGives s .decSum 0
      (fun v => v.extractLsb' 0 9 = s.dnsym ∧ v.extractLsb' 9 7 = 0 ∧ v.extractLsb' 16 5 = s.dmaxBits ∧
        v.extractLsb' 21 11 = 0) ∧
    RdGives s .numSym 0 (fun v => v = s.numSym) ∧
    RdGives s .fill 0 (fun v => v.toNat = s.fill.toNat) ∧
    RdGives s .win 0 (fun v => v.toNat = s.win.toNat) ∧
    RdGives s .remain 0 (fun v => v = s.remain)

/-- R251: what `RD` gives for each table entry, for every index in the selector's range. -/
def Obligations.RdGivesTableEntries : Prop :=
  ∀ (s : State) (idx : BitVec 16),
    (idx.toNat ≤ 255 →
      RdGives s .len idx (fun v => v.toNat = (s.len.get 0 idx.toNat).toNat) ∧
      RdGives s .code idx (fun v => v.extractLsb' 0 16 = s.code.get 0 idx.toNat ∧
        v.extractLsb' 16 5 = s.clen.get 0 idx.toNat ∧ v.extractLsb' 21 11 = 0) ∧
      RdGives s .symlist idx (fun v => v.toNat = (s.symlist.get 0 idx.toNat).toNat) ∧
      RdGives s .dsyms idx (fun v => v.toNat = (s.dsyms.get 0 idx.toNat).toNat)) ∧
    (1 ≤ idx.toNat → idx.toNat ≤ 16 →
      RdGives s .cpl idx (fun v => v.toNat = (s.cpl.get 0 idx.toNat).toNat) ∧
      RdGives s .dcpl idx (fun v => v.toNat = (s.dcpl.get 0 idx.toNat).toNat)) ∧
    RdGives s .dt idx (fun v =>
      v.extractLsb' 0 8 = (s.dt.get .unfilled idx.toNat).sym ∧ v.extractLsb' 8 5 = (s.dt.get .unfilled idx.toNat).len ∧
      v.extractLsb' 13 3 = 0 ∧ v.getLsbD 16 = (s.dt.get .unfilled idx.toNat).v ∧ v.extractLsb' 17 15 = 0)

/-- R250, R252: `NOP` changes nothing, and `CLR_ERR` clears `ERR` and `ERR_OP` and nothing else, in the error state or not. -/
def Obligations.NopAndClrErrKeepTheRest : Prop :=
  ∀ s : State, exec .nop s = .next s ∧
    exec .clrErr s = .next { s with status := { s.status with err := 0, errOp := 0 } }

/-- R253: `SOFT_RESET` puts every piece of the block's state to its reset value and has no port transaction. -/
def Obligations.SoftResetResetsBlock : Prop :=
  ∀ s : State, exec .softReset s = .next { State.reset with
    program := s.program, pos := s.pos, bin := s.bin, boutHost := s.boutHost, bout := s.bout
    soutHost := s.soutHost, sout := s.sout }

/-- R55: after reset every register and table entry reads as 0, through `RD` with every selector and index. -/
def Obligations.EverythingReadsZeroAtReset : Prop :=
  ∀ (sel : Sel) (idx : BitVec 16), (Instr.rd sel idx).WellFormed → RdGives State.reset sel idx fun v => v = 0

/-! ## Rules of the whole machine -/

/-- R31: `RESP` is written by `RD`, `FR_GET`, `FR_RAWGET`, `BR_BITS`, `DEC_SYM` and `DEC_RUN` only (`SOFT_RESET` resets it), and
a command that fails in its `require` lines leaves it too. -/
def Obligations.RespWrittenBySixCommands : Prop :=
  ∀ (i : Instr) (s t : State), writesResp i = false → i ≠ .softReset → exec i s = .next t → t.resp = s.resp

/-- R68, R351: the encoder side changes nothing of the decoder side: not the reader, BIN, SOUT, `RESP`, the parsed header or the
decode table. -/
def Obligations.EncoderSideLeavesDecoderSide : Prop :=
  ∀ (i : Instr) (s t : State), isEncoderSide i = true → exec i s = .next t → t = s.withEncoderSideOf t

/-- R68, R351: the decoder side changes nothing of the encoder side: not the writer, BOUT, or the code tables. -/
def Obligations.DecoderSideLeavesEncoderSide : Prop :=
  ∀ (i : Instr) (s t : State), isDecoderSide i = true → exec i s = .next t → t = s.withDecoderSideOf t

/-- R33, R65, R76: a command only appends to BOUT, and `OUT_POS` rises by the number of bytes appended, modulo 2^32. -/
def Obligations.OutPosCountsBoutBytes : Prop :=
  ∀ (i : Instr) (s t : State), i ≠ .softReset → exec i s = .next t →
    ∃ bs, t.bout = s.bout ++ bs ∧ t.outPos = s.outPos + BitVec.ofNat 32 bs.length

/-- R34, R64: `IN_POS` rises by the number of byte answers taken from BIN, modulo 2^32; an end-of-stream answer does not
count. -/
def Obligations.InPosCountsBinBytes : Prop :=
  ∀ (i : Instr) (s t : State), i ≠ .softReset → exec i s = .next t →
    ∃ k, t.bin = s.bin.skip k ∧
      t.inPos = s.inPos + BitVec.ofNat 32
        ((List.range k).countP fun j => decide (s.bin.nth j ≠ some .endOfStream ∧ s.bin.nth j ≠ none))

/-- R66, R76: SOUT is only appended to. -/
def Obligations.SoutOnlyGrows : Prop :=
  ∀ s t : State, step s = .next t → ∃ ys, t.sout = s.sout ++ ys ∧ t.soutHost = s.soutHost.skip ys.length

/-- R80, R27: the decode table changes by `DEC_BUILD` and reset only. -/
def Obligations.DecodeTableChangedByBuildOnly : Prop :=
  ∀ (i : Instr) (s t : State), i ≠ .decBuild → i ≠ .softReset → exec i s = .next t →
    t.dt = s.dt ∧ t.dmaxBits = s.dmaxBits ∧ t.fill = s.fill

/-- R347, which the spec derives from R25 to R27: a change of the loaded lengths clears `ENC_READY`; and a ready code table
with its counts and symbol list is that of the lengths as they are, a ready decode table that of the parsed header: this holds
after reset, and every step keeps it from every state that meets it. -/
def Obligations.LengthChangeClearsEncReady : Prop :=
  (∀ (i : Instr) (s t : State), exec i s = .next t → t.len ≠ s.len → t.status.encReady = false) ∧
  State.reset.ReadyInv ∧ ∀ s t : State, s.ReadyInv → step s = .next t → t.ReadyInv

/-! ## Framer -/

/-- R123: `FR_PUT b` puts `b` on BOUT, and a 0x00 after a 0xFF; a failed write raises `E_IO_WRITE` with the bytes before it
kept; a partial byte raises `E_SEQ` before any transaction. -/
def Obligations.FrPutRule : Prop :=
  ∀ (b : Byte) (s : State), s.status.err = 0 →
    (s.wcnt = 0 → s.boutHost.AcceptsBytes (stuffed [b]).length → exec (.frPut b) s = .next (s.gave (stuffed [b]))) ∧
    (s.wcnt = 0 → s.boutHost.FailsAfter 0 → exec (.frPut b) s = .next ((s.gaveThenRefused []).failed 6 0x10)) ∧
    (s.wcnt = 0 → b = 0xFF → s.boutHost.FailsAfter 1 →
      exec (.frPut b) s = .next ((s.gaveThenRefused [0xFF]).failed 6 0x10)) ∧
    (s.wcnt ≠ 0 → exec (.frPut b) s = .next (s.failed 3 0x10))

/-- R124: `FR_RAW b` puts `b` on BOUT without stuffing. -/
def Obligations.FrRawRule : Prop :=
  ∀ (b : Byte) (s : State), s.status.err = 0 →
    (s.wcnt = 0 → s.boutHost.AcceptsBytes 1 → exec (.frRaw b) s = .next (s.gave [b])) ∧
    (s.wcnt = 0 → s.boutHost.FailsAfter 0 → exec (.frRaw b) s = .next ((s.gaveThenRefused []).failed 6 0x11)) ∧
    (s.wcnt ≠ 0 → exec (.frRaw b) s = .next (s.failed 3 0x11))

/-- R121, R125: `FR_GET` takes one data byte through the unstuffer; a marker is consumed, kept in `MARKER` and raises
`E_MARKER`; end-of-stream raises `E_IO_READ` with the bytes before it consumed. -/
def Obligations.FrGetRule : Prop :=
  ∀ (s : State), s.status.err = 0 →
    (s.rcnt = 0 → ∀ b : Byte, b ≠ 0xFF → s.bin.Offers [b] →
      exec .frGet s = .next { s.took 1 with resp := b.setWidth 32 }) ∧
    (s.rcnt = 0 → s.bin.Offers [0xFF, 0x00] → exec .frGet s = .next { s.took 2 with resp := 0xFF }) ∧
    (s.rcnt = 0 → ∀ x : Byte, x ≠ 0x00 → s.bin.Offers [0xFF, x] →
      exec .frGet s = .next (State.failed { s.took 2 with marker := x } 8 0x12)) ∧
    (s.rcnt = 0 → s.bin.OffersThenEnds [] → exec .frGet s = .next ((s.tookToEnd 0).failed 7 0x12)) ∧
    (s.rcnt = 0 → s.bin.OffersThenEnds [0xFF] → exec .frGet s = .next ((s.tookToEnd 1).failed 7 0x12)) ∧
    (s.rcnt ≠ 0 → exec .frGet s = .next (s.failed 3 0x12))

/-- R126: `FR_RAWGET` takes one byte as it is. -/
def Obligations.FrRawgetRule : Prop :=
  ∀ (s : State), s.status.err = 0 →
    (s.rcnt = 0 → ∀ b : Byte, s.bin.Offers [b] → exec .frRawget s = .next { s.took 1 with resp := b.setWidth 32 }) ∧
    (s.rcnt = 0 → s.bin.OffersThenEnds [] → exec .frRawget s = .next ((s.tookToEnd 0).failed 7 0x13)) ∧
    (s.rcnt ≠ 0 → exec .frRawget s = .next (s.failed 3 0x13))

/-- R122, which the spec derives from R120 and R121: the stuffer and the unstuffer are inverses. Stuffing `ds` writes exactly
`stuffed ds`; a BIN that offers those bytes gives `ds` back, takes exactly them and raises nothing; no 0xFF in them is
followed by a nonzero byte; and a marker that follows them is seen as `E_MARKER`. -/
def Obligations.UnstuffInvertsStuff : Prop :=
  ∀ (ds : List Byte) (s : State),
    (s.boutHost.AcceptsBytes (stuffed ds).length → stuffMany ds s = .ok () (s.gave (stuffed ds))) ∧
    (s.bin.Offers (stuffed ds) → unstuffMany ds.length s = .ok ds (s.took (stuffed ds).length)) ∧
    (∀ k, (stuffed ds)[k]? = some (0xFF : Byte) → (stuffed ds)[k + 1]? = some (0x00 : Byte)) ∧
    (∀ x : Byte, x ≠ 0 → s.bin.Offers (stuffed ds ++ [0xFF, x]) →
      unstuffMany (ds.length + 1) s =
        .error (.raised .marker) { s.took ((stuffed ds).length + 2) with marker := x })

/-! ## Bit writer -/

/-- R150, R151, R153, R154: `BW_BITS n, v` appends bits `v[n-1]` to `v[0]` to the bits the writer holds; each group of eight
goes out through the stuffer and the rest stays in `WBUF`. Bits of `v` above `n-1` are ignored, and `n = 0` does nothing. When
the host fails a byte, the bytes before it stay, the completed byte is lost and `E_IO_WRITE` is raised. A word with `n` above 16
raises `E_ILLEGAL` and has no other effect. -/
def Obligations.BwBitsRule : Prop :=
  ∀ (n : BitVec 5) (v : BitVec 16) (s : State), s.status.err = 0 → s.SpecInv →
    (n.toNat ≤ 16 → s.boutHost.AcceptsBytes (s.bytesFor (bitsOf v n.toNat)) →
      exec (.bwBits n v) s = .next (s.wroteBits (bitsOf v n.toNat))) ∧
    (n.toNat ≤ 16 → ∀ k, k < s.bytesFor (bitsOf v n.toNat) → s.boutHost.FailsAfter k →
      exec (.bwBits n v) s = .next ((s.lostByte (bitsOf v n.toNat) k).failed 6 0x20)) ∧
    (16 < n.toNat → ∀ w : Word, w.extractLsb' 24 8 = 0x20 → w.extractLsb' 16 5 = n → s.nextMove = some (.command w) →
      step s = .next (State.failed { s with pos := s.pos + 1 } 1 0x20))

/-- R152, R155: with `WCNT = p` from 1 to 7 `BW_FLUSH` hands `WBUF OR (2^(8-p) - 1)` to the stuffer and leaves the writer
empty; with `WCNT = 0` it writes nothing. A failed byte raises `E_IO_WRITE`. -/
def Obligations.BwFlushRule : Prop :=
  ∀ (s : State), s.status.err = 0 → s.SpecInv →
    let out := stuffed [s.wbuf ||| BitVec.ofNat 8 (2 ^ (8 - s.wcnt.toNat) - 1)]
    (s.wcnt = 0 → exec .bwFlush s = .next s) ∧
    (s.wcnt ≠ 0 → s.boutHost.AcceptsBytes out.length →
      exec .bwFlush s = .next { s.gave out with wbuf := 0, wcnt := 0 }) ∧
    (s.wcnt ≠ 0 → ∀ k, k < out.length → s.boutHost.FailsAfter k →
      exec .bwFlush s = .next (State.failed { s.gaveThenRefused (out.take k) with wbuf := 0, wcnt := 0 } 6 0x21))

/-! ## Code tables and encoder -/

/-- R159: `ENC_CLRLEN` sets every `LEN[s]` to 0 and clears `ENC_READY`; nothing else changes. -/
def Obligations.EncClrlenClearsLengths : Prop :=
  ∀ s : State, s.status.err = 0 → ∃ t, exec .encClrlen s = .next t ∧
    (∀ x : Byte, t.len.get 0 x.toNat = 0) ∧
    t = { s with len := t.len, status := { s.status with encReady := false } }

/-- R160: `ENC_SETLEN sym, len` loads one length and clears `ENC_READY`; nothing else changes. -/
def Obligations.EncSetlenLoadsOneLength : Prop :=
  ∀ (sym : Byte) (len : BitVec 5) (s : State), s.status.err = 0 → ∃ t, exec (.encSetlen sym len) s = .next t ∧
    (∀ x : Byte, t.len.get 0 x.toNat = if x = sym then len else s.len.get 0 x.toNat) ∧
    t = { s with len := t.len, status := { s.status with encReady := false } }

/-- R162, R163: `ENC_SETCNT_LO` and `ENC_SETCNT_HI` load one half of `ENC_CNT` and keep the other; nothing else changes. -/
def Obligations.EncSetcntLoadsHalves : Prop :=
  ∀ (imm : BitVec 16) (s : State), s.status.err = 0 →
    (∃ c, exec (.encSetcntLo imm) s = .next { s with encCnt := c } ∧
      c.extractLsb' 0 16 = imm ∧ c.extractLsb' 16 16 = s.encCnt.extractLsb' 16 16) ∧
    (∃ c, exec (.encSetcntHi imm) s = .next { s with encCnt := c } ∧
      c.extractLsb' 16 16 = imm ∧ c.extractLsb' 0 16 = s.encCnt.extractLsb' 0 16)

/-- R156, R158, R161, with the code said as R157 (b), (c) derives it: with some coded symbol and lengths that keep the Kraft
inequality, `ENC_BUILD` installs the canonical code, its counts, its symbol list in canonical order, its least and greatest
length, and sets `ENC_READY` and `WARN_LONG`; nothing else changes. -/
def Obligations.EncBuildInstallsCanonicalCode : Prop :=
  ∀ s : State, s.status.err = 0 → (∃ x, Coded s.len x) →
    kraft 16 ((canonicalOrder s.len).map (lenOf s.len)) ≤ 2 ^ 16 →
    ∃ t, exec .encBuild s = .next t ∧
      IsCanonicalCode s.len t.code t.clen ∧
      (∀ L, 1 ≤ L → L ≤ 16 → (t.cpl.get 0 L).toNat = (canonicalOrder s.len).countP fun x => decide (lenOf s.len x = L)) ∧
      t.nsym.toNat = (canonicalOrder s.len).length ∧
      (∀ k, k < (canonicalOrder s.len).length → t.symlist.get 0 k = (canonicalOrder s.len).getD k 0) ∧
      (∀ k, (canonicalOrder s.len).length ≤ k → t.symlist.get 0 k = s.symlist.get 0 k) ∧
      (∃ x, Coded s.len x ∧ lenOf s.len x = t.minBits.toNat) ∧ (∃ x, Coded s.len x ∧ lenOf s.len x = t.maxBits.toNat) ∧
      (∀ x, Coded s.len x → t.minBits.toNat ≤ lenOf s.len x ∧ lenOf s.len x ≤ t.maxBits.toNat) ∧
      ((∃ x, 17 ≤ lenOf s.len x) ↔ t.status.warnLong = true) ∧
      t = { s with
        code := t.code, clen := t.clen, cpl := t.cpl, symlist := t.symlist, nsym := t.nsym, minBits := t.minBits
        maxBits := t.maxBits, status := { s.status with warnLong := t.status.warnLong, encReady := true } }

/-- R29, R156, R157 (b), R161: `ENC_BUILD` raises `E_NO_SYMBOLS` when no symbol is coded and `E_OVERSUB` when the lengths break
the Kraft inequality; it keeps the old code table and clears `ENC_READY`, and `WARN_LONG` is written all the same. -/
def Obligations.EncBuildRefusesBadLengths : Prop :=
  ∀ (s : State) (warn : Bool), s.status.err = 0 → ((∃ x, 17 ≤ lenOf s.len x) ↔ warn = true) →
    ((∀ x, ¬Coded s.len x) → exec .encBuild s = .next (State.failed
      { s with status := { s.status with warnLong := warn, encReady := false } } 4 0x24)) ∧
    (2 ^ 16 < kraft 16 ((canonicalOrder s.len).map (lenOf s.len)) → exec .encBuild s = .next (State.failed
      { s with status := { s.status with warnLong := warn, encReady := false } } 5 0x24))

/-- R157 (b), which the spec derives from R156: the codes of a successful `ENC_BUILD` are prefix-free. -/
def Obligations.BuiltCodeIsPrefixFree : Prop :=
  ∀ s t : State, s.status.err = 0 → exec .encBuild s = .next t → t.status.err = 0 →
    ∀ x y : Byte, x ≠ y → t.clen.get 0 x.toNat ≠ 0 → t.clen.get 0 y.toNat ≠ 0 →
      ¬(codeBits t.code t.clen x <+: codeBits t.code t.clen y)

/-- The bytes of R164, written out. -/
def headerBytes (s : State) : List Byte :=
  [0xFF, 0xC4, BitVec.ofNat 8 ((19 + s.nsym.toNat) / 256), BitVec.ofNat 8 ((19 + s.nsym.toNat) % 256), 0x00] ++
  ([1, 2, 3, 4, 5, 6, 7, 8, 9, 10, 11, 12, 13, 14, 15, 16].map fun L => (s.cpl.get 0 L).setWidth 8) ++
  ((List.range s.nsym.toNat).map fun k => s.symlist.get 0 k) ++
  ([24, 16, 8, 0].map fun k => BitVec.ofNat 8 (s.encCnt.toNat / 2 ^ k))

/-- R164, R165: `ENC_HDR` writes the header raw. It raises `E_NOT_READY`, then `E_SEQ`, then `E_CPL_OVERFLOW`, each before any
byte; a failed write keeps the bytes before it. -/
def Obligations.EncHdrRule : Prop :=
  ∀ s : State, s.status.err = 0 →
    (s.status.encReady = false → exec .encHdr s = .next (s.failed 2 0x27)) ∧
    (s.status.encReady = true → s.wcnt ≠ 0 → exec .encHdr s = .next (s.failed 3 0x27)) ∧
    (s.status.encReady = true → s.wcnt = 0 → (∃ L, 1 ≤ L ∧ L ≤ 16 ∧ 255 < (s.cpl.get 0 L).toNat) →
      exec .encHdr s = .next (s.failed 16 0x27)) ∧
    (s.status.encReady = true → s.wcnt = 0 → (∀ L, 1 ≤ L → L ≤ 16 → (s.cpl.get 0 L).toNat ≤ 255) →
      (s.boutHost.AcceptsBytes (headerBytes s).length → exec .encHdr s = .next (s.gave (headerBytes s))) ∧
      (∀ k, k < (headerBytes s).length → s.boutHost.FailsAfter k →
        exec .encHdr s = .next ((s.gaveThenRefused ((headerBytes s).take k)).failed 6 0x27)))

/-- R166: `ENC_SYM sym` writes the `CLEN[sym]` bits of the symbol's code; `E_NOT_READY` without a code table, and `E_NO_CODE`
for a symbol without a code, before any bit. -/
def Obligations.EncSymRule : Prop :=
  ∀ (sym : Byte) (s : State), s.status.err = 0 → s.SpecInv →
    (s.status.encReady = false → exec (.encSym sym) s = .next (s.failed 2 0x28)) ∧
    (s.status.encReady = true → s.clen.get 0 sym.toNat = 0 → exec (.encSym sym) s = .next (s.failed 15 0x28)) ∧
    (s.status.encReady = true → s.clen.get 0 sym.toNat ≠ 0 →
      s.boutHost.AcceptsBytes (s.bytesFor (codeBits s.code s.clen sym)) →
      exec (.encSym sym) s = .next (s.wroteBits (codeBits s.code s.clen sym))) ∧
    (s.status.encReady = true → s.clen.get 0 sym.toNat ≠ 0 →
      ∀ k, k < s.bytesFor (codeBits s.code s.clen sym) → s.boutHost.FailsAfter k →
      exec (.encSym sym) s = .next ((s.lostByte (codeBits s.code s.clen sym) k).failed 6 0x28))

/-! ## Bit reader and decoder -/

/-- R200 to R203: `BR_BITS n` returns the next `n` bits of the unstuffed stream, the first in the most significant place, and
takes a data byte only when its buffer is used up. On end-of-stream or a marker it raises `E_IO_READ` or `E_MARKER`: the bits
read before are lost and `RESP` is unchanged. A word with `n` above 16 raises `E_ILLEGAL` and has no other effect. -/
def Obligations.BrBitsRule : Prop :=
  ∀ (n : BitVec 5) (s : State) (ds : List Byte), s.status.err = 0 → s.SpecInv →
    (n.toNat ≤ 16 → ds.length = s.dataNeeded n.toNat → s.bin.Offers (stuffed ds) →
      exec (.brBits n) s =
        .next { s.readBitsOf n.toNat ds with resp := BitVec.ofNat 32 (bitsVal (s.readOf n.toNat ds)) }) ∧
    (n.toNat ≤ 16 → ∀ u code, s.ReaderStops n.toNat ds u code →
      exec (.brBits n) s = .next (u.failed code 0x30)) ∧
    (16 < n.toNat → ∀ w : Word, w.extractLsb' 24 8 = 0x30 → w.extractLsb' 16 5 = n → s.nextMove = some (.command w) →
      step s = .next (State.failed { s with pos := s.pos + 1 } 1 0x30))

/-- The bytes of a header with the given counts, symbols and symbol count (R164, R205). -/
def headerOf (counts syms : List Byte) (n : BitVec 32) : List Byte :=
  [0xFF, 0xC4, BitVec.ofNat 8 ((19 + syms.length) / 256), BitVec.ofNat 8 ((19 + syms.length) % 256), 0x00] ++
  counts ++ syms ++ ([24, 16, 8, 0].map fun k => BitVec.ofNat 8 (n.toNat / 2 ^ k))

/-- R204, R205: `DEC_HDR` parses a header whose 16 counts sum to its number of symbols, at most 256: it takes exactly its bytes,
writes the parsed fields, sets `HDR_VALID` and clears `DEC_READY` and `SEEDED`; nothing else changes. -/
def Obligations.DecHdrParsesHeader : Prop :=
  ∀ (s : State) (counts syms : List Byte) (n : BitVec 32), s.status.err = 0 → s.rcnt = 0 →
    counts.length = 16 → (counts.map BitVec.toNat).sum = syms.length → syms.length ≤ 256 →
    s.bin.Offers (headerOf counts syms n) →
    ∃ t, exec .decHdr s = .next t ∧
      (∀ L, 1 ≤ L → L ≤ 16 → t.dcpl.get 0 L = counts.getD (L - 1) 0) ∧
      (∀ k, k < syms.length → t.dsyms.get 0 k = syms.getD k 0) ∧
      (∀ k, syms.length ≤ k → t.dsyms.get 0 k = s.dsyms.get 0 k) ∧
      t.dnsym.toNat = syms.length ∧ t.numSym = n ∧
      t = { s.took (25 + syms.length) with
        dcpl := t.dcpl, dsyms := t.dsyms, dnsym := t.dnsym, numSym := t.numSym
        status := { s.status with hdrValid := true, decReady := false, seeded := false } }

/-- R204, R205, R303: the header checks, in the source's order, after the 21 fixed bytes `h` are read. The parsed fields keep
their old values, and `HDR_VALID`, `DEC_READY` and `SEEDED` are 0. -/
def Obligations.DecHdrRejectsInOrder : Prop :=
  ∀ (s : State) (h : List Byte), s.status.err = 0 → s.rcnt = 0 → h.length = 21 → s.bin.Offers h →
    let u : State :=
      { s.took 21 with status := { s.status with hdrValid := false, decReady := false, seeded := false } }
    let marker := h.getD 0 0 = 0xFF ∧ h.getD 1 0 = 0xC4
    let seglen := (h.getD 2 0).toNat * 256 + (h.getD 3 0).toNat
    let total := ((h.drop 5).map BitVec.toNat).sum
    (¬marker → exec .decHdr s = .next (u.failed 9 0x31)) ∧
    (marker → ¬(19 ≤ seglen ∧ seglen ≤ 275) → exec .decHdr s = .next (u.failed 10 0x31)) ∧
    (marker → 19 ≤ seglen → seglen ≤ 275 → h.getD 4 0 ≠ 0 → exec .decHdr s = .next (u.failed 11 0x31)) ∧
    (marker → 19 ≤ seglen → seglen ≤ 275 → h.getD 4 0 = 0 → 19 + total ≠ seglen →
      exec .decHdr s = .next (u.failed 12 0x31))

/-- R205, R345: `DEC_HDR` raises `E_SEQ` when the reader holds bits, before any byte is taken; and `E_IO_READ` when BIN ends
anywhere in the 21 fixed bytes, good or bad, since no check comes before they are read (R204), or later in a header that is
good so far. The bytes before the end are consumed and the parsed fields kept. -/
def Obligations.DecHdrShortOrMisaligned : Prop :=
  ∀ (s : State), s.status.err = 0 →
    let short := fun k : Nat => State.failed
      { s.tookToEnd k with status := { s.status with hdrValid := false, decReady := false, seeded := false } } 7 0x31
    (s.rcnt ≠ 0 → exec .decHdr s = .next (s.failed 3 0x31)) ∧
    (∀ bs : List Byte, s.rcnt = 0 → bs.length < 21 → s.bin.OffersThenEnds bs →
      exec .decHdr s = .next (short bs.length)) ∧
    (∀ (counts syms : List Byte) (n : BitVec 32) (k : Nat), s.rcnt = 0 →
      counts.length = 16 → (counts.map BitVec.toNat).sum = syms.length → syms.length ≤ 256 →
      k < 25 + syms.length → s.bin.OffersThenEnds ((headerOf counts syms n).take k) →
      exec .decHdr s = .next (short k))

/-- R206, R207, R208: when the counts keep the Kraft inequality `DEC_BUILD` fills the decode table symbol by symbol, leaves the
rest of its `2^M` slots unfilled and the slots above untouched, and sets `DEC_READY`, `FILL`, `DMAX_BITS` and
`WARN_INCOMPLETE`; nothing else changes. -/
def Obligations.DecBuildFillsTable : Prop :=
  ∀ (s : State) (M : Nat), s.status.err = 0 → s.status.hdrValid = true → IsMaxBits s.dcpl M →
    kraft M (classList s.dcpl) ≤ 2 ^ M →
    ∃ t, exec .decBuild s = .next t ∧
      IsFilledTable M (classList s.dcpl) s.dsyms s.dt t.dt (classList s.dcpl).length ∧
      t = { s with
        dmaxBits := BitVec.ofNat 5 M, dt := t.dt, fill := BitVec.ofNat 17 (kraft M (classList s.dcpl))
        status := { s.status with
          decReady := true, seeded := false, warnIncomplete := decide (kraft M (classList s.dcpl) ≠ 2 ^ M) } }

/-- R207, R208: when the counts break the Kraft inequality `DEC_BUILD` raises `E_OVERLAP` at the first symbol that would pass
`2^M`: the slots before it stay filled, `FILL` is the cursor there, and `DEC_READY` is 0. -/
def Obligations.DecBuildOverlapStops : Prop :=
  ∀ (s : State) (M : Nat), s.status.err = 0 → s.status.hdrValid = true → IsMaxBits s.dcpl M →
    2 ^ M < kraft M (classList s.dcpl) →
    ∃ t n, exec .decBuild s = .next t ∧ n < (classList s.dcpl).length ∧
      slotStart M (classList s.dcpl) n ≤ 2 ^ M ∧ 2 ^ M < slotStart M (classList s.dcpl) (n + 1) ∧
      IsFilledTable M (classList s.dcpl) s.dsyms s.dt t.dt n ∧
      t = State.failed { s with
        dmaxBits := BitVec.ofNat 5 M, dt := t.dt, fill := BitVec.ofNat 17 (slotStart M (classList s.dcpl) n)
        status := { s.status with decReady := false, seeded := false, warnIncomplete := false } } 13 0x32

/-- R302: a failed `require` line raises `E_NOT_READY` (2) or `E_SEQ` (3) and changes nothing else; it comes before every other
check and every transaction of the command. -/
def Obligations.FailedRequireChangesOnlyStatus : Prop :=
  ∀ (s : State) (b : Byte), s.status.err = 0 →
    (s.wcnt ≠ 0 → exec (.frPut b) s = .next (s.failed 3 0x10) ∧ exec (.frRaw b) s = .next (s.failed 3 0x11)) ∧
    (s.rcnt ≠ 0 → exec .frGet s = .next (s.failed 3 0x12) ∧ exec .frRawget s = .next (s.failed 3 0x13) ∧
      exec .decHdr s = .next (s.failed 3 0x31)) ∧
    (s.status.encReady = false → exec .encHdr s = .next (s.failed 2 0x27) ∧
      exec (.encSym b) s = .next (s.failed 2 0x28)) ∧
    (s.status.encReady = true → s.wcnt ≠ 0 → exec .encHdr s = .next (s.failed 3 0x27)) ∧
    (s.status.hdrValid = false → exec .decBuild s = .next (s.failed 2 0x32)) ∧
    (s.status.decReady = false → exec .decSeed s = .next (s.failed 2 0x33) ∧ exec .decRun s = .next (s.failed 2 0x35)) ∧
    (s.status.seeded = false → exec .decSym s = .next (s.failed 2 0x34)) ∧
    (s.status.seeded = true → s.remain = 0 → exec .decSym s = .next (s.failed 3 0x34))

/-- R209: `DEC_SEED` reads `DMAX_BITS` bits into the window and sets `REMAIN` and `SEEDED`; on end-of-stream or a marker it
raises the reader's error with `SEEDED = 0`, `REMAIN = NUM_SYM` and the window unchanged; without a table it raises
`E_NOT_READY`. -/
def Obligations.DecSeedRule : Prop :=
  ∀ (s : State) (ds : List Byte), s.status.err = 0 → s.SpecInv →
    (s.status.decReady = false → exec .decSeed s = .next (s.failed 2 0x33)) ∧
    (s.status.decReady = true → ds.length = s.dataNeeded s.dmaxBits.toNat → s.bin.Offers (stuffed ds) →
      exec .decSeed s = .next { s.readBitsOf s.dmaxBits.toNat ds with
        win := BitVec.ofNat 16 (bitsVal (s.readOf s.dmaxBits.toNat ds)), remain := s.numSym
        status := { s.status with seeded := true } }) ∧
    (s.status.decReady = true → ∀ u code, s.ReaderStops s.dmaxBits.toNat ds u code →
      exec .decSeed s = .next (State.failed
        { u with remain := s.numSym, status := { s.status with seeded := false } } code 0x33))

/-- R210: `DEC_SYM` emits the symbol of the slot its window addresses and refills the window, but not after the last symbol. An
unfilled slot raises `E_EMPTY_SLOT`, no symbol left `E_SEQ` and no seeded window `E_NOT_READY`, before anything is emitted;
end-of-stream or a marker in the refill raises the reader's error after the symbol was emitted and `REMAIN` lowered. -/
def Obligations.DecSymRule : Prop :=
  ∀ (s : State) (ds : List Byte), s.status.err = 0 → s.SpecInv → s.DataInv →
    let e := s.dt.get .unfilled s.win.toNat
    (s.status.seeded = false → exec .decSym s = .next (s.failed 2 0x34)) ∧
    (s.status.seeded = true → s.remain = 0 → exec .decSym s = .next (s.failed 3 0x34)) ∧
    (s.status.seeded = true → s.remain ≠ 0 → e.v = false → exec .decSym s = .next (s.failed 14 0x34)) ∧
    (s.status.seeded = true → s.remain = 1 → e.v = true → s.soutHost.AcceptsSymbols 1 →
      exec .decSym s = .next { s.emitted [e.sym] with resp := e.sym.setWidth 32, remain := 0 }) ∧
    (s.status.seeded = true → 1 < s.remain.toNat → e.v = true → s.soutHost.AcceptsSymbols 1 →
      ds.length = s.dataNeeded e.len.toNat → s.bin.Offers (stuffed ds) →
      exec .decSym s = .next { (s.readBitsOf e.len.toNat ds).emitted [e.sym] with
        resp := e.sym.setWidth 32, remain := s.remain - 1
        win := BitVec.ofNat 16 (nextWindow s.dmaxBits.toNat s.win.toNat (s.readOf e.len.toNat ds)) }) ∧
    (s.status.seeded = true → 1 < s.remain.toNat → e.v = true → s.soutHost.AcceptsSymbols 1 →
      ∀ u code, s.ReaderStops e.len.toNat ds u code →
      exec .decSym s = .next (State.failed
        { u.emitted [e.sym] with resp := e.sym.setWidth 32, remain := s.remain - 1 } code 0x34))

/-- R211, and R212, which the spec derives: when the `T` bits that BIN and the buffer give decode to `ys` (`DecodesTo` says
how), `DEC_RUN` emits exactly `ys`, reads exactly those `T` bits, and ends with `REMAIN = 0`. `NUM_SYM = 0` is the case `ys =
[]`. -/
def Obligations.DecRunDecodesStream : Prop :=
  ∀ (s : State) (ys ds : List Byte) (T w : Nat), s.status.err = 0 → s.status.decReady = true → s.SpecInv → s.DataInv →
    s.numSym.toNat = ys.length → s.soutHost.AcceptsSymbols ys.length →
    s.dmaxBits.toNat ≤ T → ds.length = s.dataNeeded T → s.bin.Offers (stuffed ds) →
    DecodesTo s.dt s.dmaxBits.toNat ys (bitsVal ((s.readOf T ds).take s.dmaxBits.toNat))
      ((s.readOf T ds).drop s.dmaxBits.toNat) w →
    exec .decRun s = .next { (s.readBitsOf T ds).emitted ys with
      win := BitVec.ofNat 16 w, remain := 0, resp := (ys.map fun y => y.setWidth 32).getLastD s.resp
      status := { s.status with seeded := true } }

/-- R211, and R344, which the spec derives: `DEC_RUN` is `DEC_SEED` followed by `DEC_SYM` issued `NUM_SYM` times, with the
same final state whatever goes wrong on the way, but that an error is recorded with `DEC_RUN`'s own opcode byte. -/
def Obligations.DecRunIsSeedThenSyms : Prop :=
  ∀ s : State, s.status.err = 0 →
    exec .decRun s =
      match (match exec .decSeed s with
        | .next t => decSymTimes s.numSym.toNat t
        | other => other) with
      | .next t => .next (if t.status.err = 0 then t else { t with status := { t.status with errOp := 0x35 } })
      | other => other

/-! ## A silent host -/

/-- R64, R65, R66, R271: a request that the host never answers has no step, whichever command makes it and whatever it did
before: on BIN for the reader (`ReaderWaits`), the framer and `DEC_HDR`, on BOUT for the writer, the framer and `ENC_HDR`, on
SOUT for `DEC_SYM`; and `DEC_RUN` stalls wherever `DEC_SEED` or one of the `DEC_SYM` it consists of does. That such a command
ends in a named fault is the model's reading (log 5). -/
def Obligations.UnansweredRequestHasNoStep : Prop :=
  ∀ (s : State), s.status.err = 0 →
    let e := s.dt.get .unfilled (s.win.toNat % 2 ^ s.dmaxBits.toNat)
    -- BIN
    (s.rcnt = 0 → s.bin.nth 0 = none → exec .frRawget s = .fault .binStalled) ∧
    (s.rcnt = 0 → s.bin.nth 0 = none ∨ s.bin.OffersThenSilent [0xFF] → exec .frGet s = .fault .binStalled) ∧
    (s.rcnt = 0 → ∀ bs : List Byte, bs.length < 21 → s.bin.OffersThenSilent bs → exec .decHdr s = .fault .binStalled) ∧
    (s.rcnt = 0 → ∀ (counts syms : List Byte) (n : BitVec 32) (k : Nat),
      counts.length = 16 → (counts.map BitVec.toNat).sum = syms.length → syms.length ≤ 256 → k < 25 + syms.length →
      s.bin.OffersThenSilent ((headerOf counts syms n).take k) → exec .decHdr s = .fault .binStalled) ∧
    (∀ (n : BitVec 5) (ds : List Byte), n.toNat ≤ 16 → s.ReaderWaits n.toNat ds →
      exec (.brBits n) s = .fault .binStalled) ∧
    (s.status.decReady = true → ∀ ds, s.ReaderWaits s.dmaxBits.toNat ds →
      exec .decSeed s = .fault .binStalled ∧ exec .decRun s = .fault .binStalled) ∧
    (s.status.seeded = true → 1 < s.remain.toNat → e.v = true → s.soutHost.AcceptsSymbols 1 →
      ∀ ds, s.ReaderWaits e.len.toNat ds → exec .decSym s = .fault .binStalled) ∧
    -- BOUT
    (s.wcnt = 0 → s.boutHost.nth 0 = none → ∀ b, exec (.frRaw b) s = .fault .boutStalled) ∧
    (s.wcnt = 0 → ∀ b k, k < (stuffed [b]).length → s.boutHost.SilentAfter k →
      exec (.frPut b) s = .fault .boutStalled) ∧
    (∀ (n : BitVec 5) (v : BitVec 16) (k : Nat), n.toNat ≤ 16 → k < s.bytesFor (bitsOf v n.toNat) →
      s.boutHost.SilentAfter k → exec (.bwBits n v) s = .fault .boutStalled) ∧
    (s.wcnt ≠ 0 → ∀ k, k < (stuffed [s.wbuf ||| BitVec.ofNat 8 (2 ^ (8 - s.wcnt.toNat) - 1)]).length →
      s.boutHost.SilentAfter k → exec .bwFlush s = .fault .boutStalled) ∧
    (s.status.encReady = true → ∀ sym : Byte, s.clen.get 0 sym.toNat ≠ 0 →
      ∀ k, k < s.bytesFor (codeBits s.code s.clen sym) → s.boutHost.SilentAfter k →
      exec (.encSym sym) s = .fault .boutStalled) ∧
    (s.status.encReady = true → s.wcnt = 0 → (∀ L, 1 ≤ L → L ≤ 16 → (s.cpl.get 0 L).toNat ≤ 255) →
      ∀ k, k < (headerBytes s).length → s.boutHost.SilentAfter k → exec .encHdr s = .fault .boutStalled) ∧
    -- SOUT
    (s.status.seeded = true → s.remain ≠ 0 → e.v = true → s.soutHost.nth 0 = none →
      exec .decSym s = .fault .soutStalled) ∧
    -- inside DEC_RUN
    (∀ t k u f, exec .decSeed s = .next t → decSymTimes k t = .next u → u.status.err = 0 →
      exec .decSym u = .fault f → exec .decRun s = .fault f)

/-! ## Encoder and decoder together -/

/-- The decoder state `u` holds the parsed header of the code table of `t` (what R213 says `DEC_HDR` gives). -/
def HoldsHeaderOf (u t : State) : Prop :=
  u.status.err = 0 ∧ u.status.hdrValid = true ∧
  (∀ L, 1 ≤ L → L ≤ 16 → (u.dcpl.get 0 L).toNat = (t.cpl.get 0 L).toNat) ∧
  (∀ k, k < t.nsym.toNat → u.dsyms.get 0 k = t.symlist.get 0 k)

/-- R157 (c), R213, which the spec derives: the table `DEC_BUILD` makes from the header of a built code gives every symbol
exactly the slots whose top bits are its canonical code. -/
def Obligations.DecodeTableInvertsCode : Prop :=
  ∀ s t u : State, s.status.err = 0 → exec .encBuild s = .next t → t.status.err = 0 → HoldsHeaderOf u t →
    ∃ v, exec .decBuild u = .next v ∧ v.status.decReady = true ∧ v.status.err = 0 ∧ v.dmaxBits = t.maxBits ∧
      ∀ x : Byte, t.clen.get 0 x.toNat ≠ 0 → ∀ slot,
        (v.dt.get .unfilled slot = ⟨true, t.clen.get 0 x.toNat, x⟩ ∧ slot < 2 ^ t.maxBits.toNat →
          slot / 2 ^ (t.maxBits.toNat - (t.clen.get 0 x.toNat).toNat) = (t.code.get 0 x.toNat).toNat) ∧
        (slot / 2 ^ (t.maxBits.toNat - (t.clen.get 0 x.toNat).toNat) = (t.code.get 0 x.toNat).toNat →
          v.dt.get .unfilled slot = ⟨true, t.clen.get 0 x.toNat, x⟩)

/-- R212, R213, which the spec derives: decode inverts encode. Take the code bits of the symbols `xs` and padding bits `pad`
of which there are at least `M - L_n`. Then the table built from the code's header decodes exactly `xs`, and uses `M` bits and
the lengths of all symbols but the last. -/
def Obligations.DecodeInvertsEncode : Prop :=
  ∀ s t u v : State, s.status.err = 0 → exec .encBuild s = .next t → t.status.err = 0 → HoldsHeaderOf u t →
    exec .decBuild u = .next v →
    ∀ (xs : List Byte) (x : Byte) (pad : List Bool), (∀ y ∈ xs ++ [x], t.clen.get 0 y.toNat ≠ 0) →
      t.maxBits.toNat ≤ pad.length + (t.clen.get 0 x.toNat).toNat →
      let bits := (xs ++ [x]).flatMap (codeBits t.code t.clen) ++ pad
      let used := (xs.map fun y => (t.clen.get 0 y.toNat).toNat).sum
      ∃ w, DecodesTo v.dt t.maxBits.toNat (xs ++ [x]) (bitsVal (bits.take t.maxBits.toNat))
        ((bits.drop t.maxBits.toNat).take used) w

/-- The file of the symbols `xs` under the code of `t`: the header, then the stuffed, padded payload (R153, R279). -/
def fileBytes (t : State) (xs : List Byte) : List Byte :=
  headerBytes t ++ stuffed (paddedBytes (xs.flatMap (codeBits t.code t.clen)))

/-- R279, and R153, R343, which the spec derives: from a built code table and an empty writer, `ENC_HDR`, one `ENC_SYM` for
each symbol and `BW_FLUSH` put exactly the file on BOUT, leave the writer empty, and change nothing else. -/
def Obligations.EncodeSequenceWritesFile : Prop :=
  ∀ (s : State) (xs : List Byte), s.status.err = 0 → s.SpecInv → s.status.encReady = true → s.wcnt = 0 →
    (∀ L, 1 ≤ L → L ≤ 16 → (s.cpl.get 0 L).toNat ≤ 255) → (∀ x ∈ xs, s.clen.get 0 x.toNat ≠ 0) →
    s.boutHost.AcceptsBytes (fileBytes s xs).length →
    execAll (.encHdr :: xs.map .encSym ++ [.bwFlush]) s = .next (s.gave (fileBytes s xs))

/-- R212, R213, which the spec derives: a block that is offered the file of a built code and of the symbols `xs ++ [x]`, with
the data bytes `extra` after it, decodes exactly these symbols by `DEC_HDR`, `DEC_BUILD`, `DEC_RUN` when the padding and the
extra bytes give the `M - L_n` bits of lookahead. The parsed counts and symbols are the encoder's. -/
def Obligations.RoundTrip : Prop :=
  ∀ (s t u : State) (xs : List Byte) (x : Byte) (extra : List Byte),
    s.status.err = 0 → exec .encBuild s = .next t → t.status.err = 0 →
    (∀ L, 1 ≤ L → L ≤ 16 → (t.cpl.get 0 L).toNat ≤ 255) → (∀ y ∈ xs ++ [x], t.clen.get 0 y.toNat ≠ 0) →
    t.encCnt.toNat = xs.length + 1 →
    u.status.err = 0 → u.rcnt = 0 → u.SpecInv → u.DataInv →
    u.bin.Offers (fileBytes t (xs ++ [x]) ++ stuffed extra) → u.soutHost.AcceptsSymbols (xs.length + 1) →
    (let bits := ((xs ++ [x]).flatMap (codeBits t.code t.clen)).length
     t.maxBits.toNat ≤ (t.clen.get 0 x.toNat).toNat + (8 - bits % 8) % 8 + 8 * extra.length) →
    ∃ v, execAll [.decHdr, .decBuild, .decRun] u = .next v ∧
      v.status.err = 0 ∧ v.remain = 0 ∧ v.sout = u.sout ++ (xs ++ [x]) ∧
      (∀ L, 1 ≤ L → L ≤ 16 → (v.dcpl.get 0 L).toNat = (t.cpl.get 0 L).toNat) ∧
      (∀ k, k < t.nsym.toNat → v.dsyms.get 0 k = t.symlist.get 0 k)

/-! ## Host-side reference functions -/

/-- R273 to R277, and R278, which the spec derives: for both placements of the merged node, the builder fails exactly when
every frequency is 0; it gives each symbol that occurs one length; a single symbol gets length 1; and with two or more symbols
the Kraft sum is exactly 1. -/
def Obligations.TreeLengthsAreComplete : Prop :=
  ∀ (p : Placement) (freq : List Nat),
    let used := allSymbols.filter fun x => decide (0 < freq.getD x.toNat 0)
    (codeLengths p freq = none ↔ used = []) ∧
    (∀ ls, codeLengths p freq = some ls →
      (ls.map Prod.fst).Perm used ∧
      (used.length = 1 → ls.map Prod.snd = [1]) ∧
      (2 ≤ used.length → (ls.map fun x => (1 / 2 ^ x.2 : ℚ)).sum = 1))
end

