-- ==== Sys2Proof/Laws/Table.lean ====
section
/-! SUPPORT. The laws of the run-length tables: what each operation does to every entry, and that each keeps the canonical form
and the size. The definitions are not unfolded outside this file. -/

namespace Sys2Proof.Machine

variable {α : Type} {d a : α} {t r : Table α}

/-! ## Reading -/

@[simp] theorem Table.get_nil (d : α) (i : Nat) : Table.get d [] i = d := rfl

theorem Table.get_cons (d : α) (n : Nat) (a : α) (t : Table α) (i : Nat) :
    Table.get d ((n, a) :: t) i = if i < n then a else Table.get d t (i - n) := rfl

theorem Table.get_push [DecidableEq α] (d : α) (n : Nat) (a : α) (t : Table α) (i : Nat) :
    Table.get d (Table.push d n a t) i = if i < n then a else Table.get d t (i - n) := by
  unfold Table.push
  split
  · simp_all
  · cases t with
    | nil => by_cases h : a = d <;> simp [h, Table.get_cons]
    | cons p r =>
      obtain ⟨m, b⟩ := p
      by_cases h : a = b
      · simp only [h, if_true, Table.get_cons]
        by_cases h1 : i < n
        · simp [h1, Nat.lt_add_right m h1]
        · by_cases h2 : i - n < m
          · simp [h1, h2, show i < n + m by omega]
          · simp [h1, h2, show ¬i < n + m by omega, Nat.sub_sub]
      · simp only [h, if_false, Table.get_cons]

theorem Table.get_splice [DecidableEq α] (d : α) (t : Table α) (k : Nat) (r : Table α) (i : Nat) :
    Table.get d (Table.splice d t k r) i = if i < k then Table.get d t i else Table.get d r (i - k) := by
  induction t generalizing k i with
  | nil => simp [Table.splice, Table.get_push]
  | cons p t ih =>
    obtain ⟨n, a⟩ := p
    simp only [Table.splice, Table.get_cons]
    by_cases h : k ≤ n
    · by_cases h1 : i < k
      · simp [h, Table.get_push, h1, show i < n by omega]
      · simp [h, Table.get_push, h1]
    · simp only [h, if_false, Table.get_push, ih]
      by_cases h1 : i < n
      · simp [h1, show i < k by omega]
      · by_cases h2 : i < k
        · simp [h1, h2, show i - n < k - n by omega]
        · simp [h1, h2, show ¬i - n < k - n by omega, show i - n - (k - n) = i - k by omega]

theorem Table.get_drop (d : α) (t : Table α) (k i : Nat) : Table.get d (Table.drop t k) i = Table.get d t (i + k) := by
  induction t generalizing k with
  | nil => simp [Table.drop]
  | cons p t ih =>
    obtain ⟨n, a⟩ := p
    simp only [Table.drop, Table.get_cons]
    by_cases h : k < n
    · simp only [h, if_true, Table.get_cons]
      by_cases h1 : i < n - k
      · simp [h1, show i + k < n by omega]
      · simp [h1, show ¬i + k < n by omega, show i - (n - k) = i + k - n by omega]
    · simp [h, ih, show ¬i + k < n by omega, show i + (k - n) = i + k - n by omega]

theorem Table.get_fill [DecidableEq α] (d : α) (t : Table α) (lo n : Nat) (a : α) (i : Nat) :
    Table.get d (Table.fill d t lo n a) i = if lo ≤ i ∧ i < lo + n then a else Table.get d t i := by
  simp only [Table.fill, Table.get_splice, Table.get_push, Table.get_drop]
  by_cases h1 : i < lo
  · simp [h1, show ¬(lo ≤ i ∧ i < lo + n) by omega]
  · by_cases h2 : i - lo < n
    · simp [h1, h2, show lo ≤ i ∧ i < lo + n by omega]
    · simp [h1, h2, show ¬(lo ≤ i ∧ i < lo + n) by omega, show i - lo - n + (lo + n) = i by omega]

theorem Table.get_set [DecidableEq α] (d : α) (t : Table α) (i : Nat) (a : α) (j : Nat) :
    Table.get d (Table.set d t i a) j = if j = i then a else Table.get d t j := by
  simp only [Table.set, Table.get_fill, show (i ≤ j ∧ j < i + 1) = (j = i) from propext (by omega)]

theorem Table.get_setMany [DecidableEq α] (d : α) (t : Table α) (i : Nat) (xs : List α) (j : Nat) :
    Table.get d (Table.setMany d t i xs) j =
      if i ≤ j ∧ j < i + xs.length then xs.getD (j - i) d else Table.get d t j := by
  induction xs generalizing t i with
  | nil => simp [Table.setMany, show ¬(i ≤ j ∧ j < i) by omega]
  | cons x xs ih =>
    simp only [Table.setMany, ih, Table.get_set, List.length_cons]
    by_cases h : i ≤ j ∧ j < i + (xs.length + 1)
    · by_cases h1 : j = i
      · subst h1; simp
      · have h2 : j - i = (j - (i + 1)) + 1 := by omega
        simp [h, show i + 1 ≤ j ∧ j < i + 1 + xs.length by omega, h2]
    · rw [if_neg (by omega), if_neg (by omega), if_neg h]

/-! ## The canonical form -/

@[simp] theorem Table.wf_nil [DecidableEq α] (d : α) : Table.wf d [] = true := rfl

/-- The form, one run at a time. -/
theorem Table.wf_cons [DecidableEq α] (d : α) (n : Nat) (a : α) (t : Table α) :
    Table.wf d ((n, a) :: t) = true ↔
      0 < n ∧ (t = [] → a ≠ d) ∧ (∀ m b r, t = (m, b) :: r → a ≠ b) ∧ Table.wf d t = true := by
  cases t with
  | nil => simp [Table.wf]
  | cons p r => obtain ⟨m, b⟩ := p; simp [Table.wf, and_assoc]

theorem Table.wf_tail [DecidableEq α] {n : Nat} (h : Table.wf d ((n, a) :: t) = true) : Table.wf d t = true :=
  ((Table.wf_cons ..).1 h).2.2.2

theorem Table.wf_push [DecidableEq α] (n : Nat) (h : Table.wf d t = true) : Table.wf d (Table.push d n a t) = true := by
  unfold Table.push
  split
  · exact h
  · rename_i hn
    cases t with
    | nil =>
      by_cases h1 : a = d
      · simp [h1]
      · simp [h1, Table.wf_cons, Nat.pos_of_ne_zero hn]
    | cons p r =>
      obtain ⟨m, b⟩ := p
      by_cases h1 : a = b
      · subst h1
        simp only [if_true]
        rw [Table.wf_cons] at h ⊢
        exact ⟨by omega, h.2⟩
      · simp only [h1, if_false]
        rw [Table.wf_cons]
        exact ⟨Nat.pos_of_ne_zero hn, by simp, by rintro _ _ _ ⟨⟩; exact h1, h⟩

theorem Table.wf_splice [DecidableEq α] (k : Nat) (h : Table.wf d r = true) : Table.wf d (Table.splice d t k r) = true := by
  induction t generalizing k with
  | nil => exact Table.wf_push _ h
  | cons p t ih =>
    obtain ⟨n, a⟩ := p
    simp only [Table.splice]
    split
    · exact Table.wf_push _ h
    · exact Table.wf_push _ (ih _)

theorem Table.wf_drop [DecidableEq α] (k : Nat) (h : Table.wf d t = true) : Table.wf d (Table.drop t k) = true := by
  induction t generalizing k with
  | nil => rfl
  | cons p t ih =>
    obtain ⟨n, a⟩ := p
    simp only [Table.drop]
    split
    · rw [Table.wf_cons] at h ⊢
      exact ⟨by omega, h.2⟩
    · exact ih _ (Table.wf_tail h)

theorem Table.wf_fill [DecidableEq α] (lo n : Nat) (h : Table.wf d t = true) :
    Table.wf d (Table.fill d t lo n a) = true :=
  Table.wf_splice _ (Table.wf_push _ (Table.wf_drop _ h))

theorem Table.wf_set [DecidableEq α] (i : Nat) (h : Table.wf d t = true) : Table.wf d (Table.set d t i a) = true :=
  Table.wf_fill _ _ h

theorem Table.wf_setMany [DecidableEq α] (i : Nat) (xs : List α) (h : Table.wf d t = true) :
    Table.wf d (Table.setMany d t i xs) = true := by
  induction xs generalizing t i with
  | nil => exact h
  | cons x xs ih => exact ih _ (Table.wf_set _ h)

/-! ## The size -/

@[simp] theorem Table.extent_nil : Table.extent ([] : Table α) = 0 := rfl

theorem Table.extent_push [DecidableEq α] (d : α) (n : Nat) (a : α) (t : Table α) :
    Table.extent (Table.push d n a t) ≤ n + Table.extent t := by
  unfold Table.push
  split
  · omega
  · cases t with
    | nil => by_cases h : a = d <;> simp [h, Table.extent]
    | cons p r => obtain ⟨m, b⟩ := p; by_cases h : a = b <;> simp [h, Table.extent]; omega

theorem Table.extent_splice [DecidableEq α] (d : α) (t : Table α) (k : Nat) (r : Table α) :
    Table.extent (Table.splice d t k r) ≤ k + Table.extent r := by
  induction t generalizing k with
  | nil => exact Table.extent_push ..
  | cons p t ih =>
    obtain ⟨n, a⟩ := p
    simp only [Table.splice]
    split
    · exact Table.extent_push ..
    · have h1 := Table.extent_push d n a (Table.splice d t (k - n) r)
      have h2 := ih (k - n)
      omega

theorem Table.extent_drop (t : Table α) (k : Nat) : Table.extent (Table.drop t k) = Table.extent t - k := by
  induction t generalizing k with
  | nil => simp [Table.drop]
  | cons p t ih =>
    obtain ⟨n, a⟩ := p
    simp only [Table.drop]
    split
    · simp only [Table.extent]; omega
    · simp only [ih, Table.extent]; omega

theorem Table.extent_fill [DecidableEq α] (d : α) (t : Table α) (lo n : Nat) (a : α) :
    Table.extent (Table.fill d t lo n a) ≤ max (Table.extent t) (lo + n) := by
  have h1 := Table.extent_splice d t lo (Table.push d n a (Table.drop t (lo + n)))
  have h2 := Table.extent_push d n a (Table.drop t (lo + n))
  rw [Table.extent_drop] at h2
  simp only [Table.fill]
  omega

/-- Entries past the runs are the reset entry. -/
theorem Table.get_of_extent_le (d : α) (t : Table α) (i : Nat) (h : Table.extent t ≤ i) : Table.get d t i = d := by
  induction t generalizing i with
  | nil => rfl
  | cons p t ih =>
    obtain ⟨n, a⟩ := p
    simp only [Table.extent] at h
    rw [Table.get_cons, if_neg (by omega), ih _ (by omega)]

/-! ## Equal entries, equal tables -/

/-- A table in canonical form whose every entry is the reset entry lists no run. -/
theorem Table.eq_nil_of_get [DecidableEq α] (h : Table.wf d t = true) (hg : ∀ i, Table.get d t i = d) : t = [] := by
  induction t with
  | nil => rfl
  | cons p t ih =>
    obtain ⟨n, a⟩ := p
    obtain ⟨hn, hd, hb, ht⟩ := (Table.wf_cons ..).1 h
    have ha : a = d := by simpa [Table.get_cons, hn] using hg 0
    have : t = [] := ih ht fun i => by simpa [Table.get_cons] using hg (i + n)
    exact absurd ha (hd this)

/-- A run is no longer than the first run of a table with the same entries. -/
theorem Table.run_le [DecidableEq α] {n m : Nat} {b : α} (h : Table.wf d ((n, a) :: t) = true)
    (hg : ∀ i, Table.get d ((n, a) :: t) i = Table.get d ((m, b) :: r) i) : m ≤ n := by
  by_contra hlt
  obtain ⟨hn, hd, hb, ht⟩ := (Table.wf_cons ..).1 h
  have h0 : a = b := by simpa [Table.get_cons, hn, show 0 < m by omega] using hg 0
  have h1 : Table.get d t 0 = b := by simpa [Table.get_cons, show n < m by omega] using hg n
  cases t with
  | nil => exact hd rfl (by simpa [h0] using h1.symm)
  | cons p t =>
    obtain ⟨k, c⟩ := p
    have hk := ((Table.wf_cons ..).1 ht).1
    exact hb k c t rfl (by simpa [Table.get_cons, hk, h0] using h1.symm)

/-- Equal tables are equal data. -/
theorem Table.ext_get [DecidableEq α] (ht : Table.wf d t = true) (hr : Table.wf d r = true)
    (hg : ∀ i, Table.get d t i = Table.get d r i) : t = r := by
  induction t generalizing r with
  | nil => exact (Table.eq_nil_of_get hr fun i => (hg i).symm).symm
  | cons p t ih =>
    obtain ⟨n, a⟩ := p
    cases r with
    | nil => exact Table.eq_nil_of_get ht hg
    | cons q r =>
      obtain ⟨m, b⟩ := q
      have hnm : n = m := Nat.le_antisymm (Table.run_le hr fun i => (hg i).symm) (Table.run_le ht hg)
      subst hnm
      have hn := ((Table.wf_cons ..).1 ht).1
      have hab : a = b := by simpa [Table.get_cons, hn] using hg 0
      subst hab
      rw [ih (Table.wf_tail ht) (Table.wf_tail hr) fun i => by simpa [Table.get_cons] using hg (i + n)]

/-! ## `TableOk` -/

theorem TableOk.nil [DecidableEq α] (d : α) (size : Nat) : TableOk d size [] := ⟨rfl, Nat.zero_le _⟩

theorem TableOk.fill [DecidableEq α] {size lo n : Nat} (h : TableOk d size t) (hs : lo + n ≤ size) :
    TableOk d size (Table.fill d t lo n a) :=
  ⟨Table.wf_fill _ _ h.1, by have := Table.extent_fill d t lo n a; have := h.2; omega⟩

theorem TableOk.set [DecidableEq α] {size i : Nat} (h : TableOk d size t) (hi : i < size) :
    TableOk d size (Table.set d t i a) := TableOk.fill h hi

theorem TableOk.setMany [DecidableEq α] {size i : Nat} {xs : List α} (h : TableOk d size t) (hs : i + xs.length ≤ size) :
    TableOk d size (Table.setMany d t i xs) := by
  induction xs generalizing t i with
  | nil => exact h
  | cons x xs ih =>
    simp only [List.length_cons] at hs
    exact ih (h.set (by omega)) (by omega)

/-- Entries of a table of the given size are reset entries from there on. -/
theorem TableOk.get_of_le [DecidableEq α] {size i : Nat} (h : TableOk d size t) (hi : size ≤ i) : Table.get d t i = d :=
  Table.get_of_extent_le d t i (h.2.trans hi)

end Sys2Proof.Machine
end

