-- ==== Sys2Proof/Laws/Canon.lean ====
section
/-! SUPPORT. The laws of the code mapper's and the table builder's parts: the symbols and length classes, the two warning
flags, the least and greatest class, one step of each inner loop, and what a ready table rests on. -/

namespace Sys2Proof.Machine

theorem length_allSymbols : allSymbols.length = 256 := by simp [allSymbols, Config.alphabetSize]

theorem mem_allSymbols (x : Byte) : x ∈ allSymbols := by
  simp only [allSymbols, Config.alphabetSize, List.mem_map, List.mem_range]
  exact ⟨x.toNat, x.isLt, by simp⟩

theorem mem_lenClasses (L : Nat) : L ∈ lenClasses ↔ 1 ≤ L ∧ L ≤ 16 := by
  simp only [lenClasses, Config.numLenClasses, List.mem_range'_1]
  omega

/-- `WARN_LONG`'s rule, over symbols (R29). -/
theorem someLong_iff (len : Table (BitVec 5)) : someLong len = true ↔ ∃ x, 17 ≤ lenOf len x := by
  simp [someLong, lenOf, mem_allSymbols]

/-- `Canon`'s first check, over symbols (R156). -/
theorem someCoded_iff (len : Table (BitVec 5)) : someCoded len = true ↔ ∃ x, Coded len x := by
  simp [someCoded, Coded, lenOf, mem_allSymbols]

theorem tableIncomplete_iff (cur M : Nat) : tableIncomplete cur M = true ↔ cur ≠ 2 ^ M := by simp [tableIncomplete]

/-! ## The least and the greatest class in use -/

/-- In a list that `R` orders, the first class in use stands `R`-before every other class in use. -/
theorem firstUsed_of_pairwise {n : Nat} (t : Table (BitVec n)) {Ls : List Nat} {R : Nat → Nat → Prop} (hR : Ls.Pairwise R)
    {L : Nat} (hL : L ∈ Ls) (hu : t.get 0 L ≠ 0) :
    firstUsed t Ls ∈ Ls ∧ t.get 0 (firstUsed t Ls) ≠ 0 ∧ (L = firstUsed t Ls ∨ R (firstUsed t Ls) L) := by
  have hp : ∀ K, decide (0 < (t.get 0 K).toNat) = true ↔ t.get 0 K ≠ 0 := fun K => by
    have h0 : (0 : BitVec n).toNat = 0 := by simp
    simp only [decide_eq_true_eq, ne_eq, ← BitVec.toNat_inj, h0]
    omega
  unfold firstUsed
  cases hf : Ls.find? fun K => decide (0 < (t.get 0 K).toNat) with
  | none => exact absurd ((hp L).2 hu) (List.find?_eq_none.1 hf L hL)
  | some K =>
    obtain ⟨hK, as, bs, rfl, has⟩ := List.find?_eq_some_iff_append.1 hf
    refine ⟨by simp, (hp K).1 hK, ?_⟩
    rcases List.mem_append.1 hL with h | h
    · have h1 := has L h
      rw [(hp L).2 hu] at h1
      cases h1
    · rcases List.mem_cons.1 h with h | h
      · exact .inl h
      · exact .inr ((List.pairwise_cons.1 (List.pairwise_append.1 hR).2.1).1 L h)

/-- The greatest class in use is in use, and no class in use is greater (R206, R156). -/
theorem le_greatestClass {n : Nat} (t : Table (BitVec n)) {L : Nat} (h1 : 1 ≤ L) (h2 : L ≤ 16) (hu : t.get 0 L ≠ 0) :
    1 ≤ greatestClass t ∧ greatestClass t ≤ 16 ∧ t.get 0 (greatestClass t) ≠ 0 ∧ L ≤ greatestClass t := by
  have hp : lenClasses.reverse.Pairwise (· > ·) := by decide
  obtain ⟨hm, hg, ho⟩ := firstUsed_of_pairwise t hp (by simpa [mem_lenClasses] using ⟨h1, h2⟩) hu
  have hm' := (mem_lenClasses _).1 (List.mem_reverse.1 hm)
  exact ⟨hm'.1, hm'.2, hg, ho.elim (fun h => h.le) (fun h => Nat.le_of_lt h)⟩

/-- The least class in use is in use, and no class in use is less (R156). -/
theorem leastClass_le {n : Nat} (t : Table (BitVec n)) {L : Nat} (h1 : 1 ≤ L) (h2 : L ≤ 16) (hu : t.get 0 L ≠ 0) :
    1 ≤ leastClass t ∧ leastClass t ≤ 16 ∧ t.get 0 (leastClass t) ≠ 0 ∧ leastClass t ≤ L := by
  have hp : lenClasses.Pairwise (· < ·) := by decide
  obtain ⟨hm, hg, ho⟩ := firstUsed_of_pairwise t hp ((mem_lenClasses L).2 ⟨h1, h2⟩) hu
  have hm' := (mem_lenClasses _).1 hm
  exact ⟨hm'.1, hm'.2, hg, ho.elim (fun h => h.ge) (fun h => Nat.le_of_lt h)⟩

/-- With no class in use the greatest class is 0 (R206). -/
theorem greatestClass_eq_zero {n : Nat} (t : Table (BitVec n)) (h : ∀ L, 1 ≤ L → L ≤ 16 → t.get 0 L = 0) :
    greatestClass t = 0 := by
  have hf : lenClasses.reverse.find? (fun L => decide (0 < (t.get 0 L).toNat)) = none := by
    rw [List.find?_eq_none]
    intro L hL
    have hL' := (mem_lenClasses L).1 (List.mem_reverse.1 hL)
    rw [h L hL'.1 hL'.2]
    simp
  rw [greatestClass, firstUsed, hf]
  rfl

/-- The decoder's `max_bits` is what R206 says it is. -/
theorem isMaxBits_greatestClass (dcpl : Table Byte) : IsMaxBits dcpl (greatestClass dcpl) := by
  refine ⟨fun L h1 h2 hu => (le_greatestClass dcpl h1 h2 hu).2.2.2, ?_⟩
  by_cases h : ∀ L, 1 ≤ L → L ≤ 16 → dcpl.get 0 L = 0
  · exact .inl (greatestClass_eq_zero dcpl h)
  · push Not at h
    obtain ⟨L, h1, h2, hu⟩ := h
    obtain ⟨g1, g2, g3, -⟩ := le_greatestClass dcpl h1 h2 hu
    exact .inr ⟨g1, g2, g3⟩

/-- R206 fixes `max_bits`. -/
theorem IsMaxBits.unique {dcpl : Table Byte} {M N : Nat} (hM : IsMaxBits dcpl M) (hN : IsMaxBits dcpl N) : M = N := by
  obtain ⟨m1, rfl | ⟨m2, m3, m4⟩⟩ := hM <;> obtain ⟨n1, rfl | ⟨n2, n3, n4⟩⟩ := hN
  · rfl
  · have := m1 _ n2 n3 n4; omega
  · have := n1 _ m2 m3 m4; omega
  · exact Nat.le_antisymm (n1 _ m2 m3 m4) (m1 _ n2 n3 n4)

/-! ## One step of each inner loop -/

section
variable (L : Nat) (s : Byte) (a : CanonAcc) (i : Nat)

@[simp] theorem assignSymbol_counter : (assignSymbol L s a).counter = a.counter + 1 := rfl
@[simp] theorem assignSymbol_syms : (assignSymbol L s a).syms = a.syms ++ [s] := rfl

theorem assignSymbol_code : (assignSymbol L s a).code.get 0 i =
    if i = s.toNat then BitVec.ofNat 16 a.counter else a.code.get 0 i := Table.get_set ..

theorem assignSymbol_clen : (assignSymbol L s a).clen.get 0 i =
    if i = s.toNat then BitVec.ofNat 5 L else a.clen.get 0 i := Table.get_set ..

theorem assignSymbol_cpl : (assignSymbol L s a).cpl.get 0 i =
    if i = L then a.cpl.get 0 L + 1 else a.cpl.get 0 i := Table.get_set ..

end

section
variable (M L : Nat) (dsyms : Table Byte) (a : FillAcc) (x : Nat)

@[simp] theorem fillSymbol_cur : (fillSymbol M L dsyms a).cur = a.cur + 2 ^ (M - L) := rfl
@[simp] theorem fillSymbol_k : (fillSymbol M L dsyms a).k = a.k + 1 := rfl

theorem fillSymbol_dt : (fillSymbol M L dsyms a).dt.get .unfilled x =
    if a.cur ≤ x ∧ x < a.cur + 2 ^ (M - L) then ⟨true, BitVec.ofNat 5 L, dsyms.get 0 a.k⟩ else a.dt.get .unfilled x :=
  Table.get_fill ..

end

/-! ## Ready tables, and what a driver reads -/

/-- `ReadyInv` rests on the two flags, the lengths, the code table and the decode table alone: a step that may only clear the
flags, and changes none of those, keeps it. -/
theorem State.ReadyInv.of_same {s t : State} (h : s.ReadyInv)
    (he : t.status.encReady = true → s.status.encReady = true ∧ t.len = s.len ∧ t.code = s.code ∧ t.clen = s.clen ∧
      t.cpl = s.cpl ∧ t.nsym = s.nsym ∧ t.symlist = s.symlist)
    (hd : t.status.decReady = true → s.status.decReady = true ∧ t.dcpl = s.dcpl ∧ t.dsyms = s.dsyms ∧ t.dt = s.dt ∧
      t.dmaxBits = s.dmaxBits ∧ t.fill = s.fill) : t.ReadyInv where
  code h' := by
    obtain ⟨h0, h1, h2, h3, -⟩ := he h'
    rw [h1, h2, h3]
    exact h.code h0
  counts h' := by
    obtain ⟨h0, h1, -, -, h4, -⟩ := he h'
    rw [h1, h4]
    exact h.counts h0
  symbols h' := by
    obtain ⟨h0, h1, -, -, -, h5, h6⟩ := he h'
    rw [h1, h5, h6]
    exact h.symbols h0
  table h' := by
    obtain ⟨h0, h1, h2, h3, h4, h5⟩ := hd h'
    rw [h1, h2, h3, h4, h5]
    exact h.table h0

/-- A call failed exactly when `STATUS`, read last, has an error pending (R280, R281). -/
theorem callFailed_word (x : Status) : callFailed x.word = decide (x.err ≠ 0) := by
  have h : x.word.extractLsb' 0 5 = x.err := by
    ext i hi
    rw [BitVec.getElem_extractLsb', Status.word, BitVec.getLsbD_append]
    simp [hi]
  rw [callFailed, h]

end Sys2Proof.Machine
end

