-- ==== Sys2Proof/Laws/State.lean ====
section
/-! SUPPORT. One lemma for each field after each named update of the state: what the field is then. No later proof unfolds a
record update. -/

namespace Sys2Proof.Machine

/-! ## `State.raise` -/

section
variable (s : State) (e : Err) (op : Byte)

@[simp] theorem State.raise_err : (s.raise e op).status.err = e.code := rfl
@[simp] theorem State.raise_encReady : (s.raise e op).status.encReady = s.status.encReady := rfl
@[simp] theorem State.raise_hdrValid : (s.raise e op).status.hdrValid = s.status.hdrValid := rfl
@[simp] theorem State.raise_decReady : (s.raise e op).status.decReady = s.status.decReady := rfl
@[simp] theorem State.raise_seeded : (s.raise e op).status.seeded = s.status.seeded := rfl
@[simp] theorem State.raise_warnLong : (s.raise e op).status.warnLong = s.status.warnLong := rfl
@[simp] theorem State.raise_warnIncomplete : (s.raise e op).status.warnIncomplete = s.status.warnIncomplete := rfl
@[simp] theorem State.raise_errOp : (s.raise e op).status.errOp = op := rfl
@[simp] theorem State.raise_resp : (s.raise e op).resp = s.resp := rfl
@[simp] theorem State.raise_marker : (s.raise e op).marker = s.marker := rfl
@[simp] theorem State.raise_outPos : (s.raise e op).outPos = s.outPos := rfl
@[simp] theorem State.raise_inPos : (s.raise e op).inPos = s.inPos := rfl
@[simp] theorem State.raise_wbuf : (s.raise e op).wbuf = s.wbuf := rfl
@[simp] theorem State.raise_wcnt : (s.raise e op).wcnt = s.wcnt := rfl
@[simp] theorem State.raise_rbuf : (s.raise e op).rbuf = s.rbuf := rfl
@[simp] theorem State.raise_rcnt : (s.raise e op).rcnt = s.rcnt := rfl
@[simp] theorem State.raise_len : (s.raise e op).len = s.len := rfl
@[simp] theorem State.raise_code : (s.raise e op).code = s.code := rfl
@[simp] theorem State.raise_clen : (s.raise e op).clen = s.clen := rfl
@[simp] theorem State.raise_cpl : (s.raise e op).cpl = s.cpl := rfl
@[simp] theorem State.raise_symlist : (s.raise e op).symlist = s.symlist := rfl
@[simp] theorem State.raise_nsym : (s.raise e op).nsym = s.nsym := rfl
@[simp] theorem State.raise_minBits : (s.raise e op).minBits = s.minBits := rfl
@[simp] theorem State.raise_maxBits : (s.raise e op).maxBits = s.maxBits := rfl
@[simp] theorem State.raise_encCnt : (s.raise e op).encCnt = s.encCnt := rfl
@[simp] theorem State.raise_dcpl : (s.raise e op).dcpl = s.dcpl := rfl
@[simp] theorem State.raise_dsyms : (s.raise e op).dsyms = s.dsyms := rfl
@[simp] theorem State.raise_dnsym : (s.raise e op).dnsym = s.dnsym := rfl
@[simp] theorem State.raise_numSym : (s.raise e op).numSym = s.numSym := rfl
@[simp] theorem State.raise_dmaxBits : (s.raise e op).dmaxBits = s.dmaxBits := rfl
@[simp] theorem State.raise_dt : (s.raise e op).dt = s.dt := rfl
@[simp] theorem State.raise_fill : (s.raise e op).fill = s.fill := rfl
@[simp] theorem State.raise_win : (s.raise e op).win = s.win := rfl
@[simp] theorem State.raise_remain : (s.raise e op).remain = s.remain := rfl
@[simp] theorem State.raise_program : (s.raise e op).program = s.program := rfl
@[simp] theorem State.raise_pos : (s.raise e op).pos = s.pos := rfl
@[simp] theorem State.raise_bin : (s.raise e op).bin = s.bin := rfl
@[simp] theorem State.raise_boutHost : (s.raise e op).boutHost = s.boutHost := rfl
@[simp] theorem State.raise_bout : (s.raise e op).bout = s.bout := rfl
@[simp] theorem State.raise_soutHost : (s.raise e op).soutHost = s.soutHost := rfl
@[simp] theorem State.raise_sout : (s.raise e op).sout = s.sout := rfl

end

/-! ## `State.failed` -/

section
variable (s : State) (c : BitVec 5) (op : Byte)

@[simp] theorem State.failed_err : (s.failed c op).status.err = c := rfl
@[simp] theorem State.failed_encReady : (s.failed c op).status.encReady = s.status.encReady := rfl
@[simp] theorem State.failed_hdrValid : (s.failed c op).status.hdrValid = s.status.hdrValid := rfl
@[simp] theorem State.failed_decReady : (s.failed c op).status.decReady = s.status.decReady := rfl
@[simp] theorem State.failed_seeded : (s.failed c op).status.seeded = s.status.seeded := rfl
@[simp] theorem State.failed_warnLong : (s.failed c op).status.warnLong = s.status.warnLong := rfl
@[simp] theorem State.failed_warnIncomplete : (s.failed c op).status.warnIncomplete = s.status.warnIncomplete := rfl
@[simp] theorem State.failed_errOp : (s.failed c op).status.errOp = op := rfl
@[simp] theorem State.failed_resp : (s.failed c op).resp = s.resp := rfl
@[simp] theorem State.failed_marker : (s.failed c op).marker = s.marker := rfl
@[simp] theorem State.failed_outPos : (s.failed c op).outPos = s.outPos := rfl
@[simp] theorem State.failed_inPos : (s.failed c op).inPos = s.inPos := rfl
@[simp] theorem State.failed_wbuf : (s.failed c op).wbuf = s.wbuf := rfl
@[simp] theorem State.failed_wcnt : (s.failed c op).wcnt = s.wcnt := rfl
@[simp] theorem State.failed_rbuf : (s.failed c op).rbuf = s.rbuf := rfl
@[simp] theorem State.failed_rcnt : (s.failed c op).rcnt = s.rcnt := rfl
@[simp] theorem State.failed_len : (s.failed c op).len = s.len := rfl
@[simp] theorem State.failed_code : (s.failed c op).code = s.code := rfl
@[simp] theorem State.failed_clen : (s.failed c op).clen = s.clen := rfl
@[simp] theorem State.failed_cpl : (s.failed c op).cpl = s.cpl := rfl
@[simp] theorem State.failed_symlist : (s.failed c op).symlist = s.symlist := rfl
@[simp] theorem State.failed_nsym : (s.failed c op).nsym = s.nsym := rfl
@[simp] theorem State.failed_minBits : (s.failed c op).minBits = s.minBits := rfl
@[simp] theorem State.failed_maxBits : (s.failed c op).maxBits = s.maxBits := rfl
@[simp] theorem State.failed_encCnt : (s.failed c op).encCnt = s.encCnt := rfl
@[simp] theorem State.failed_dcpl : (s.failed c op).dcpl = s.dcpl := rfl
@[simp] theorem State.failed_dsyms : (s.failed c op).dsyms = s.dsyms := rfl
@[simp] theorem State.failed_dnsym : (s.failed c op).dnsym = s.dnsym := rfl
@[simp] theorem State.failed_numSym : (s.failed c op).numSym = s.numSym := rfl
@[simp] theorem State.failed_dmaxBits : (s.failed c op).dmaxBits = s.dmaxBits := rfl
@[simp] theorem State.failed_dt : (s.failed c op).dt = s.dt := rfl
@[simp] theorem State.failed_fill : (s.failed c op).fill = s.fill := rfl
@[simp] theorem State.failed_win : (s.failed c op).win = s.win := rfl
@[simp] theorem State.failed_remain : (s.failed c op).remain = s.remain := rfl
@[simp] theorem State.failed_program : (s.failed c op).program = s.program := rfl
@[simp] theorem State.failed_pos : (s.failed c op).pos = s.pos := rfl
@[simp] theorem State.failed_bin : (s.failed c op).bin = s.bin := rfl
@[simp] theorem State.failed_boutHost : (s.failed c op).boutHost = s.boutHost := rfl
@[simp] theorem State.failed_bout : (s.failed c op).bout = s.bout := rfl
@[simp] theorem State.failed_soutHost : (s.failed c op).soutHost = s.soutHost := rfl
@[simp] theorem State.failed_sout : (s.failed c op).sout = s.sout := rfl

end

/-! ## `State.clearError` -/

section
variable (s : State)

@[simp] theorem State.clearError_err : s.clearError.status.err = 0 := rfl
@[simp] theorem State.clearError_encReady : s.clearError.status.encReady = s.status.encReady := rfl
@[simp] theorem State.clearError_hdrValid : s.clearError.status.hdrValid = s.status.hdrValid := rfl
@[simp] theorem State.clearError_decReady : s.clearError.status.decReady = s.status.decReady := rfl
@[simp] theorem State.clearError_seeded : s.clearError.status.seeded = s.status.seeded := rfl
@[simp] theorem State.clearError_warnLong : s.clearError.status.warnLong = s.status.warnLong := rfl
@[simp] theorem State.clearError_warnIncomplete : s.clearError.status.warnIncomplete = s.status.warnIncomplete := rfl
@[simp] theorem State.clearError_errOp : s.clearError.status.errOp = 0 := rfl
@[simp] theorem State.clearError_resp : s.clearError.resp = s.resp := rfl
@[simp] theorem State.clearError_marker : s.clearError.marker = s.marker := rfl
@[simp] theorem State.clearError_outPos : s.clearError.outPos = s.outPos := rfl
@[simp] theorem State.clearError_inPos : s.clearError.inPos = s.inPos := rfl
@[simp] theorem State.clearError_wbuf : s.clearError.wbuf = s.wbuf := rfl
@[simp] theorem State.clearError_wcnt : s.clearError.wcnt = s.wcnt := rfl
@[simp] theorem State.clearError_rbuf : s.clearError.rbuf = s.rbuf := rfl
@[simp] theorem State.clearError_rcnt : s.clearError.rcnt = s.rcnt := rfl
@[simp] theorem State.clearError_len : s.clearError.len = s.len := rfl
@[simp] theorem State.clearError_code : s.clearError.code = s.code := rfl
@[simp] theorem State.clearError_clen : s.clearError.clen = s.clen := rfl
@[simp] theorem State.clearError_cpl : s.clearError.cpl = s.cpl := rfl
@[simp] theorem State.clearError_symlist : s.clearError.symlist = s.symlist := rfl
@[simp] theorem State.clearError_nsym : s.clearError.nsym = s.nsym := rfl
@[simp] theorem State.clearError_minBits : s.clearError.minBits = s.minBits := rfl
@[simp] theorem State.clearError_maxBits : s.clearError.maxBits = s.maxBits := rfl
@[simp] theorem State.clearError_encCnt : s.clearError.encCnt = s.encCnt := rfl
@[simp] theorem State.clearError_dcpl : s.clearError.dcpl = s.dcpl := rfl
@[simp] theorem State.clearError_dsyms : s.clearError.dsyms = s.dsyms := rfl
@[simp] theorem State.clearError_dnsym : s.clearError.dnsym = s.dnsym := rfl
@[simp] theorem State.clearError_numSym : s.clearError.numSym = s.numSym := rfl
@[simp] theorem State.clearError_dmaxBits : s.clearError.dmaxBits = s.dmaxBits := rfl
@[simp] theorem State.clearError_dt : s.clearError.dt = s.dt := rfl
@[simp] theorem State.clearError_fill : s.clearError.fill = s.fill := rfl
@[simp] theorem State.clearError_win : s.clearError.win = s.win := rfl
@[simp] theorem State.clearError_remain : s.clearError.remain = s.remain := rfl
@[simp] theorem State.clearError_program : s.clearError.program = s.program := rfl
@[simp] theorem State.clearError_pos : s.clearError.pos = s.pos := rfl
@[simp] theorem State.clearError_bin : s.clearError.bin = s.bin := rfl
@[simp] theorem State.clearError_boutHost : s.clearError.boutHost = s.boutHost := rfl
@[simp] theorem State.clearError_bout : s.clearError.bout = s.bout := rfl
@[simp] theorem State.clearError_soutHost : s.clearError.soutHost = s.soutHost := rfl
@[simp] theorem State.clearError_sout : s.clearError.sout = s.sout := rfl

end

/-! ## `State.blockReset` -/

section
variable (s : State)

@[simp] theorem State.blockReset_status : s.blockReset.status = State.reset.status := rfl
@[simp] theorem State.blockReset_resp : s.blockReset.resp = State.reset.resp := rfl
@[simp] theorem State.blockReset_marker : s.blockReset.marker = State.reset.marker := rfl
@[simp] theorem State.blockReset_outPos : s.blockReset.outPos = State.reset.outPos := rfl
@[simp] theorem State.blockReset_inPos : s.blockReset.inPos = State.reset.inPos := rfl
@[simp] theorem State.blockReset_wbuf : s.blockReset.wbuf = State.reset.wbuf := rfl
@[simp] theorem State.blockReset_wcnt : s.blockReset.wcnt = State.reset.wcnt := rfl
@[simp] theorem State.blockReset_rbuf : s.blockReset.rbuf = State.reset.rbuf := rfl
@[simp] theorem State.blockReset_rcnt : s.blockReset.rcnt = State.reset.rcnt := rfl
@[simp] theorem State.blockReset_len : s.blockReset.len = State.reset.len := rfl
@[simp] theorem State.blockReset_code : s.blockReset.code = State.reset.code := rfl
@[simp] theorem State.blockReset_clen : s.blockReset.clen = State.reset.clen := rfl
@[simp] theorem State.blockReset_cpl : s.blockReset.cpl = State.reset.cpl := rfl
@[simp] theorem State.blockReset_symlist : s.blockReset.symlist = State.reset.symlist := rfl
@[simp] theorem State.blockReset_nsym : s.blockReset.nsym = State.reset.nsym := rfl
@[simp] theorem State.blockReset_minBits : s.blockReset.minBits = State.reset.minBits := rfl
@[simp] theorem State.blockReset_maxBits : s.blockReset.maxBits = State.reset.maxBits := rfl
@[simp] theorem State.blockReset_encCnt : s.blockReset.encCnt = State.reset.encCnt := rfl
@[simp] theorem State.blockReset_dcpl : s.blockReset.dcpl = State.reset.dcpl := rfl
@[simp] theorem State.blockReset_dsyms : s.blockReset.dsyms = State.reset.dsyms := rfl
@[simp] theorem State.blockReset_dnsym : s.blockReset.dnsym = State.reset.dnsym := rfl
@[simp] theorem State.blockReset_numSym : s.blockReset.numSym = State.reset.numSym := rfl
@[simp] theorem State.blockReset_dmaxBits : s.blockReset.dmaxBits = State.reset.dmaxBits := rfl
@[simp] theorem State.blockReset_dt : s.blockReset.dt = State.reset.dt := rfl
@[simp] theorem State.blockReset_fill : s.blockReset.fill = State.reset.fill := rfl
@[simp] theorem State.blockReset_win : s.blockReset.win = State.reset.win := rfl
@[simp] theorem State.blockReset_remain : s.blockReset.remain = State.reset.remain := rfl
@[simp] theorem State.blockReset_program : s.blockReset.program = s.program := rfl
@[simp] theorem State.blockReset_pos : s.blockReset.pos = s.pos := rfl
@[simp] theorem State.blockReset_bin : s.blockReset.bin = s.bin := rfl
@[simp] theorem State.blockReset_boutHost : s.blockReset.boutHost = s.boutHost := rfl
@[simp] theorem State.blockReset_bout : s.blockReset.bout = s.bout := rfl
@[simp] theorem State.blockReset_soutHost : s.blockReset.soutHost = s.soutHost := rfl
@[simp] theorem State.blockReset_sout : s.blockReset.sout = s.sout := rfl

end

/-! ## `State.advance` -/

section
variable (s : State)

@[simp] theorem State.advance_status : s.advance.status = s.status := rfl
@[simp] theorem State.advance_resp : s.advance.resp = s.resp := rfl
@[simp] theorem State.advance_marker : s.advance.marker = s.marker := rfl
@[simp] theorem State.advance_outPos : s.advance.outPos = s.outPos := rfl
@[simp] theorem State.advance_inPos : s.advance.inPos = s.inPos := rfl
@[simp] theorem State.advance_wbuf : s.advance.wbuf = s.wbuf := rfl
@[simp] theorem State.advance_wcnt : s.advance.wcnt = s.wcnt := rfl
@[simp] theorem State.advance_rbuf : s.advance.rbuf = s.rbuf := rfl
@[simp] theorem State.advance_rcnt : s.advance.rcnt = s.rcnt := rfl
@[simp] theorem State.advance_len : s.advance.len = s.len := rfl
@[simp] theorem State.advance_code : s.advance.code = s.code := rfl
@[simp] theorem State.advance_clen : s.advance.clen = s.clen := rfl
@[simp] theorem State.advance_cpl : s.advance.cpl = s.cpl := rfl
@[simp] theorem State.advance_symlist : s.advance.symlist = s.symlist := rfl
@[simp] theorem State.advance_nsym : s.advance.nsym = s.nsym := rfl
@[simp] theorem State.advance_minBits : s.advance.minBits = s.minBits := rfl
@[simp] theorem State.advance_maxBits : s.advance.maxBits = s.maxBits := rfl
@[simp] theorem State.advance_encCnt : s.advance.encCnt = s.encCnt := rfl
@[simp] theorem State.advance_dcpl : s.advance.dcpl = s.dcpl := rfl
@[simp] theorem State.advance_dsyms : s.advance.dsyms = s.dsyms := rfl
@[simp] theorem State.advance_dnsym : s.advance.dnsym = s.dnsym := rfl
@[simp] theorem State.advance_numSym : s.advance.numSym = s.numSym := rfl
@[simp] theorem State.advance_dmaxBits : s.advance.dmaxBits = s.dmaxBits := rfl
@[simp] theorem State.advance_dt : s.advance.dt = s.dt := rfl
@[simp] theorem State.advance_fill : s.advance.fill = s.fill := rfl
@[simp] theorem State.advance_win : s.advance.win = s.win := rfl
@[simp] theorem State.advance_remain : s.advance.remain = s.remain := rfl
@[simp] theorem State.advance_program : s.advance.program = s.program := rfl
@[simp] theorem State.advance_pos : s.advance.pos = s.pos + 1 := rfl
@[simp] theorem State.advance_bin : s.advance.bin = s.bin := rfl
@[simp] theorem State.advance_boutHost : s.advance.boutHost = s.boutHost := rfl
@[simp] theorem State.advance_bout : s.advance.bout = s.bout := rfl
@[simp] theorem State.advance_soutHost : s.advance.soutHost = s.soutHost := rfl
@[simp] theorem State.advance_sout : s.advance.sout = s.sout := rfl

end

/-! ## `State.took` -/

section
variable (s : State) (k : Nat)

@[simp] theorem State.took_status : (s.took k).status = s.status := rfl
@[simp] theorem State.took_resp : (s.took k).resp = s.resp := rfl
@[simp] theorem State.took_marker : (s.took k).marker = s.marker := rfl
@[simp] theorem State.took_outPos : (s.took k).outPos = s.outPos := rfl
@[simp] theorem State.took_inPos : (s.took k).inPos = s.inPos + BitVec.ofNat 32 k := rfl
@[simp] theorem State.took_wbuf : (s.took k).wbuf = s.wbuf := rfl
@[simp] theorem State.took_wcnt : (s.took k).wcnt = s.wcnt := rfl
@[simp] theorem State.took_rbuf : (s.took k).rbuf = s.rbuf := rfl
@[simp] theorem State.took_rcnt : (s.took k).rcnt = s.rcnt := rfl
@[simp] theorem State.took_len : (s.took k).len = s.len := rfl
@[simp] theorem State.took_code : (s.took k).code = s.code := rfl
@[simp] theorem State.took_clen : (s.took k).clen = s.clen := rfl
@[simp] theorem State.took_cpl : (s.took k).cpl = s.cpl := rfl
@[simp] theorem State.took_symlist : (s.took k).symlist = s.symlist := rfl
@[simp] theorem State.took_nsym : (s.took k).nsym = s.nsym := rfl
@[simp] theorem State.took_minBits : (s.took k).minBits = s.minBits := rfl
@[simp] theorem State.took_maxBits : (s.took k).maxBits = s.maxBits := rfl
@[simp] theorem State.took_encCnt : (s.took k).encCnt = s.encCnt := rfl
@[simp] theorem State.took_dcpl : (s.took k).dcpl = s.dcpl := rfl
@[simp] theorem State.took_dsyms : (s.took k).dsyms = s.dsyms := rfl
@[simp] theorem State.took_dnsym : (s.took k).dnsym = s.dnsym := rfl
@[simp] theorem State.took_numSym : (s.took k).numSym = s.numSym := rfl
@[simp] theorem State.took_dmaxBits : (s.took k).dmaxBits = s.dmaxBits := rfl
@[simp] theorem State.took_dt : (s.took k).dt = s.dt := rfl
@[simp] theorem State.took_fill : (s.took k).fill = s.fill := rfl
@[simp] theorem State.took_win : (s.took k).win = s.win := rfl
@[simp] theorem State.took_remain : (s.took k).remain = s.remain := rfl
@[simp] theorem State.took_program : (s.took k).program = s.program := rfl
@[simp] theorem State.took_pos : (s.took k).pos = s.pos := rfl
@[simp] theorem State.took_bin : (s.took k).bin = s.bin.skip k := rfl
@[simp] theorem State.took_boutHost : (s.took k).boutHost = s.boutHost := rfl
@[simp] theorem State.took_bout : (s.took k).bout = s.bout := rfl
@[simp] theorem State.took_soutHost : (s.took k).soutHost = s.soutHost := rfl
@[simp] theorem State.took_sout : (s.took k).sout = s.sout := rfl

end

/-! ## `State.tookToEnd` -/

section
variable (s : State) (k : Nat)

@[simp] theorem State.tookToEnd_status : (s.tookToEnd k).status = s.status := rfl
@[simp] theorem State.tookToEnd_resp : (s.tookToEnd k).resp = s.resp := rfl
@[simp] theorem State.tookToEnd_marker : (s.tookToEnd k).marker = s.marker := rfl
@[simp] theorem State.tookToEnd_outPos : (s.tookToEnd k).outPos = s.outPos := rfl
@[simp] theorem State.tookToEnd_inPos : (s.tookToEnd k).inPos = s.inPos + BitVec.ofNat 32 k := rfl
@[simp] theorem State.tookToEnd_wbuf : (s.tookToEnd k).wbuf = s.wbuf := rfl
@[simp] theorem State.tookToEnd_wcnt : (s.tookToEnd k).wcnt = s.wcnt := rfl
@[simp] theorem State.tookToEnd_rbuf : (s.tookToEnd k).rbuf = s.rbuf := rfl
@[simp] theorem State.tookToEnd_rcnt : (s.tookToEnd k).rcnt = s.rcnt := rfl
@[simp] theorem State.tookToEnd_len : (s.tookToEnd k).len = s.len := rfl
@[simp] theorem State.tookToEnd_code : (s.tookToEnd k).code = s.code := rfl
@[simp] theorem State.tookToEnd_clen : (s.tookToEnd k).clen = s.clen := rfl
@[simp] theorem State.tookToEnd_cpl : (s.tookToEnd k).cpl = s.cpl := rfl
@[simp] theorem State.tookToEnd_symlist : (s.tookToEnd k).symlist = s.symlist := rfl
@[simp] theorem State.tookToEnd_nsym : (s.tookToEnd k).nsym = s.nsym := rfl
@[simp] theorem State.tookToEnd_minBits : (s.tookToEnd k).minBits = s.minBits := rfl
@[simp] theorem State.tookToEnd_maxBits : (s.tookToEnd k).maxBits = s.maxBits := rfl
@[simp] theorem State.tookToEnd_encCnt : (s.tookToEnd k).encCnt = s.encCnt := rfl
@[simp] theorem State.tookToEnd_dcpl : (s.tookToEnd k).dcpl = s.dcpl := rfl
@[simp] theorem State.tookToEnd_dsyms : (s.tookToEnd k).dsyms = s.dsyms := rfl
@[simp] theorem State.tookToEnd_dnsym : (s.tookToEnd k).dnsym = s.dnsym := rfl
@[simp] theorem State.tookToEnd_numSym : (s.tookToEnd k).numSym = s.numSym := rfl
@[simp] theorem State.tookToEnd_dmaxBits : (s.tookToEnd k).dmaxBits = s.dmaxBits := rfl
@[simp] theorem State.tookToEnd_dt : (s.tookToEnd k).dt = s.dt := rfl
@[simp] theorem State.tookToEnd_fill : (s.tookToEnd k).fill = s.fill := rfl
@[simp] theorem State.tookToEnd_win : (s.tookToEnd k).win = s.win := rfl
@[simp] theorem State.tookToEnd_remain : (s.tookToEnd k).remain = s.remain := rfl
@[simp] theorem State.tookToEnd_program : (s.tookToEnd k).program = s.program := rfl
@[simp] theorem State.tookToEnd_pos : (s.tookToEnd k).pos = s.pos := rfl
@[simp] theorem State.tookToEnd_bin : (s.tookToEnd k).bin = s.bin.skip (k + 1) := rfl
@[simp] theorem State.tookToEnd_boutHost : (s.tookToEnd k).boutHost = s.boutHost := rfl
@[simp] theorem State.tookToEnd_bout : (s.tookToEnd k).bout = s.bout := rfl
@[simp] theorem State.tookToEnd_soutHost : (s.tookToEnd k).soutHost = s.soutHost := rfl
@[simp] theorem State.tookToEnd_sout : (s.tookToEnd k).sout = s.sout := rfl

end

/-! ## `State.gave` -/

section
variable (s : State) (bs : List Byte)

@[simp] theorem State.gave_status : (s.gave bs).status = s.status := rfl
@[simp] theorem State.gave_resp : (s.gave bs).resp = s.resp := rfl
@[simp] theorem State.gave_marker : (s.gave bs).marker = s.marker := rfl
@[simp] theorem State.gave_outPos : (s.gave bs).outPos = s.outPos + BitVec.ofNat 32 bs.length := rfl
@[simp] theorem State.gave_inPos : (s.gave bs).inPos = s.inPos := rfl
@[simp] theorem State.gave_wbuf : (s.gave bs).wbuf = s.wbuf := rfl
@[simp] theorem State.gave_wcnt : (s.gave bs).wcnt = s.wcnt := rfl
@[simp] theorem State.gave_rbuf : (s.gave bs).rbuf = s.rbuf := rfl
@[simp] theorem State.gave_rcnt : (s.gave bs).rcnt = s.rcnt := rfl
@[simp] theorem State.gave_len : (s.gave bs).len = s.len := rfl
@[simp] theorem State.gave_code : (s.gave bs).code = s.code := rfl
@[simp] theorem State.gave_clen : (s.gave bs).clen = s.clen := rfl
@[simp] theorem State.gave_cpl : (s.gave bs).cpl = s.cpl := rfl
@[simp] theorem State.gave_symlist : (s.gave bs).symlist = s.symlist := rfl
@[simp] theorem State.gave_nsym : (s.gave bs).nsym = s.nsym := rfl
@[simp] theorem State.gave_minBits : (s.gave bs).minBits = s.minBits := rfl
@[simp] theorem State.gave_maxBits : (s.gave bs).maxBits = s.maxBits := rfl
@[simp] theorem State.gave_encCnt : (s.gave bs).encCnt = s.encCnt := rfl
@[simp] theorem State.gave_dcpl : (s.gave bs).dcpl = s.dcpl := rfl
@[simp] theorem State.gave_dsyms : (s.gave bs).dsyms = s.dsyms := rfl
@[simp] theorem State.gave_dnsym : (s.gave bs).dnsym = s.dnsym := rfl
@[simp] theorem State.gave_numSym : (s.gave bs).numSym = s.numSym := rfl
@[simp] theorem State.gave_dmaxBits : (s.gave bs).dmaxBits = s.dmaxBits := rfl
@[simp] theorem State.gave_dt : (s.gave bs).dt = s.dt := rfl
@[simp] theorem State.gave_fill : (s.gave bs).fill = s.fill := rfl
@[simp] theorem State.gave_win : (s.gave bs).win = s.win := rfl
@[simp] theorem State.gave_remain : (s.gave bs).remain = s.remain := rfl
@[simp] theorem State.gave_program : (s.gave bs).program = s.program := rfl
@[simp] theorem State.gave_pos : (s.gave bs).pos = s.pos := rfl
@[simp] theorem State.gave_bin : (s.gave bs).bin = s.bin := rfl
@[simp] theorem State.gave_boutHost : (s.gave bs).boutHost = s.boutHost.skip bs.length := rfl
@[simp] theorem State.gave_bout : (s.gave bs).bout = s.bout ++ bs := rfl
@[simp] theorem State.gave_soutHost : (s.gave bs).soutHost = s.soutHost := rfl
@[simp] theorem State.gave_sout : (s.gave bs).sout = s.sout := rfl

end

/-! ## `State.gaveThenRefused` -/

section
variable (s : State) (bs : List Byte)

@[simp] theorem State.gaveThenRefused_status : (s.gaveThenRefused bs).status = s.status := rfl
@[simp] theorem State.gaveThenRefused_resp : (s.gaveThenRefused bs).resp = s.resp := rfl
@[simp] theorem State.gaveThenRefused_marker : (s.gaveThenRefused bs).marker = s.marker := rfl
@[simp] theorem State.gaveThenRefused_outPos : (s.gaveThenRefused bs).outPos = s.outPos + BitVec.ofNat 32 bs.length := rfl
@[simp] theorem State.gaveThenRefused_inPos : (s.gaveThenRefused bs).inPos = s.inPos := rfl
@[simp] theorem State.gaveThenRefused_wbuf : (s.gaveThenRefused bs).wbuf = s.wbuf := rfl
@[simp] theorem State.gaveThenRefused_wcnt : (s.gaveThenRefused bs).wcnt = s.wcnt := rfl
@[simp] theorem State.gaveThenRefused_rbuf : (s.gaveThenRefused bs).rbuf = s.rbuf := rfl
@[simp] theorem State.gaveThenRefused_rcnt : (s.gaveThenRefused bs).rcnt = s.rcnt := rfl
@[simp] theorem State.gaveThenRefused_len : (s.gaveThenRefused bs).len = s.len := rfl
@[simp] theorem State.gaveThenRefused_code : (s.gaveThenRefused bs).code = s.code := rfl
@[simp] theorem State.gaveThenRefused_clen : (s.gaveThenRefused bs).clen = s.clen := rfl
@[simp] theorem State.gaveThenRefused_cpl : (s.gaveThenRefused bs).cpl = s.cpl := rfl
@[simp] theorem State.gaveThenRefused_symlist : (s.gaveThenRefused bs).symlist = s.symlist := rfl
@[simp] theorem State.gaveThenRefused_nsym : (s.gaveThenRefused bs).nsym = s.nsym := rfl
@[simp] theorem State.gaveThenRefused_minBits : (s.gaveThenRefused bs).minBits = s.minBits := rfl
@[simp] theorem State.gaveThenRefused_maxBits : (s.gaveThenRefused bs).maxBits = s.maxBits := rfl
@[simp] theorem State.gaveThenRefused_encCnt : (s.gaveThenRefused bs).encCnt = s.encCnt := rfl
@[simp] theorem State.gaveThenRefused_dcpl : (s.gaveThenRefused bs).dcpl = s.dcpl := rfl
@[simp] theorem State.gaveThenRefused_dsyms : (s.gaveThenRefused bs).dsyms = s.dsyms := rfl
@[simp] theorem State.gaveThenRefused_dnsym : (s.gaveThenRefused bs).dnsym = s.dnsym := rfl
@[simp] theorem State.gaveThenRefused_numSym : (s.gaveThenRefused bs).numSym = s.numSym := rfl
@[simp] theorem State.gaveThenRefused_dmaxBits : (s.gaveThenRefused bs).dmaxBits = s.dmaxBits := rfl
@[simp] theorem State.gaveThenRefused_dt : (s.gaveThenRefused bs).dt = s.dt := rfl
@[simp] theorem State.gaveThenRefused_fill : (s.gaveThenRefused bs).fill = s.fill := rfl
@[simp] theorem State.gaveThenRefused_win : (s.gaveThenRefused bs).win = s.win := rfl
@[simp] theorem State.gaveThenRefused_remain : (s.gaveThenRefused bs).remain = s.remain := rfl
@[simp] theorem State.gaveThenRefused_program : (s.gaveThenRefused bs).program = s.program := rfl
@[simp] theorem State.gaveThenRefused_pos : (s.gaveThenRefused bs).pos = s.pos := rfl
@[simp] theorem State.gaveThenRefused_bin : (s.gaveThenRefused bs).bin = s.bin := rfl
@[simp] theorem State.gaveThenRefused_boutHost : (s.gaveThenRefused bs).boutHost = s.boutHost.skip (bs.length + 1) := rfl
@[simp] theorem State.gaveThenRefused_bout : (s.gaveThenRefused bs).bout = s.bout ++ bs := rfl
@[simp] theorem State.gaveThenRefused_soutHost : (s.gaveThenRefused bs).soutHost = s.soutHost := rfl
@[simp] theorem State.gaveThenRefused_sout : (s.gaveThenRefused bs).sout = s.sout := rfl

end

/-! ## `State.emitted` -/

section
variable (s : State) (ys : List Byte)

@[simp] theorem State.emitted_status : (s.emitted ys).status = s.status := rfl
@[simp] theorem State.emitted_resp : (s.emitted ys).resp = s.resp := rfl
@[simp] theorem State.emitted_marker : (s.emitted ys).marker = s.marker := rfl
@[simp] theorem State.emitted_outPos : (s.emitted ys).outPos = s.outPos := rfl
@[simp] theorem State.emitted_inPos : (s.emitted ys).inPos = s.inPos := rfl
@[simp] theorem State.emitted_wbuf : (s.emitted ys).wbuf = s.wbuf := rfl
@[simp] theorem State.emitted_wcnt : (s.emitted ys).wcnt = s.wcnt := rfl
@[simp] theorem State.emitted_rbuf : (s.emitted ys).rbuf = s.rbuf := rfl
@[simp] theorem State.emitted_rcnt : (s.emitted ys).rcnt = s.rcnt := rfl
@[simp] theorem State.emitted_len : (s.emitted ys).len = s.len := rfl
@[simp] theorem State.emitted_code : (s.emitted ys).code = s.code := rfl
@[simp] theorem State.emitted_clen : (s.emitted ys).clen = s.clen := rfl
@[simp] theorem State.emitted_cpl : (s.emitted ys).cpl = s.cpl := rfl
@[simp] theorem State.emitted_symlist : (s.emitted ys).symlist = s.symlist := rfl
@[simp] theorem State.emitted_nsym : (s.emitted ys).nsym = s.nsym := rfl
@[simp] theorem State.emitted_minBits : (s.emitted ys).minBits = s.minBits := rfl
@[simp] theorem State.emitted_maxBits : (s.emitted ys).maxBits = s.maxBits := rfl
@[simp] theorem State.emitted_encCnt : (s.emitted ys).encCnt = s.encCnt := rfl
@[simp] theorem State.emitted_dcpl : (s.emitted ys).dcpl = s.dcpl := rfl
@[simp] theorem State.emitted_dsyms : (s.emitted ys).dsyms = s.dsyms := rfl
@[simp] theorem State.emitted_dnsym : (s.emitted ys).dnsym = s.dnsym := rfl
@[simp] theorem State.emitted_numSym : (s.emitted ys).numSym = s.numSym := rfl
@[simp] theorem State.emitted_dmaxBits : (s.emitted ys).dmaxBits = s.dmaxBits := rfl
@[simp] theorem State.emitted_dt : (s.emitted ys).dt = s.dt := rfl
@[simp] theorem State.emitted_fill : (s.emitted ys).fill = s.fill := rfl
@[simp] theorem State.emitted_win : (s.emitted ys).win = s.win := rfl
@[simp] theorem State.emitted_remain : (s.emitted ys).remain = s.remain := rfl
@[simp] theorem State.emitted_program : (s.emitted ys).program = s.program := rfl
@[simp] theorem State.emitted_pos : (s.emitted ys).pos = s.pos := rfl
@[simp] theorem State.emitted_bin : (s.emitted ys).bin = s.bin := rfl
@[simp] theorem State.emitted_boutHost : (s.emitted ys).boutHost = s.boutHost := rfl
@[simp] theorem State.emitted_bout : (s.emitted ys).bout = s.bout := rfl
@[simp] theorem State.emitted_soutHost : (s.emitted ys).soutHost = s.soutHost.skip ys.length := rfl
@[simp] theorem State.emitted_sout : (s.emitted ys).sout = s.sout ++ ys := rfl

end

/-! ## `State.holdingBits` -/

section
variable (s : State) (bs : List Bool)

@[simp] theorem State.holdingBits_status : (s.holdingBits bs).status = s.status := rfl
@[simp] theorem State.holdingBits_resp : (s.holdingBits bs).resp = s.resp := rfl
@[simp] theorem State.holdingBits_marker : (s.holdingBits bs).marker = s.marker := rfl
@[simp] theorem State.holdingBits_outPos : (s.holdingBits bs).outPos = s.outPos := rfl
@[simp] theorem State.holdingBits_inPos : (s.holdingBits bs).inPos = s.inPos := rfl
@[simp] theorem State.holdingBits_wbuf : (s.holdingBits bs).wbuf = BitVec.ofNat 8 (bitsVal bs * 2 ^ (8 - bs.length)) := rfl
@[simp] theorem State.holdingBits_wcnt : (s.holdingBits bs).wcnt = BitVec.ofNat 3 bs.length := rfl
@[simp] theorem State.holdingBits_rbuf : (s.holdingBits bs).rbuf = s.rbuf := rfl
@[simp] theorem State.holdingBits_rcnt : (s.holdingBits bs).rcnt = s.rcnt := rfl
@[simp] theorem State.holdingBits_len : (s.holdingBits bs).len = s.len := rfl
@[simp] theorem State.holdingBits_code : (s.holdingBits bs).code = s.code := rfl
@[simp] theorem State.holdingBits_clen : (s.holdingBits bs).clen = s.clen := rfl
@[simp] theorem State.holdingBits_cpl : (s.holdingBits bs).cpl = s.cpl := rfl
@[simp] theorem State.holdingBits_symlist : (s.holdingBits bs).symlist = s.symlist := rfl
@[simp] theorem State.holdingBits_nsym : (s.holdingBits bs).nsym = s.nsym := rfl
@[simp] theorem State.holdingBits_minBits : (s.holdingBits bs).minBits = s.minBits := rfl
@[simp] theorem State.holdingBits_maxBits : (s.holdingBits bs).maxBits = s.maxBits := rfl
@[simp] theorem State.holdingBits_encCnt : (s.holdingBits bs).encCnt = s.encCnt := rfl
@[simp] theorem State.holdingBits_dcpl : (s.holdingBits bs).dcpl = s.dcpl := rfl
@[simp] theorem State.holdingBits_dsyms : (s.holdingBits bs).dsyms = s.dsyms := rfl
@[simp] theorem State.holdingBits_dnsym : (s.holdingBits bs).dnsym = s.dnsym := rfl
@[simp] theorem State.holdingBits_numSym : (s.holdingBits bs).numSym = s.numSym := rfl
@[simp] theorem State.holdingBits_dmaxBits : (s.holdingBits bs).dmaxBits = s.dmaxBits := rfl
@[simp] theorem State.holdingBits_dt : (s.holdingBits bs).dt = s.dt := rfl
@[simp] theorem State.holdingBits_fill : (s.holdingBits bs).fill = s.fill := rfl
@[simp] theorem State.holdingBits_win : (s.holdingBits bs).win = s.win := rfl
@[simp] theorem State.holdingBits_remain : (s.holdingBits bs).remain = s.remain := rfl
@[simp] theorem State.holdingBits_program : (s.holdingBits bs).program = s.program := rfl
@[simp] theorem State.holdingBits_pos : (s.holdingBits bs).pos = s.pos := rfl
@[simp] theorem State.holdingBits_bin : (s.holdingBits bs).bin = s.bin := rfl
@[simp] theorem State.holdingBits_boutHost : (s.holdingBits bs).boutHost = s.boutHost := rfl
@[simp] theorem State.holdingBits_bout : (s.holdingBits bs).bout = s.bout := rfl
@[simp] theorem State.holdingBits_soutHost : (s.holdingBits bs).soutHost = s.soutHost := rfl
@[simp] theorem State.holdingBits_sout : (s.holdingBits bs).sout = s.sout := rfl

end

/-! ## `State.readBitsOf` -/

section
variable (s : State) (n : Nat) (ds : List Byte)

@[simp] theorem State.readBitsOf_status : (s.readBitsOf n ds).status = s.status := rfl
@[simp] theorem State.readBitsOf_resp : (s.readBitsOf n ds).resp = s.resp := rfl
@[simp] theorem State.readBitsOf_marker : (s.readBitsOf n ds).marker = s.marker := rfl
@[simp] theorem State.readBitsOf_outPos : (s.readBitsOf n ds).outPos = s.outPos := rfl
@[simp] theorem State.readBitsOf_inPos : (s.readBitsOf n ds).inPos = s.inPos + BitVec.ofNat 32 (stuffed ds).length := rfl
@[simp] theorem State.readBitsOf_wbuf : (s.readBitsOf n ds).wbuf = s.wbuf := rfl
@[simp] theorem State.readBitsOf_wcnt : (s.readBitsOf n ds).wcnt = s.wcnt := rfl
@[simp] theorem State.readBitsOf_rbuf : (s.readBitsOf n ds).rbuf = ds.getLastD s.rbuf := rfl
@[simp] theorem State.readBitsOf_rcnt : (s.readBitsOf n ds).rcnt = BitVec.ofNat 4 (s.rcnt.toNat + 8 * ds.length - n) := rfl
@[simp] theorem State.readBitsOf_len : (s.readBitsOf n ds).len = s.len := rfl
@[simp] theorem State.readBitsOf_code : (s.readBitsOf n ds).code = s.code := rfl
@[simp] theorem State.readBitsOf_clen : (s.readBitsOf n ds).clen = s.clen := rfl
@[simp] theorem State.readBitsOf_cpl : (s.readBitsOf n ds).cpl = s.cpl := rfl
@[simp] theorem State.readBitsOf_symlist : (s.readBitsOf n ds).symlist = s.symlist := rfl
@[simp] theorem State.readBitsOf_nsym : (s.readBitsOf n ds).nsym = s.nsym := rfl
@[simp] theorem State.readBitsOf_minBits : (s.readBitsOf n ds).minBits = s.minBits := rfl
@[simp] theorem State.readBitsOf_maxBits : (s.readBitsOf n ds).maxBits = s.maxBits := rfl
@[simp] theorem State.readBitsOf_encCnt : (s.readBitsOf n ds).encCnt = s.encCnt := rfl
@[simp] theorem State.readBitsOf_dcpl : (s.readBitsOf n ds).dcpl = s.dcpl := rfl
@[simp] theorem State.readBitsOf_dsyms : (s.readBitsOf n ds).dsyms = s.dsyms := rfl
@[simp] theorem State.readBitsOf_dnsym : (s.readBitsOf n ds).dnsym = s.dnsym := rfl
@[simp] theorem State.readBitsOf_numSym : (s.readBitsOf n ds).numSym = s.numSym := rfl
@[simp] theorem State.readBitsOf_dmaxBits : (s.readBitsOf n ds).dmaxBits = s.dmaxBits := rfl
@[simp] theorem State.readBitsOf_dt : (s.readBitsOf n ds).dt = s.dt := rfl
@[simp] theorem State.readBitsOf_fill : (s.readBitsOf n ds).fill = s.fill := rfl
@[simp] theorem State.readBitsOf_win : (s.readBitsOf n ds).win = s.win := rfl
@[simp] theorem State.readBitsOf_remain : (s.readBitsOf n ds).remain = s.remain := rfl
@[simp] theorem State.readBitsOf_program : (s.readBitsOf n ds).program = s.program := rfl
@[simp] theorem State.readBitsOf_pos : (s.readBitsOf n ds).pos = s.pos := rfl
@[simp] theorem State.readBitsOf_bin : (s.readBitsOf n ds).bin = s.bin.skip (stuffed ds).length := rfl
@[simp] theorem State.readBitsOf_boutHost : (s.readBitsOf n ds).boutHost = s.boutHost := rfl
@[simp] theorem State.readBitsOf_bout : (s.readBitsOf n ds).bout = s.bout := rfl
@[simp] theorem State.readBitsOf_soutHost : (s.readBitsOf n ds).soutHost = s.soutHost := rfl
@[simp] theorem State.readBitsOf_sout : (s.readBitsOf n ds).sout = s.sout := rfl

end

/-! ## `beginBuild` -/

section
variable (s : State)

@[simp] theorem beginBuild_err : (beginBuild s).status.err = s.status.err := rfl
@[simp] theorem beginBuild_encReady : (beginBuild s).status.encReady = false := rfl
@[simp] theorem beginBuild_hdrValid : (beginBuild s).status.hdrValid = s.status.hdrValid := rfl
@[simp] theorem beginBuild_decReady : (beginBuild s).status.decReady = s.status.decReady := rfl
@[simp] theorem beginBuild_seeded : (beginBuild s).status.seeded = s.status.seeded := rfl
@[simp] theorem beginBuild_warnLong : (beginBuild s).status.warnLong = someLong s.len := rfl
@[simp] theorem beginBuild_warnIncomplete : (beginBuild s).status.warnIncomplete = s.status.warnIncomplete := rfl
@[simp] theorem beginBuild_errOp : (beginBuild s).status.errOp = s.status.errOp := rfl
@[simp] theorem beginBuild_resp : (beginBuild s).resp = s.resp := rfl
@[simp] theorem beginBuild_marker : (beginBuild s).marker = s.marker := rfl
@[simp] theorem beginBuild_outPos : (beginBuild s).outPos = s.outPos := rfl
@[simp] theorem beginBuild_inPos : (beginBuild s).inPos = s.inPos := rfl
@[simp] theorem beginBuild_wbuf : (beginBuild s).wbuf = s.wbuf := rfl
@[simp] theorem beginBuild_wcnt : (beginBuild s).wcnt = s.wcnt := rfl
@[simp] theorem beginBuild_rbuf : (beginBuild s).rbuf = s.rbuf := rfl
@[simp] theorem beginBuild_rcnt : (beginBuild s).rcnt = s.rcnt := rfl
@[simp] theorem beginBuild_len : (beginBuild s).len = s.len := rfl
@[simp] theorem beginBuild_code : (beginBuild s).code = s.code := rfl
@[simp] theorem beginBuild_clen : (beginBuild s).clen = s.clen := rfl
@[simp] theorem beginBuild_cpl : (beginBuild s).cpl = s.cpl := rfl
@[simp] theorem beginBuild_symlist : (beginBuild s).symlist = s.symlist := rfl
@[simp] theorem beginBuild_nsym : (beginBuild s).nsym = s.nsym := rfl
@[simp] theorem beginBuild_minBits : (beginBuild s).minBits = s.minBits := rfl
@[simp] theorem beginBuild_maxBits : (beginBuild s).maxBits = s.maxBits := rfl
@[simp] theorem beginBuild_encCnt : (beginBuild s).encCnt = s.encCnt := rfl
@[simp] theorem beginBuild_dcpl : (beginBuild s).dcpl = s.dcpl := rfl
@[simp] theorem beginBuild_dsyms : (beginBuild s).dsyms = s.dsyms := rfl
@[simp] theorem beginBuild_dnsym : (beginBuild s).dnsym = s.dnsym := rfl
@[simp] theorem beginBuild_numSym : (beginBuild s).numSym = s.numSym := rfl
@[simp] theorem beginBuild_dmaxBits : (beginBuild s).dmaxBits = s.dmaxBits := rfl
@[simp] theorem beginBuild_dt : (beginBuild s).dt = s.dt := rfl
@[simp] theorem beginBuild_fill : (beginBuild s).fill = s.fill := rfl
@[simp] theorem beginBuild_win : (beginBuild s).win = s.win := rfl
@[simp] theorem beginBuild_remain : (beginBuild s).remain = s.remain := rfl
@[simp] theorem beginBuild_program : (beginBuild s).program = s.program := rfl
@[simp] theorem beginBuild_pos : (beginBuild s).pos = s.pos := rfl
@[simp] theorem beginBuild_bin : (beginBuild s).bin = s.bin := rfl
@[simp] theorem beginBuild_boutHost : (beginBuild s).boutHost = s.boutHost := rfl
@[simp] theorem beginBuild_bout : (beginBuild s).bout = s.bout := rfl
@[simp] theorem beginBuild_soutHost : (beginBuild s).soutHost = s.soutHost := rfl
@[simp] theorem beginBuild_sout : (beginBuild s).sout = s.sout := rfl

end

/-! ## `installCode` -/

section
variable (r : CanonAcc) (s : State)

@[simp] theorem installCode_err : (installCode r s).status.err = s.status.err := rfl
@[simp] theorem installCode_encReady : (installCode r s).status.encReady = true := rfl
@[simp] theorem installCode_hdrValid : (installCode r s).status.hdrValid = s.status.hdrValid := rfl
@[simp] theorem installCode_decReady : (installCode r s).status.decReady = s.status.decReady := rfl
@[simp] theorem installCode_seeded : (installCode r s).status.seeded = s.status.seeded := rfl
@[simp] theorem installCode_warnLong : (installCode r s).status.warnLong = s.status.warnLong := rfl
@[simp] theorem installCode_warnIncomplete : (installCode r s).status.warnIncomplete = s.status.warnIncomplete := rfl
@[simp] theorem installCode_errOp : (installCode r s).status.errOp = s.status.errOp := rfl
@[simp] theorem installCode_resp : (installCode r s).resp = s.resp := rfl
@[simp] theorem installCode_marker : (installCode r s).marker = s.marker := rfl
@[simp] theorem installCode_outPos : (installCode r s).outPos = s.outPos := rfl
@[simp] theorem installCode_inPos : (installCode r s).inPos = s.inPos := rfl
@[simp] theorem installCode_wbuf : (installCode r s).wbuf = s.wbuf := rfl
@[simp] theorem installCode_wcnt : (installCode r s).wcnt = s.wcnt := rfl
@[simp] theorem installCode_rbuf : (installCode r s).rbuf = s.rbuf := rfl
@[simp] theorem installCode_rcnt : (installCode r s).rcnt = s.rcnt := rfl
@[simp] theorem installCode_len : (installCode r s).len = s.len := rfl
@[simp] theorem installCode_code : (installCode r s).code = r.code := rfl
@[simp] theorem installCode_clen : (installCode r s).clen = r.clen := rfl
@[simp] theorem installCode_cpl : (installCode r s).cpl = r.cpl := rfl
@[simp] theorem installCode_symlist : (installCode r s).symlist = Table.setMany 0 s.symlist 0 r.syms := rfl
@[simp] theorem installCode_nsym : (installCode r s).nsym = BitVec.ofNat 9 r.syms.length := rfl
@[simp] theorem installCode_minBits : (installCode r s).minBits = BitVec.ofNat 5 (leastClass r.cpl) := rfl
@[simp] theorem installCode_maxBits : (installCode r s).maxBits = BitVec.ofNat 5 (greatestClass r.cpl) := rfl
@[simp] theorem installCode_encCnt : (installCode r s).encCnt = s.encCnt := rfl
@[simp] theorem installCode_dcpl : (installCode r s).dcpl = s.dcpl := rfl
@[simp] theorem installCode_dsyms : (installCode r s).dsyms = s.dsyms := rfl
@[simp] theorem installCode_dnsym : (installCode r s).dnsym = s.dnsym := rfl
@[simp] theorem installCode_numSym : (installCode r s).numSym = s.numSym := rfl
@[simp] theorem installCode_dmaxBits : (installCode r s).dmaxBits = s.dmaxBits := rfl
@[simp] theorem installCode_dt : (installCode r s).dt = s.dt := rfl
@[simp] theorem installCode_fill : (installCode r s).fill = s.fill := rfl
@[simp] theorem installCode_win : (installCode r s).win = s.win := rfl
@[simp] theorem installCode_remain : (installCode r s).remain = s.remain := rfl
@[simp] theorem installCode_program : (installCode r s).program = s.program := rfl
@[simp] theorem installCode_pos : (installCode r s).pos = s.pos := rfl
@[simp] theorem installCode_bin : (installCode r s).bin = s.bin := rfl
@[simp] theorem installCode_boutHost : (installCode r s).boutHost = s.boutHost := rfl
@[simp] theorem installCode_bout : (installCode r s).bout = s.bout := rfl
@[simp] theorem installCode_soutHost : (installCode r s).soutHost = s.soutHost := rfl
@[simp] theorem installCode_sout : (installCode r s).sout = s.sout := rfl

end

/-! ## `installHeader` -/

section
variable (h y c : List Byte) (s : State)

@[simp] theorem installHeader_err : (installHeader h y c s).status.err = s.status.err := rfl
@[simp] theorem installHeader_encReady : (installHeader h y c s).status.encReady = s.status.encReady := rfl
@[simp] theorem installHeader_hdrValid : (installHeader h y c s).status.hdrValid = true := rfl
@[simp] theorem installHeader_decReady : (installHeader h y c s).status.decReady = s.status.decReady := rfl
@[simp] theorem installHeader_seeded : (installHeader h y c s).status.seeded = s.status.seeded := rfl
@[simp] theorem installHeader_warnLong : (installHeader h y c s).status.warnLong = s.status.warnLong := rfl
@[simp] theorem installHeader_warnIncomplete : (installHeader h y c s).status.warnIncomplete = s.status.warnIncomplete := rfl
@[simp] theorem installHeader_errOp : (installHeader h y c s).status.errOp = s.status.errOp := rfl
@[simp] theorem installHeader_resp : (installHeader h y c s).resp = s.resp := rfl
@[simp] theorem installHeader_marker : (installHeader h y c s).marker = s.marker := rfl
@[simp] theorem installHeader_outPos : (installHeader h y c s).outPos = s.outPos := rfl
@[simp] theorem installHeader_inPos : (installHeader h y c s).inPos = s.inPos := rfl
@[simp] theorem installHeader_wbuf : (installHeader h y c s).wbuf = s.wbuf := rfl
@[simp] theorem installHeader_wcnt : (installHeader h y c s).wcnt = s.wcnt := rfl
@[simp] theorem installHeader_rbuf : (installHeader h y c s).rbuf = s.rbuf := rfl
@[simp] theorem installHeader_rcnt : (installHeader h y c s).rcnt = s.rcnt := rfl
@[simp] theorem installHeader_len : (installHeader h y c s).len = s.len := rfl
@[simp] theorem installHeader_code : (installHeader h y c s).code = s.code := rfl
@[simp] theorem installHeader_clen : (installHeader h y c s).clen = s.clen := rfl
@[simp] theorem installHeader_cpl : (installHeader h y c s).cpl = s.cpl := rfl
@[simp] theorem installHeader_symlist : (installHeader h y c s).symlist = s.symlist := rfl
@[simp] theorem installHeader_nsym : (installHeader h y c s).nsym = s.nsym := rfl
@[simp] theorem installHeader_minBits : (installHeader h y c s).minBits = s.minBits := rfl
@[simp] theorem installHeader_maxBits : (installHeader h y c s).maxBits = s.maxBits := rfl
@[simp] theorem installHeader_encCnt : (installHeader h y c s).encCnt = s.encCnt := rfl
@[simp] theorem installHeader_dcpl : (installHeader h y c s).dcpl = Table.setMany 0 s.dcpl 1 (hdrCounts h) := rfl
@[simp] theorem installHeader_dsyms : (installHeader h y c s).dsyms = Table.setMany 0 s.dsyms 0 y := rfl
@[simp] theorem installHeader_dnsym : (installHeader h y c s).dnsym = BitVec.ofNat 9 (hdrTotal h) := rfl
@[simp] theorem installHeader_numSym : (installHeader h y c s).numSym = wordBE c := rfl
@[simp] theorem installHeader_dmaxBits : (installHeader h y c s).dmaxBits = s.dmaxBits := rfl
@[simp] theorem installHeader_dt : (installHeader h y c s).dt = s.dt := rfl
@[simp] theorem installHeader_fill : (installHeader h y c s).fill = s.fill := rfl
@[simp] theorem installHeader_win : (installHeader h y c s).win = s.win := rfl
@[simp] theorem installHeader_remain : (installHeader h y c s).remain = s.remain := rfl
@[simp] theorem installHeader_program : (installHeader h y c s).program = s.program := rfl
@[simp] theorem installHeader_pos : (installHeader h y c s).pos = s.pos := rfl
@[simp] theorem installHeader_bin : (installHeader h y c s).bin = s.bin := rfl
@[simp] theorem installHeader_boutHost : (installHeader h y c s).boutHost = s.boutHost := rfl
@[simp] theorem installHeader_bout : (installHeader h y c s).bout = s.bout := rfl
@[simp] theorem installHeader_soutHost : (installHeader h y c s).soutHost = s.soutHost := rfl
@[simp] theorem installHeader_sout : (installHeader h y c s).sout = s.sout := rfl

end

/-! ## `installTable` -/

section
variable (s : State)

@[simp] theorem installTable_err : (installTable s).status.err = s.status.err := rfl
@[simp] theorem installTable_encReady : (installTable s).status.encReady = s.status.encReady := rfl
@[simp] theorem installTable_hdrValid : (installTable s).status.hdrValid = s.status.hdrValid := rfl
@[simp] theorem installTable_decReady : (installTable s).status.decReady = false := rfl
@[simp] theorem installTable_seeded : (installTable s).status.seeded = false := rfl
@[simp] theorem installTable_warnLong : (installTable s).status.warnLong = s.status.warnLong := rfl
@[simp] theorem installTable_warnIncomplete : (installTable s).status.warnIncomplete = false := rfl
@[simp] theorem installTable_errOp : (installTable s).status.errOp = s.status.errOp := rfl
@[simp] theorem installTable_resp : (installTable s).resp = s.resp := rfl
@[simp] theorem installTable_marker : (installTable s).marker = s.marker := rfl
@[simp] theorem installTable_outPos : (installTable s).outPos = s.outPos := rfl
@[simp] theorem installTable_inPos : (installTable s).inPos = s.inPos := rfl
@[simp] theorem installTable_wbuf : (installTable s).wbuf = s.wbuf := rfl
@[simp] theorem installTable_wcnt : (installTable s).wcnt = s.wcnt := rfl
@[simp] theorem installTable_rbuf : (installTable s).rbuf = s.rbuf := rfl
@[simp] theorem installTable_rcnt : (installTable s).rcnt = s.rcnt := rfl
@[simp] theorem installTable_len : (installTable s).len = s.len := rfl
@[simp] theorem installTable_code : (installTable s).code = s.code := rfl
@[simp] theorem installTable_clen : (installTable s).clen = s.clen := rfl
@[simp] theorem installTable_cpl : (installTable s).cpl = s.cpl := rfl
@[simp] theorem installTable_symlist : (installTable s).symlist = s.symlist := rfl
@[simp] theorem installTable_nsym : (installTable s).nsym = s.nsym := rfl
@[simp] theorem installTable_minBits : (installTable s).minBits = s.minBits := rfl
@[simp] theorem installTable_maxBits : (installTable s).maxBits = s.maxBits := rfl
@[simp] theorem installTable_encCnt : (installTable s).encCnt = s.encCnt := rfl
@[simp] theorem installTable_dcpl : (installTable s).dcpl = s.dcpl := rfl
@[simp] theorem installTable_dsyms : (installTable s).dsyms = s.dsyms := rfl
@[simp] theorem installTable_dnsym : (installTable s).dnsym = s.dnsym := rfl
@[simp] theorem installTable_numSym : (installTable s).numSym = s.numSym := rfl
@[simp] theorem installTable_dmaxBits : (installTable s).dmaxBits = BitVec.ofNat 5 (greatestClass s.dcpl) := rfl
@[simp] theorem installTable_dt : (installTable s).dt = (buildTable s.dcpl s.dsyms s.dt).acc.dt := rfl
@[simp] theorem installTable_fill : (installTable s).fill = BitVec.ofNat 17 (buildTable s.dcpl s.dsyms s.dt).acc.cur := rfl
@[simp] theorem installTable_win : (installTable s).win = s.win := rfl
@[simp] theorem installTable_remain : (installTable s).remain = s.remain := rfl
@[simp] theorem installTable_program : (installTable s).program = s.program := rfl
@[simp] theorem installTable_pos : (installTable s).pos = s.pos := rfl
@[simp] theorem installTable_bin : (installTable s).bin = s.bin := rfl
@[simp] theorem installTable_boutHost : (installTable s).boutHost = s.boutHost := rfl
@[simp] theorem installTable_bout : (installTable s).bout = s.bout := rfl
@[simp] theorem installTable_soutHost : (installTable s).soutHost = s.soutHost := rfl
@[simp] theorem installTable_sout : (installTable s).sout = s.sout := rfl

end

end Sys2Proof.Machine
end

