-- ==== Sys2Proof/Laws/Ops.lean ====
section
/-! SUPPORT. The laws of the shared operations of Machine/Ops.lean: how a command in progress runs, the ports in the host's
answers by number, and for each primitive one lemma that says everything it can do. -/

namespace Sys2Proof.Machine

/-! ## Running a command -/

section
variable {α β : Type} (s t : State) (a : α) (e : Err) (f : Fault)

@[simp] theorem Cmd.pure_apply : (pure a : Cmd α) s = .ok a s := rfl
theorem Cmd.bind_apply (x : Cmd α) (g : α → Cmd β) :
    (x >>= g) s = match x s with
      | .ok a t => g a t
      | .error r t => .error r t := by
  change EStateM.bind x g s = _
  unfold EStateM.bind
  cases x s <;> rfl
@[simp] theorem Cmd.get_apply : (get : Cmd State) s = .ok s s := rfl
@[simp] theorem Cmd.set_apply : (set t : Cmd PUnit) s = .ok () t := rfl
@[simp] theorem Cmd.modify_apply (g : State → State) : (modify g : Cmd PUnit) s = .ok () (g s) := rfl
@[simp] theorem Cmd.throw_apply (r : Stop) : (throw r : Cmd α) s = .error r s := rfl
@[simp] theorem raiseErr_apply : (raiseErr e : Cmd α) s = .error (.raised e) s := rfl
@[simp] theorem finish_ok (op : Byte) : finish op (.ok () s) = .next s := rfl
@[simp] theorem finish_raised (op : Byte) : finish op (.error (.raised e) s) = .next (s.raise e op) := rfl
@[simp] theorem finish_stalled (op : Byte) : finish op (.error (.stalled f) s) = .fault f := rfl

theorem Cmd.bind_ok {x : Cmd α} {g : α → Cmd β} {s t : State} {a : α} (h : x s = .ok a t) : (x >>= g) s = g a t := by
  rw [Cmd.bind_apply, h]

theorem Cmd.bind_error {x : Cmd α} {g : α → Cmd β} {s t : State} {r : Stop} (h : x s = .error r t) :
    (x >>= g) s = .error r t := by
  rw [Cmd.bind_apply, h]

theorem require_true (s : State) {c : Bool} (e : Err) (h : c = true) : require c e s = .ok () s := by simp [require, h]

theorem require_false (s : State) {c : Bool} (e : Err) (h : c = false) : require c e s = .error (.raised e) s := by
  simp [require, h]

end

/-- Everything a gated command can do when it answers a next state (R300, R310, R312). -/
theorem runGated_next {o : Opcode} {x : Cmd Unit} {s t : State} (h : runGated o x s = .next t) :
    (s.status.err ≠ 0 ∧ t = s) ∨
    (s.status.err = 0 ∧ x s = .ok () t) ∨
    (s.status.err = 0 ∧ ∃ e u, x s = .error (.raised e) u ∧ t = u.raise e o.byte) := by
  unfold runGated at h
  split at h
  · rename_i h0
    rcases hx : x s with ⟨⟨⟩, u⟩ | ⟨e | f, u⟩ <;> rw [hx] at h
    · exact .inr (.inl ⟨h0, by cases h; rfl⟩)
    · exact .inr (.inr ⟨h0, e, u, rfl, by cases h; rfl⟩)
    · cases h
  · exact .inl ⟨‹_›, by cases h; rfl⟩

theorem runGated_ok {o : Opcode} {x : Cmd Unit} {s t : State} (h0 : s.status.err = 0) (h : x s = .ok () t) :
    runGated o x s = .next t := by
  rw [runGated, if_pos h0, h, finish_ok]

theorem runGated_raised {o : Opcode} {x : Cmd Unit} {s t : State} {e : Err} (h0 : s.status.err = 0)
    (h : x s = .error (.raised e) t) : runGated o x s = .next (t.raise e o.byte) := by
  rw [runGated, if_pos h0, h, finish_raised]

theorem runGated_stalled {o : Opcode} {x : Cmd Unit} {s t : State} {f : Fault} (h0 : s.status.err = 0)
    (h : x s = .error (.stalled f) t) : runGated o x s = .fault f := by
  rw [runGated, if_pos h0, h, finish_stalled]

/-- The only way a gated command ends in a fault: a request of its rule that the host never answers (R271; log 5). -/
theorem runGated_fault {o : Opcode} {x : Cmd Unit} {s : State} {f : Fault} (h : runGated o x s = .fault f) :
    s.status.err = 0 ∧ ∃ u, x s = .error (.stalled f) u := by
  unfold runGated at h
  split at h
  · rename_i h0
    rcases hx : x s with ⟨⟨⟩, u⟩ | ⟨e | g, u⟩ <;> rw [hx] at h <;> cases h
    exact ⟨h0, u, rfl⟩
  · cases h

theorem runGated_dropped {o : Opcode} {x : Cmd Unit} {s : State} (h : s.status.err ≠ 0) : runGated o x s = .next s := by
  rw [runGated, if_neg h]

/-- A raised error is the spec's `raise` with the error's code (R310). -/
theorem State.raise_eq_failed (s : State) (e : Err) (op : Byte) : s.raise e op = s.failed e.code op := rfl

/-! ## The host's answers by number -/

section
variable {α : Type} (a : Answers α) (j k : Nat)

@[simp] theorem Answers.skip_zero : a.skip 0 = a := by simp [Answers.skip]

@[simp] theorem Answers.skip_skip : (a.skip j).skip k = a.skip (j + k) := by
  simp [Answers.skip]

@[simp] theorem Answers.skip_rest : (a.skip k).rest = a.rest := rfl

@[simp] theorem Answers.nth_skip : (a.skip k).nth j = a.nth (k + j) := by simp [Answers.nth, Answers.skip]

/-- One request: the answer number 0, and the answers after it. -/
theorem Answers.ask_eq : a.ask = (a.nth 0).map fun x => (x, a.skip 1) := by
  obtain ⟨xs, r⟩ := a
  cases xs with
  | nil => cases r <;> rfl
  | cons x xs => rfl

/-- A host that answers for ever has an answer to every request. -/
theorem Answers.nth_ne_none (h : a.rest ≠ none) : a.nth k ≠ none := by
  unfold Answers.nth
  split <;> simp [h]

end

/-! ## The ports (R64, R65, R66) -/

/-- Everything `rawIn` can do. -/
theorem rawIn_apply (s : State) :
    rawIn s = match s.bin.nth 0 with
      | some (.byte b) => .ok b (s.took 1)
      | some .endOfStream => .error (.raised .ioRead) (s.tookToEnd 0)
      | none => .error (.stalled .binStalled) s := by
  have h := s.bin.ask_eq
  rcases hn : s.bin.nth 0 with _ | ⟨b | _⟩ <;> rw [hn] at h <;> simp only [rawIn, Cmd.bind_apply, Cmd.get_apply, h, Option.map]
  · rfl
  · rfl
  · simp [State.tookToEnd]

/-- Everything `rawOut` can do. -/
theorem rawOut_apply (b : Byte) (s : State) :
    rawOut b s = match s.boutHost.nth 0 with
      | some .accept => .ok () (s.gave [b])
      | some .fail => .error (.raised .ioWrite) (s.gaveThenRefused [])
      | none => .error (.stalled .boutStalled) s := by
  have h := s.boutHost.ask_eq
  rcases hn : s.boutHost.nth 0 with _ | ⟨_ | _⟩ <;> rw [hn] at h <;>
    simp only [rawOut, Cmd.bind_apply, Cmd.get_apply, h]
  · rfl
  · rfl
  · simp [State.gaveThenRefused, State.gave, Cmd.bind_apply]

/-- Everything `symOut` can do. -/
theorem symOut_apply (y : Byte) (s : State) :
    symOut y s = match s.soutHost.nth 0 with
      | some .accept => .ok () (s.emitted [y])
      | none => .error (.stalled .soutStalled) s := by
  have h := s.soutHost.ask_eq
  rcases hn : s.soutHost.nth 0 with _ | ⟨_⟩ <;> rw [hn] at h <;> simp only [symOut, Cmd.bind_apply, Cmd.get_apply, h] <;> rfl

/-! ## Transfers compose -/

section
variable (s : State) (j k : Nat) (bs cs : List Byte)

@[simp] theorem State.took_zero : s.took 0 = s := by simp [State.took]

@[simp] theorem State.took_took : (s.took j).took k = s.took (j + k) := by
  simp [State.took, BitVec.ofNat_add, BitVec.add_assoc]

@[simp] theorem State.took_tookToEnd : (s.took j).tookToEnd k = s.tookToEnd (j + k) := by
  simp [State.took, State.tookToEnd, BitVec.ofNat_add, BitVec.add_assoc, Nat.add_assoc]

@[simp] theorem State.gave_nil : s.gave [] = s := by simp [State.gave]

@[simp] theorem State.gave_gave : (s.gave bs).gave cs = s.gave (bs ++ cs) := by
  simp [State.gave, BitVec.ofNat_add, BitVec.add_assoc]

@[simp] theorem State.gave_gaveThenRefused : (s.gave bs).gaveThenRefused cs = s.gaveThenRefused (bs ++ cs) := by
  simp [State.gave, State.gaveThenRefused, BitVec.ofNat_add, BitVec.add_assoc, Nat.add_assoc]

@[simp] theorem State.emitted_nil : s.emitted [] = s := by simp [State.emitted]

@[simp] theorem State.emitted_emitted : (s.emitted bs).emitted cs = s.emitted (bs ++ cs) := by
  simp [State.emitted]

end

/-! ## The framer's primitives (R120, R121) -/

theorem stuffed_cons (b : Byte) (bs : List Byte) : stuffed (b :: bs) = stuffed [b] ++ stuffed bs := by simp [stuffed]

theorem stuffed_append (bs cs : List Byte) : stuffed (bs ++ cs) = stuffed bs ++ stuffed cs := by simp [stuffed]

/-- Everything `stuffOut` can do. -/
theorem stuffOut_apply (b : Byte) (s : State) :
    stuffOut b s = match s.boutHost.nth 0 with
      | some .accept =>
        if b = 0xFF then match s.boutHost.nth 1 with
          | some .accept => .ok () (s.gave [b, 0x00])
          | some .fail => .error (.raised .ioWrite) (s.gaveThenRefused [b])
          | none => .error (.stalled .boutStalled) (s.gave [b])
        else .ok () (s.gave [b])
      | some .fail => .error (.raised .ioWrite) (s.gaveThenRefused [])
      | none => .error (.stalled .boutStalled) s := by
  rw [stuffOut, Cmd.bind_apply, rawOut_apply]
  rcases s.boutHost.nth 0 with _ | ⟨_ | _⟩
  · rfl
  · by_cases hb : b = 0xFF
    · simp only [hb, if_true, rawOut_apply, State.gave_boutHost, List.length_singleton, Answers.nth_skip]
      rcases s.boutHost.nth 1 with _ | ⟨_ | _⟩ <;> simp
    · simp only [hb, if_false]
      rfl
  · rfl

/-- Everything `unstuffIn` can do. -/
theorem unstuffIn_apply (s : State) :
    unstuffIn s = match s.bin.nth 0 with
      | some (.byte b) =>
        if b = 0xFF then match s.bin.nth 1 with
          | some (.byte x) =>
            if x = 0x00 then .ok b (s.took 2) else .error (.raised .marker) { s.took 2 with marker := x }
          | some .endOfStream => .error (.raised .ioRead) (s.tookToEnd 1)
          | none => .error (.stalled .binStalled) (s.took 1)
        else .ok b (s.took 1)
      | some .endOfStream => .error (.raised .ioRead) (s.tookToEnd 0)
      | none => .error (.stalled .binStalled) s := by
  rw [unstuffIn, Cmd.bind_apply, rawIn_apply]
  rcases s.bin.nth 0 with _ | ⟨b | _⟩
  · rfl
  · by_cases hb : b = 0xFF
    · simp only [hb, if_true, Cmd.bind_apply, rawIn_apply, State.took_bin, Answers.nth_skip]
      rcases s.bin.nth 1 with _ | ⟨x | _⟩
      · rfl
      · by_cases hx : x = 0x00
        · simp only [hx, if_true, State.took_took]
          rfl
        · simp only [hx, if_false, State.took_took, Cmd.bind_apply, Cmd.modify_apply, raiseErr_apply]
          rfl
      · simp only [State.took_tookToEnd]
    · simp only [hb, if_false]
      rfl
  · rfl

/-! ## The bit writer and the bit reader, one bit at a time (R150, R200) -/

/-- `WriteBit` within a byte. -/
theorem writeBit_within (bit : Bool) (s : State) (h : s.wcnt ≠ 7) :
    writeBit bit s = .ok () { s with wbuf := putBit s.wbuf (7 - s.wcnt.toNat) bit, wcnt := s.wcnt + 1 } := by
  simp only [writeBit, Cmd.bind_apply, Cmd.get_apply, if_neg h, Cmd.set_apply]

/-- `WriteBit` of the last bit of a byte: the buffer is cleared, then the byte is stuffed out. -/
theorem writeBit_last (bit : Bool) (s : State) (h : s.wcnt = 7) :
    writeBit bit s = stuffOut (putBit s.wbuf 0 bit) { s with wbuf := 0, wcnt := 0 } := by
  simp only [writeBit, Cmd.bind_apply, Cmd.get_apply, h, if_true, Cmd.set_apply]
  rfl

/-- `ReadBit` from the buffered byte. -/
theorem readBit_within (s : State) (h : s.rcnt ≠ 0) :
    readBit s = .ok (s.rbuf.getLsbD (s.rcnt.toNat - 1)) { s with rcnt := s.rcnt - 1 } := by
  simp only [readBit, Cmd.bind_apply, Cmd.get_apply, if_neg h, Cmd.set_apply, Cmd.pure_apply]

/-- `ReadBit` that takes a new data byte. -/
theorem readBit_fetch (s : State) (h : s.rcnt = 0) :
    readBit s = match unstuffIn s with
      | .ok b t => .ok (b.getLsbD 7) { t with rbuf := b, rcnt := 7 }
      | .error r t => .error r t := by
  simp only [readBit, Cmd.bind_apply, Cmd.get_apply, h, if_true]
  cases unstuffIn s <;> rfl

/-! ## What a command in progress may change -/

/-- The state a command in progress leaves, completed or stopped. -/
abbrev Cmd.stateAfter {α : Type} (x : Cmd α) (s : State) : State :=
  match x s with
  | .ok _ t => t
  | .error _ t => t

/-- Whatever happens, the command leaves a state that `R` relates to the first one. -/
def Cmd.Keeps {α : Type} (R : State → State → Prop) (x : Cmd α) : Prop := ∀ s, R s (x.stateAfter s)

theorem Cmd.Keeps.pure {α : Type} {R : State → State → Prop} (hr : ∀ s, R s s) (a : α) : Cmd.Keeps R (Pure.pure a : Cmd α) :=
  fun s => hr s

theorem Cmd.Keeps.throw {α : Type} {R : State → State → Prop} (hr : ∀ s, R s s) (r : Stop) :
    Cmd.Keeps R (MonadExcept.throw r : Cmd α) := fun s => hr s

theorem Cmd.Keeps.bind {α β : Type} {R : State → State → Prop} (ht : ∀ a b c, R a b → R b c → R a c) {x : Cmd α}
    {g : α → Cmd β} (hx : Cmd.Keeps R x) (hg : ∀ a, Cmd.Keeps R (g a)) : Cmd.Keeps R (x >>= g) := by
  intro s
  have h1 := hx s
  unfold Cmd.stateAfter at h1 ⊢
  rw [Cmd.bind_apply]
  cases hs : x s with
  | ok a t => rw [hs] at h1; exact ht _ _ _ h1 (hg a t)
  | error r t => rw [hs] at h1; exact h1

/-- Only the reader, `MARKER` and BIN may differ: what the reader's primitives may change (R121, R200). -/
def ReaderFrame (s t : State) : Prop :=
  t = { s with bin := t.bin, inPos := t.inPos, rbuf := t.rbuf, rcnt := t.rcnt, marker := t.marker }

/-- Only the writer and BOUT may differ: what the writer's primitives may change (R120, R150). -/
def WriterFrame (s t : State) : Prop :=
  t = { s with boutHost := t.boutHost, bout := t.bout, outPos := t.outPos, wbuf := t.wbuf, wcnt := t.wcnt }

theorem ReaderFrame.refl (s : State) : ReaderFrame s s := rfl
theorem WriterFrame.refl (s : State) : WriterFrame s s := rfl

theorem ReaderFrame.trans (s t u : State) (h1 : ReaderFrame s t) (h2 : ReaderFrame t u) : ReaderFrame s u :=
  Eq.trans h2 (by rw [h1])

theorem WriterFrame.trans (s t u : State) (h1 : WriterFrame s t) (h2 : WriterFrame t u) : WriterFrame s u :=
  Eq.trans h2 (by rw [h1])

theorem rawIn_frame : Cmd.Keeps ReaderFrame rawIn := by
  intro s
  unfold Cmd.stateAfter
  rw [rawIn_apply]
  rcases s.bin.nth 0 with _ | ⟨b | _⟩ <;> rfl

theorem unstuffIn_frame : Cmd.Keeps ReaderFrame unstuffIn := by
  intro s
  unfold Cmd.stateAfter
  rw [unstuffIn_apply]
  rcases s.bin.nth 0 with _ | ⟨b | _⟩
  · rfl
  · by_cases hb : b = 0xFF
    · rcases s.bin.nth 1 with _ | ⟨x | _⟩
      · simp only [hb, if_true]; rfl
      · by_cases hx : x = 0x00 <;> simp only [hb, hx, if_true, if_false] <;> rfl
      · simp only [hb, if_true]; rfl
    · simp only [hb, if_false]; rfl
  · rfl

theorem readBit_frame : Cmd.Keeps ReaderFrame readBit := by
  intro s
  by_cases h : s.rcnt = 0
  · have hu := unstuffIn_frame s
    unfold Cmd.stateAfter at hu ⊢
    rw [readBit_fetch s h]
    cases hx : unstuffIn s with
    | ok b t => rw [hx] at hu; exact ReaderFrame.trans _ _ _ hu rfl
    | error r t => rw [hx] at hu; exact hu
  · unfold Cmd.stateAfter
    rw [readBit_within s h]
    rfl

theorem readBitsLoop_frame (n : Nat) (v : BitVec 16) : Cmd.Keeps ReaderFrame (readBitsLoop n v) := by
  induction n generalizing v with
  | zero => exact .pure ReaderFrame.refl v
  | succ n ih => exact .bind ReaderFrame.trans readBit_frame fun _ => ih _

theorem readBits_frame (n : Nat) : Cmd.Keeps ReaderFrame (readBits n) := readBitsLoop_frame n 0

theorem rawInMany_frame (n : Nat) : Cmd.Keeps ReaderFrame (rawInMany n) := by
  induction n with
  | zero => exact .pure ReaderFrame.refl _
  | succ n ih =>
    exact .bind ReaderFrame.trans rawIn_frame fun _ => .bind ReaderFrame.trans ih fun _ => .pure ReaderFrame.refl _

theorem rawOut_frame (b : Byte) : Cmd.Keeps WriterFrame (rawOut b) := by
  intro s
  unfold Cmd.stateAfter
  rw [rawOut_apply]
  rcases s.boutHost.nth 0 with _ | ⟨_ | _⟩ <;> rfl

theorem rawOutMany_frame (bs : List Byte) : Cmd.Keeps WriterFrame (rawOutMany bs) := by
  induction bs with
  | nil => exact .pure WriterFrame.refl ()
  | cons b bs ih => exact .bind WriterFrame.trans (rawOut_frame b) fun _ => ih

theorem stuffOut_frame (b : Byte) : Cmd.Keeps WriterFrame (stuffOut b) := by
  refine .bind WriterFrame.trans (rawOut_frame b) fun _ => ?_
  split
  · exact rawOut_frame _
  · exact .pure WriterFrame.refl ()

theorem writeBit_frame (bit : Bool) : Cmd.Keeps WriterFrame (writeBit bit) := by
  intro s
  by_cases h : s.wcnt = 7
  · have hs := stuffOut_frame (putBit s.wbuf 0 bit) { s with wbuf := 0, wcnt := 0 }
    unfold Cmd.stateAfter at hs ⊢
    rw [writeBit_last bit s h]
    exact WriterFrame.trans s { s with wbuf := 0, wcnt := 0 } _ rfl hs
  · unfold Cmd.stateAfter
    rw [writeBit_within bit s h]
    rfl

theorem writeBits_frame (v : BitVec 16) (n : Nat) : Cmd.Keeps WriterFrame (writeBits v n) := by
  induction n with
  | zero => exact .pure WriterFrame.refl ()
  | succ n ih => exact .bind WriterFrame.trans (writeBit_frame _) fun _ => ih

theorem flushLoop_frame (n : Nat) : Cmd.Keeps WriterFrame (flushLoop n) := by
  induction n with
  | zero => exact .pure WriterFrame.refl ()
  | succ n ih =>
    intro s
    by_cases h : s.wcnt = 0
    · simp only [flushLoop, Cmd.stateAfter, Cmd.bind_apply, Cmd.get_apply, h, if_true]
      rfl
    · have hb := Cmd.Keeps.bind WriterFrame.trans (writeBit_frame true) (fun _ => ih) s
      simpa only [flushLoop, Cmd.stateAfter, Cmd.bind_apply, Cmd.get_apply, h, if_false] using hb

/-! ## One step -/

/-- Everything a step can do when it answers a next state (R300, R301, R340). -/
theorem step_next {s t : State} (h : step s = .next t) :
    (s.nextMove = some .resetInput ∧ t = s.advance.blockReset) ∨
    (∃ w i, s.nextMove = some (.command w) ∧ decode w = .ok i ∧ exec i s.advance = .next t) ∨
    (∃ w r, s.nextMove = some (.command w) ∧ decode w = .error r ∧
      t = if s.status.err = 0 then s.advance.raise .illegal (opByte w) else s.advance) := by
  unfold step at h
  split at h
  · cases h
  · exact .inl ⟨‹_›, by cases h; rfl⟩
  · rename_i w hw
    split at h
    · rename_i i hi
      exact .inr (.inl ⟨w, i, hw, hi, h⟩)
    · rename_i r hr
      refine .inr (.inr ⟨w, r, hw, hr, ?_⟩)
      unfold illegalWord at h
      split at h <;> rename_i he <;> cases h <;> simp_all

/-- The host's placement of a table row's word: it is the next move, and nothing else differs (log 11). -/
theorem nextMove_withFetchWord (s : State) (nbits w : Nat) :
    (s.withFetchWord nbits w).nextMove = some (.command (BitVec.ofNat 32 (w % 2 ^ nbits))) := by
  have h : (s.program.take s.pos ++ List.replicate (s.pos - s.program.length) (HostMove.command 0)).length = s.pos := by
    simp; omega
  simp only [State.nextMove, State.withFetchWord, placeMove]
  rw [List.getElem?_append_right (by omega), h]
  simp

end Sys2Proof.Machine
end

