-- ==== Sys2Proof/Laws/PerInstr.lean ====
section
/-! SUPPORT. Facts about every instruction as syntax, one lemma for each constructor. Family `EncodedFixedBits`: the fixed
bits of an encoded command are its row's match value, so no operand reaches an opcode or reserved bit (30_encoding.md R91,
R95). -/

namespace Sys2Proof.Laws.EncodedFixedBits

/-- `(w AND mask) = match` for the word of `i` (R95, R98). -/
def Statement (i : Instr) : Prop := encode i &&& i.opcode.format.mask = i.opcode.matchWord

/-- A mask that keeps the opcode byte and meets no operand bit leaves the row's match value. -/
theorem fixed_of_operands (op : Byte) {x m : BitVec 24} (h : x &&& m = 0) : (op ++ x) &&& (0xFF#8 ++ m) = op ++ 0#24 := by
  rw [BitVec.and_append, h, show (0xFF#8) = BitVec.allOnes 8 from rfl, BitVec.and_allOnes]
  rfl

/-! ## The operand bits of each format are outside its mask (R91) -/

theorem operands_fb (b : Byte) : (0#16 ++ b) &&& (0xFFFF#16 ++ 0#8) = 0#24 := by
  simp only [BitVec.and_append, BitVec.zero_and, BitVec.and_zero]
  rfl

theorem operands_fl (len : BitVec 5) (sym : Byte) : (0#11 ++ len ++ sym) &&& (0x7FF#11 ++ 0#5 ++ 0#8) = 0#24 := by
  simp only [BitVec.and_append, BitVec.zero_and, BitVec.and_zero]
  rfl

theorem operands_fn (n : BitVec 5) (v : BitVec 16) : (0#3 ++ n ++ v) &&& (7#3 ++ 0#5 ++ 0#16) = 0#24 := by
  simp only [BitVec.and_append, BitVec.zero_and, BitVec.and_zero]
  rfl

theorem operands_fnr (n : BitVec 5) : (0#3 ++ n ++ 0#16) &&& (7#3 ++ 0#5 ++ 0xFFFF#16) = 0#24 := by
  simp only [BitVec.and_append, BitVec.zero_and, BitVec.and_zero]
  rfl

theorem operands_fi (imm : BitVec 16) : (0#8 ++ imm) &&& (0xFF#8 ++ 0#16) = 0#24 := by
  simp only [BitVec.and_append, BitVec.zero_and, BitVec.and_zero]
  rfl

theorem operands_fr (sel : Byte) (idx : BitVec 16) : (sel ++ idx) &&& (0#8 ++ 0#16) = 0#24 := by
  simp only [BitVec.and_append, BitVec.and_zero]
  rfl

/-! ## One lemma for each constructor -/

theorem nop : Statement .nop := rfl
theorem rd (sel : Sel) (idx : BitVec 16) : Statement (.rd sel idx) := fixed_of_operands _ (operands_fr _ _)
theorem clrErr : Statement .clrErr := rfl
theorem softReset : Statement .softReset := rfl
theorem frPut (b : Byte) : Statement (.frPut b) := fixed_of_operands _ (operands_fb _)
theorem frRaw (b : Byte) : Statement (.frRaw b) := fixed_of_operands _ (operands_fb _)
theorem frGet : Statement .frGet := rfl
theorem frRawget : Statement .frRawget := rfl
theorem bwBits (n : BitVec 5) (v : BitVec 16) : Statement (.bwBits n v) := fixed_of_operands _ (operands_fn _ _)
theorem bwFlush : Statement .bwFlush := rfl
theorem encClrlen : Statement .encClrlen := rfl
theorem encSetlen (sym : Byte) (len : BitVec 5) : Statement (.encSetlen sym len) := fixed_of_operands _ (operands_fl _ _)
theorem encBuild : Statement .encBuild := rfl
theorem encSetcntLo (imm : BitVec 16) : Statement (.encSetcntLo imm) := fixed_of_operands _ (operands_fi _)
theorem encSetcntHi (imm : BitVec 16) : Statement (.encSetcntHi imm) := fixed_of_operands _ (operands_fi _)
theorem encHdr : Statement .encHdr := rfl
theorem encSym (sym : Byte) : Statement (.encSym sym) := fixed_of_operands _ (operands_fb _)
theorem brBits (n : BitVec 5) : Statement (.brBits n) := fixed_of_operands _ (operands_fnr _)
theorem decHdr : Statement .decHdr := rfl
theorem decBuild : Statement .decBuild := rfl
theorem decSeed : Statement .decSeed := rfl
theorem decSym : Statement .decSym := rfl
theorem decRun : Statement .decRun := rfl

end Sys2Proof.Laws.EncodedFixedBits
end

