-- ==== Sys2Proof/Tests/Slice0.lean ====
section
/-! SUPPORT. The model's own tests. Words and expected values are written out from spec/30_encoding.md, the examples in the
command rules and spec/95_test_vectors.md (each test names its vector). Then, for every obligation with hypotheses, a witness:
a concrete state and operands that meet them, clause by clause. -/

namespace Sys2Proof.Tests

open Sys2Proof Sys2Proof.Machine

-- One theorem after another: each of the many kernel evaluations below would otherwise take a thread of its own.
set_option Elab.async false

/-! ## Helpers -/

/-- The step answers exactly the next state `t`. -/
def gives (o : Host.Outcome State Fault Refusal) (t : State) : Bool :=
  match o with
  | .next u => decide (u = t)
  | .fault _ => false
  | .refused _ => false

/-- The step answers a next state of which `p` holds. -/
def nextIs (o : Host.Outcome State Fault Refusal) (p : State → Bool) : Bool :=
  match o with
  | .next u => p u
  | .fault _ => false
  | .refused _ => false

theorem eq_of_gives {o : Host.Outcome State Fault Refusal} {t : State} (h : gives o t = true) : o = .next t := by
  unfold gives at h
  split at h
  · exact congrArg _ (of_decide_eq_true h)
  · cases h
  · cases h

/-- A block whose BIN offers `bs`. -/
def withBin (s : State) (bs : List Byte) : State := { s with bin := offering bs }

/-- A host that accepts `k` bytes on BOUT and fails the next one. -/
def refusing (k : Nat) : Answers OutAnswer := ⟨List.replicate k .accept ++ [.fail], some .accept⟩

/-- A host that offers `bs` on BIN and then answers no more. -/
def quietAfter (s : State) (bs : List Byte) : State := { s with bin := ⟨bs.map .byte, none⟩ }

/-- A host that accepts `k` bytes on BOUT and then answers no more. -/
def acceptsOnly (s : State) (k : Nat) : State := { s with boutHost := ⟨List.replicate k .accept, none⟩ }

theorem accepts_reset (n : Nat) : State.reset.boutHost.AcceptsBytes n := fun _ _ => rfl

theorem acceptsSymbols_reset (n : Nat) : State.reset.soutHost.AcceptsSymbols n := fun _ _ => rfl

theorem offers_offering (bs cs : List Byte) : (offering (bs ++ cs)).Offers bs := by
  intro k hk
  simp [Answers.nth, offering, hk, Nat.lt_of_lt_of_le hk (Nat.le_add_right _ _)]

theorem offers_all (bs : List Byte) : (offering bs).Offers bs := by simpa using offers_offering bs []

theorem ends_offering (bs : List Byte) : (offering bs).OffersThenEnds bs :=
  ⟨offers_all bs, by simp [Answers.nth, offering]⟩

theorem fails_refusing (k : Nat) : (refusing k).FailsAfter k := by
  refine ⟨fun j hj => ?_, ?_⟩
  · have h : (List.replicate k OutAnswer.accept ++ [OutAnswer.fail])[j]? = some .accept := by
      rw [List.getElem?_append_left (by simpa using hj)]
      simp [hj]
    simp only [Answers.nth, refusing, h]
  · simp [Answers.nth, refusing]

theorem silent_quietAfter (s : State) (bs : List Byte) : (quietAfter s bs).bin.OffersThenSilent bs :=
  ⟨fun k hk => by simp [Answers.nth, quietAfter, hk], by simp [Answers.nth, quietAfter]⟩

theorem silent_acceptsOnly (s : State) (k : Nat) : (acceptsOnly s k).boutHost.SilentAfter k :=
  ⟨fun j hj => by simp [Answers.nth, acceptsOnly, hj], by simp [Answers.nth, acceptsOnly]⟩

/-- R54, as one decidable condition. -/
theorem specInv_of {s : State}
    (h : (∀ k, k < 8 - s.wcnt.toNat → s.wbuf.getLsbD k = false) ∧ s.wcnt.toNat ≤ 7 ∧ s.rcnt.toNat ≤ 8 ∧
      (s.status.seeded = true → s.win.toNat < 2 ^ s.dmaxBits.toNat ∧ s.status.decReady = true) ∧
      (s.status.decReady = true → s.status.hdrValid = true) ∧ s.dmaxBits.toNat ≤ 16 ∧
      (s.status.encReady = true → s.nsym.toNat = classSum s.cpl ∧ 1 ≤ s.nsym.toNat) ∧
      (s.status.hdrValid = true → s.dnsym.toNat = classSum s.dcpl ∧ classSum s.dcpl ≤ 256)) : s.SpecInv :=
  ⟨h.1, h.2.1, h.2.2.1, h.2.2.2.1, h.2.2.2.2.1, h.2.2.2.2.2.1, h.2.2.2.2.2.2.1, h.2.2.2.2.2.2.2⟩

/-- A table's form as a check. -/
def tableOkB {α : Type} [DecidableEq α] (d : α) (size : Nat) (t : Table α) : Bool :=
  Table.wf d t && decide (Table.extent t ≤ size)

theorem tableOk_of {α : Type} [DecidableEq α] {d : α} {size : Nat} {t : Table α} (h : tableOkB d size t = true) :
    TableOk d size t := by
  simpa [tableOkB, TableOk] using h

/-- `DataInv`, as one decidable condition. -/
theorem dataInv_of {s : State}
    (h : (tableOkB 0 256 s.len && tableOkB 0 256 s.code && tableOkB 0 256 s.clen && tableOkB 0 17 s.cpl &&
        tableOkB 0 256 s.symlist && tableOkB 0 17 s.dcpl && tableOkB 0 256 s.dsyms && tableOkB .unfilled 65536 s.dt) =
        true ∧
      s.status.err.toNat ≤ 16 ∧ (s.status.err = 0 → s.status.errOp = 0) ∧
      (∀ x : Byte, (s.clen.get 0 x.toNat).toNat ≤ 16 ∧
        (s.code.get 0 x.toNat).toNat < 2 ^ (s.clen.get 0 x.toNat).toNat) ∧
      (s.status.decReady = true → ∀ x, x < 2 ^ s.dmaxBits.toNat → (s.dt.get .unfilled x).v = true →
        1 ≤ (s.dt.get .unfilled x).len.toNat ∧ (s.dt.get .unfilled x).len.toNat ≤ s.dmaxBits.toNat) ∧
      s.fill.toNat ≤ 65536 ∧
      (s.status.decReady = true → (s.status.warnIncomplete = true ↔ s.fill.toNat ≠ 2 ^ s.dmaxBits.toNat))) :
    s.DataInv := by
  obtain ⟨ht, h1, h2, h3, h4, h5, h6⟩ := h
  simp only [Bool.and_eq_true] at ht
  obtain ⟨⟨⟨⟨⟨⟨⟨a, b⟩, c⟩, d⟩, e⟩, f⟩, g⟩, i⟩ := ht
  exact ⟨tableOk_of a, tableOk_of b, tableOk_of c, tableOk_of d, tableOk_of e, tableOk_of f, tableOk_of g, tableOk_of i,
    h1, h2, h3, h4, h5, h6⟩

/-! ## States of the spec's examples -/

/-- A word as the host's only move. -/
def oneMove (s : State) (w : Word) : State := { s with program := [.command w] }

/-- A block in the error state: `E_ILLEGAL`, raised by opcode 0xFF (CT2). -/
def inError : State := State.reset.failed 1 0xFF

/-- Lengths A 1, B 2, C 2 loaded (S1). -/
def abcLens : State := { State.reset with len := [(65, 0), (1, 1), (2, 2)] }

/-- The code of those lengths: "ABC built" (EN1). -/
def abcCode : State :=
  { abcLens with
    code := [(66, 0), (1, 2), (1, 3)], clen := [(65, 0), (1, 1), (2, 2)], cpl := [(1, 0), (1, 1), (1, 2)]
    symlist := [(1, 0x41), (1, 0x42), (1, 0x43)], nsym := 3, minBits := 1, maxBits := 2
    status := { State.reset.status with encReady := true } }

/-- The header of that code with the count 9, 28 bytes: `ABCH` of spec/95_test_vectors.md. -/
def abcHeader : List Byte :=
  [0xFF, 0xC4, 0x00, 0x16, 0x00, 1, 2, 0, 0, 0, 0, 0, 0, 0, 0, 0, 0, 0, 0, 0, 0, 0x41, 0x42, 0x43, 0, 0, 0, 9]

/-- That header parsed (DE5). -/
def abcParsed : State :=
  { State.reset with
    dcpl := [(1, 0), (1, 1), (1, 2)], dsyms := [(1, 0x41), (1, 0x42), (1, 0x43)], dnsym := 3, numSym := 9
    status := { State.reset.status with hdrValid := true } }

/-- Its decode table (R208's example). -/
def abcTable : State :=
  { abcParsed with
    dt := [(2, ⟨true, 1, 0x41⟩), (1, ⟨true, 2, 0x42⟩), (1, ⟨true, 2, 0x43⟩)], dmaxBits := 2, fill := 4
    status := { State.reset.status with hdrValid := true, decReady := true } }

/-- The table with its window at 0 and nine symbols to go (DE17). -/
def abcSeeded : State :=
  { abcTable with
    remain := 9, status := { State.reset.status with hdrValid := true, decReady := true, seeded := true } }

/-- A class with 256 symbols (EN7). -/
def fullClass : State := { abcCode with cpl := [(8, 0), (1, 256)], nsym := 256 }

/-! ## Decoding: one word of every constructor, from R91 and R93 -/

theorem test_decode_nop : decode 0x00000000 = .ok .nop := by decide
theorem test_decode_rd : decode 0x01240005 = .ok (.rd .dt 5) := by decide
theorem test_decode_clrErr : decode 0x02000000 = .ok .clrErr := by decide
theorem test_decode_softReset : decode 0x03000000 = .ok .softReset := by decide
theorem test_decode_frPut : decode 0x100000FF = .ok (.frPut 0xFF) := by decide
theorem test_decode_frRaw : decode 0x110000D9 = .ok (.frRaw 0xD9) := by decide
theorem test_decode_frGet : decode 0x12000000 = .ok .frGet := by decide
theorem test_decode_frRawget : decode 0x13000000 = .ok .frRawget := by decide
theorem test_decode_bwBits : decode 0x200C0FFF = .ok (.bwBits 12 0xFFF) := by decide
theorem test_decode_bwFlush : decode 0x21000000 = .ok .bwFlush := by decide
theorem test_decode_encClrlen : decode 0x22000000 = .ok .encClrlen := by decide
theorem test_decode_encSetlen : decode 0x23000141 = .ok (.encSetlen 0x41 1) := by decide
theorem test_decode_encBuild : decode 0x24000000 = .ok .encBuild := by decide
theorem test_decode_encSetcntLo : decode 0x25000304 = .ok (.encSetcntLo 0x304) := by decide
theorem test_decode_encSetcntHi : decode 0x26000102 = .ok (.encSetcntHi 0x102) := by decide
theorem test_decode_encHdr : decode 0x27000000 = .ok .encHdr := by decide
theorem test_decode_encSym : decode 0x28000042 = .ok (.encSym 0x42) := by decide
theorem test_decode_brBits : decode 0x30030000 = .ok (.brBits 3) := by decide
theorem test_decode_decHdr : decode 0x31000000 = .ok .decHdr := by decide
theorem test_decode_decBuild : decode 0x32000000 = .ok .decBuild := by decide
theorem test_decode_decSeed : decode 0x33000000 = .ok .decSeed := by decide
theorem test_decode_decSym : decode 0x34000000 = .ok .decSym := by decide
theorem test_decode_decRun : decode 0x35000000 = .ok .decRun := by decide

/-! ## Illegal words (R94 to R96) -/

theorem test_decode_reserved_opcode : decode 0x04000000 = .error .reservedOpcode := by decide
theorem test_decode_reserved_bit_f0 : decode 0x00000001 = .error (.reservedBit .nop) := by decide
theorem test_decode_reserved_bit_fl : decode 0x23002041 = .error (.reservedBit .encSetlen) := by decide
theorem test_decode_reserved_bit_fnr : decode 0x30080001 = .error (.reservedBit .brBits) := by decide
theorem test_decode_reserved_bit_fb : decode 0x10000100 = .error (.reservedBit .frPut) := by decide
theorem test_decode_selector : decode 0x01060000 = .error (.operandRange .rd) := by decide
theorem test_decode_index : decode 0x01120011 = .error (.operandRange .rd) := by decide
theorem test_decode_count : decode 0x20110000 = .error (.operandRange .bwBits) := by decide

/-! ## WellFormed refuses an ill-formed term at each check -/

theorem test_wf_no_index : ¬(Instr.rd .status 1).WellFormed := by unfold Instr.WellFormed Sel.Covers; decide
theorem test_wf_symbol_index : ¬(Instr.rd .len 256).WellFormed := by unfold Instr.WellFormed Sel.Covers; decide
theorem test_wf_class_low : ¬(Instr.rd .cpl 0).WellFormed := by unfold Instr.WellFormed Sel.Covers; decide
theorem test_wf_class_high : ¬(Instr.rd .dcpl 17).WellFormed := by unfold Instr.WellFormed Sel.Covers; decide
theorem test_wf_write_count : ¬(Instr.bwBits 17 0).WellFormed := by unfold Instr.WellFormed; decide
theorem test_wf_read_count : ¬(Instr.brBits 17).WellFormed := by unfold Instr.WellFormed; decide

/-! ## The host's view -/

theorem test_table_word : decodeTableWord 32 0x23000141 = some (.encSetlen 0x41 1) := by decide

theorem test_fetch_word :
    nextIs (step (State.reset.withFetchWord 32 0x23000141)) (fun t => t.len == [(65, 0), (1, 1)] && t.pos == 1) = true := by
  decide +kernel

theorem test_reset_no_move : step State.reset = .fault .idle := rfl

/-! ## Meanings, one step each -/

/-- R250. -/
theorem test_nop : gives (exec .nop abcSeeded) abcSeeded = true := by decide +kernel

/-- EN1: `RD 0x14` = 0x02010003. -/
theorem test_rd_enc_sum : nextIs (exec (.rd .encSum 0) abcCode) (fun t => t.resp == 0x02010003) = true := by decide +kernel

/-- CT2, in the error state: `RD 0x00` = 0x00FF0001. -/
theorem test_rd_status : nextIs (exec (.rd .status 0) inError) (fun t => t.resp == 0x00FF0001) = true := by decide +kernel

/-- R252's example: `ERR = 7`, `ERR_OP = 0x35`. -/
theorem test_clrErr : gives (exec .clrErr (abcTable.failed 7 0x35)) abcTable = true := by decide +kernel

/-- CT14: a partial byte is discarded, the tables are cleared, the error goes. -/
theorem test_softReset :
    gives (exec .softReset (State.failed { abcCode with wbuf := 0xA0, wcnt := 3 } 1 0x55)) State.reset = true := by
  decide +kernel

/-- FR2: FF 00 on BOUT. -/
theorem test_frPut_stuffs :
    nextIs (exec (.frPut 0xFF) State.reset) (fun t => t.bout == [0xFF, 0x00] && t.outPos == 2) = true := by decide +kernel

/-- FR10: the stuffing byte is refused. -/
theorem test_frPut_refused :
    nextIs (exec (.frPut 0xFF) { State.reset with boutHost := refusing 1 })
      (fun t => t.bout == [0xFF] && t.outPos == 1 && t.status.word == 0x00100006) = true := by decide +kernel

/-- FR3: no stuffing. -/
theorem test_frRaw : nextIs (exec (.frRaw 0xFF) State.reset) (fun t => t.bout == [0xFF] && t.outPos == 1) = true := by
  decide +kernel

/-- FR13: a partial byte. -/
theorem test_frRaw_seq :
    nextIs (exec (.frRaw 0xD9) { State.reset with wbuf := 0xA0, wcnt := 3 })
      (fun t => t.bout == [] && t.status.word == 0x00110003) = true := by decide +kernel

/-- FR5: FF 00 is the data byte 0xFF. -/
theorem test_frGet :
    nextIs (exec .frGet (withBin State.reset [0xFF, 0x00])) (fun t => t.resp == 0xFF && t.inPos == 2) = true := by
  decide +kernel

/-- FR6: a marker. -/
theorem test_frGet_marker :
    nextIs (exec .frGet (withBin State.reset [0xFF, 0xD9]))
      (fun t => t.marker == 0xD9 && t.inPos == 2 && t.resp == 0 && t.status.word == 0x00120008) = true := by
  decide +kernel

/-- FR9: no unstuffing. -/
theorem test_frRawget :
    nextIs (exec .frRawget (withBin State.reset [0xFF, 0x00])) (fun t => t.resp == 0xFF && t.inPos == 1) = true := by
  decide +kernel

/-- WR1. -/
theorem test_bwBits :
    nextIs (exec (.bwBits 12 0xFFF) State.reset) (fun t => t.bout == [0xFF, 0x00] && t.wbuf == 0xF0 && t.wcnt == 4) =
      true := by decide +kernel

/-- WR4, the second command: sixteen bits on top of five. -/
theorem test_bwBits_mid_byte :
    nextIs (exec (.bwBits 16 0xFFFF) { State.reset with wbuf := 0xA8, wcnt := 5 })
      (fun t => t.bout == [0xAF, 0xFF, 0x00] && t.wbuf == 0xF8 && t.wcnt == 5) = true := by decide +kernel

/-- WR7: the padding makes 0xFF, which is stuffed. -/
theorem test_bwFlush :
    nextIs (exec .bwFlush { State.reset with wbuf := 0x80, wcnt := 1 })
      (fun t => t.bout == [0xFF, 0x00] && t.wbuf == 0 && t.wcnt == 0) = true := by decide +kernel

/-- EN17: the lengths go, the code table stays. -/
theorem test_encClrlen :
    nextIs (exec .encClrlen abcCode)
      (fun t => t.len == [] && !t.status.encReady && t.clen.get 0 0x41 == 1 && t.nsym == 3) = true := by decide +kernel

/-- EN6: an over-long length is loaded as it is. -/
theorem test_encSetlen :
    nextIs (exec (.encSetlen 1 17) abcCode) (fun t => t.len.get 0 1 == 17 && !t.status.encReady) = true := by
  decide +kernel

/-- EN1. -/
theorem test_encBuild : gives (exec .encBuild abcLens) abcCode = true := by decide +kernel

/-- EN16: the old table is kept. -/
theorem test_encBuild_oversub :
    nextIs (exec .encBuild { abcCode with len := [(65, 0), (3, 1)] })
      (fun t => t.status.word == 0x00240005 && t.clen == abcCode.clen && t.nsym == 3) = true := by decide +kernel

/-- EN12. -/
theorem test_encSetcntLo :
    nextIs (exec (.encSetcntLo 0x0304) { State.reset with encCnt := 0x01020000 }) (fun t => t.encCnt == 0x01020304) = true := by
  decide +kernel

/-- R163's example. -/
theorem test_encSetcntHi :
    nextIs (exec (.encSetcntHi 1) { State.reset with encCnt := 9 }) (fun t => t.encCnt == 0x00010009) = true := by
  decide +kernel

/-- R165's example. -/
theorem test_encHdr :
    nextIs (exec .encHdr { abcCode with encCnt := 9 }) (fun t => t.bout == abcHeader && t.outPos == 28) = true := by
  decide +kernel

/-- EN7. -/
theorem test_encHdr_overflow :
    nextIs (exec .encHdr fullClass) (fun t => t.bout == [] && t.status.word == 0x00270110) = true := by decide +kernel

/-- R166's example. -/
theorem test_encSym :
    nextIs (exec (.encSym 0x42) abcCode) (fun t => t.wbuf == 0x80 && t.wcnt == 2 && t.bout == []) = true := by
  decide +kernel

/-- EN18. -/
theorem test_encSym_no_code :
    nextIs (exec (.encSym 0x44) abcCode) (fun t => t.wcnt == 0 && t.status.word == 0x0028010F) = true := by decide +kernel

/-- DE1. -/
theorem test_brBits :
    nextIs (exec (.brBits 12) (withBin State.reset [0xFF, 0x00, 0x7F]))
      (fun t => t.resp == 0xFF7 && t.inPos == 3 && t.rbuf == 0x7F && t.rcnt == 4) = true := by decide +kernel

/-- DE3. -/
theorem test_brBits_marker :
    nextIs (exec (.brBits 8) (withBin State.reset [0xFF, 0xD0]))
      (fun t => t.status.word == 0x00300008 && t.marker == 0xD0 && t.inPos == 2 && t.rbuf == 0 && t.rcnt == 0) = true := by
  decide +kernel

/-- DE5. -/
theorem test_decHdr :
    nextIs (exec .decHdr (withBin State.reset abcHeader))
      (fun t => t.dcpl == abcParsed.dcpl && t.dsyms == abcParsed.dsyms && t.dnsym == 3 && t.numSym == 9 && t.inPos == 28 &&
        t.status.word == 0x00000200) = true := by decide +kernel

/-- DE6d: class byte 01, with a header parsed before. -/
theorem test_decHdr_class :
    nextIs (exec .decHdr (withBin abcTable ([0xFF, 0xC4, 0x00, 0x16, 0x01] ++ abcHeader.drop 5)))
      (fun t => t.status.word == 0x0031000B && t.inPos == 21 && t.numSym == 9) = true := by decide +kernel

/-- R208's example. -/
theorem test_decBuild : gives (exec .decBuild abcParsed) abcTable = true := by decide +kernel

/-- DE9: counts [2, 0, 1]. -/
theorem test_decBuild_overlap :
    nextIs (exec .decBuild { abcParsed with dcpl := [(1, 0), (1, 2), (1, 0), (1, 1)] })
      (fun t => t.status.word == 0x0032020D && t.fill == 8 && t.dmaxBits == 3 &&
        t.dt.get .unfilled 7 == ⟨true, 1, 0x42⟩) = true := by decide +kernel

/-- DE17: two bits of 0A BF. -/
theorem test_decSeed :
    nextIs (exec .decSeed (withBin abcTable [0x0A, 0xBF]))
      (fun t => t.win == 0 && t.remain == 9 && t.rbuf == 0x0A && t.rcnt == 6 && t.inPos == 1 && t.status.seeded) = true := by
  decide +kernel

/-- DE17, the third `DEC_SYM`: `WIN` 0 to 1, `REMAIN` 7 to 6. -/
theorem test_decSym :
    nextIs (exec .decSym { withBin abcSeeded [0xBF] with rbuf := 0x0A, rcnt := 4, remain := 7 })
      (fun t => t.sout == [0x41] && t.resp == 0x41 && t.win == 1 && t.remain == 6) = true := by decide +kernel

/-- DE17, the tenth `DEC_SYM`. -/
theorem test_decSym_seq :
    nextIs (exec .decSym { abcSeeded with remain := 0 }) (fun t => t.sout == [] && t.status.word == 0x00340E03) = true := by
  decide +kernel

/-- S1. -/
theorem test_decRun :
    nextIs (exec .decRun (withBin abcTable [0x0A, 0xBF]))
      (fun t => t.sout == [0x41, 0x41, 0x41, 0x41, 0x42, 0x42, 0x42, 0x43, 0x43] && t.resp == 0x43 && t.win == 3 &&
        t.remain == 0 && t.rbuf == 0xBF && t.rcnt == 2 && t.status.word == 0x00000E00) = true := by decide +kernel

/-- DE12: the lookahead runs past the end of BIN. -/
theorem test_decRun_short :
    nextIs (exec .decRun (withBin { abcTable with numSym := 6 } [0xB0]))
      (fun t => t.sout == [0x42, 0x43, 0x41, 0x41, 0x41] && t.remain == 1 && t.win == 0 && t.rbuf == 0xB0 && t.rcnt == 0 &&
        t.status.word == 0x00350E07) = true := by decide +kernel

/-- HO6: "AABCDD", where the two placements differ. -/
theorem test_codeLengths_placement :
    codeLengths .lowSlot (countFrequencies [0x41, 0x41, 0x42, 0x43, 0x44, 0x44]) =
        some [(0x41, 2), (0x42, 3), (0x43, 3), (0x44, 1)] ∧
      (codeLengths .append (countFrequencies [0x41, 0x41, 0x42, 0x43, 0x44, 0x44])).map (·.map Prod.snd) =
        some [2, 2, 2, 2] := by decide +kernel

/-- R280: the encode driver's words for "AAAABBBCC": `ENC_CLRLEN`, and then those of P1, which reads `STATUS` last. -/
theorem test_encodeDriver :
    (encodeDriver .lowSlot [0x41, 0x41, 0x41, 0x41, 0x42, 0x42, 0x42, 0x43, 0x43]).map (·.map encode) =
      some [0x22000000, 0x23000141, 0x23000242, 0x23000243, 0x24000000, 0x25000009, 0x26000000, 0x27000000,
        0x28000041, 0x28000041, 0x28000041, 0x28000041, 0x28000042, 0x28000042, 0x28000042, 0x28000043, 0x28000043,
        0x21000000, 0x01000000] := by decide +kernel

/-- R280, R281: `ERR` 7 is a failure of the call, whatever else `STATUS` says; a warning alone is none. -/
theorem test_callFailed : callFailed 0x00350E07 = true ∧ callFailed 0x00001100 = false := by decide

/-! ## Witnesses: encoding and steps -/

/-- DecodeOfEncode, EverythingReadsZeroAtReset: operands at the ends of their ranges. -/
theorem witness_well_formed :
    (Instr.bwBits 16 0xFFFF).WellFormed ∧ (Instr.brBits 0).WellFormed ∧ (Instr.rd .remain 0).WellFormed ∧
    (Instr.rd .len 255).WellFormed ∧ (Instr.rd .cpl 1).WellFormed ∧ (Instr.rd .dcpl 16).WellFormed ∧
    (Instr.rd .dt 65535).WellFormed := by
  unfold Instr.WellFormed Sel.Covers
  decide

/-- EncodeOfDecode. -/
theorem witness_EncodeOfDecode : decode 0x0124FFFF = .ok (.rd .dt 65535) := by decide

/-- ReservedOpcodeRaisesIllegal: both ends of each range, no error pending. -/
theorem witness_ReservedOpcodeRaisesIllegal :
    [0x04, 0x0F, 0x14, 0x1F, 0x29, 0x2F, 0x36, 0xFF].all (fun op =>
      let w : Word := BitVec.ofNat 32 (op * 2 ^ 24)
      decide ((0x04 ≤ op ∧ op ≤ 0x0F) ∨ (0x14 ≤ op ∧ op ≤ 0x1F) ∨ (0x29 ≤ op ∧ op ≤ 0x2F) ∨ (0x36 ≤ op ∧ op ≤ 0xFF)) &&
      decide ((w.extractLsb' 24 8).toNat = op) && decide ((oneMove State.reset w).nextMove = some (.command w)) &&
      decide ((oneMove State.reset w).status.err = 0)) = true := by
  decide +kernel

/-- StepRunsDecodedCommand; and the first clause of StepGatesByErrorState. -/
theorem witness_StepRunsDecodedCommand :
    (oneMove State.reset 0x23000141).program[(oneMove State.reset 0x23000141).pos]? = some (.command 0x23000141) ∧
    decode 0x23000141 = .ok (.encSetlen 0x41 1) := by
  decide

/-- No command decodes from a word that is rejected. -/
theorem not_ok_of_error {w : Word} {e : Illegal} (h : decode w = .error e) (i : Instr) : decode w ≠ .ok i := by
  rw [h]
  exact fun h => nomatch h

/-- StepGatesByErrorState: the illegal word with no error pending; in the error state, a control command, a legal command of
another kind, and an illegal word. -/
theorem witness_StepGatesByErrorState :
    ((oneMove State.reset 0xFF000000).status.err = 0 ∧ ∀ i, decode 0xFF000000 ≠ .ok i) ∧
    (oneMove inError 0x01000000).status.err ≠ 0 ∧ decode 0x01000000 = .ok (.rd .status 0) ∧
    isControl (.rd .status 0) = true ∧
    (∀ i, decode 0x10000041 = .ok i → isControl i = false) ∧ (∀ i, decode 0x02000001 = .ok i → isControl i = false) := by
  refine ⟨⟨rfl, not_ok_of_error (e := .reservedOpcode) (by decide)⟩, by decide, by decide, rfl, ?_, ?_⟩
  · intro i h
    rw [show decode 0x10000041 = .ok (.frPut 0x41) by decide] at h
    cases h
    rfl
  · exact fun i h => absurd h (not_ok_of_error (e := .reservedBit .clrErr) (by decide) i)

/-- ResetInputResets, in the error state. -/
theorem witness_ResetInputResets :
    ({ inError with program := [.resetInput] } : State).program[({ inError with program := [.resetInput] } : State).pos]? =
      some .resetInput := rfl

/-- PositionAdvancesByOne, SoutOnlyGrows: a step that answers a next state, here a dropped word. -/
theorem witness_step_next : step (oneMove inError 0x12000000) = .next { oneMove inError 0x12000000 with pos := 1 } :=
  eq_of_gives (by decide +kernel)

/-- StepCompletesWhenHostAnswers. -/
theorem witness_StepCompletesWhenHostAnswers :
    (oneMove abcTable 0x35000000).pos < (oneMove abcTable 0x35000000).program.length ∧
      (oneMove abcTable 0x35000000).HostAnswers := by
  refine ⟨by decide, ?_⟩
  unfold State.HostAnswers
  decide

/-- RaisedErrorNamesItsOpcode: CT11. -/
theorem witness_RaisedErrorNamesItsOpcode :
    step (oneMove State.reset 0x04000000) =
      .next (State.failed { oneMove State.reset 0x04000000 with pos := 1 } 1 0x04) ∧
    (State.failed { oneMove State.reset 0x04000000 with pos := 1 } 1 0x04).status.err ≠ 0 ∧
    (State.failed { oneMove State.reset 0x04000000 with pos := 1 } 1 0x04).status.err ≠
      (oneMove State.reset 0x04000000).status.err :=
  ⟨eq_of_gives (by decide +kernel), by decide, by decide⟩

theorem specInv_abcCode : abcCode.SpecInv := specInv_of (by decide +kernel)
theorem specInv_abcTable : abcTable.SpecInv := specInv_of (by decide +kernel)
theorem specInv_abcSeeded : abcSeeded.SpecInv := specInv_of (by decide +kernel)
theorem dataInv_abcTable : abcTable.DataInv := dataInv_of (by decide +kernel)
theorem dataInv_abcSeeded : abcSeeded.DataInv := dataInv_of (by decide +kernel)

/-- StepKeepsSpecInv, StepKeepsDataInv: a state with every flag of the decoder set, and its step. -/
theorem witness_StepKeepsInvariants :
    (oneMove abcSeeded 0x23000141).SpecInv ∧ (oneMove abcSeeded 0x23000141).DataInv ∧
      ∃ t, step (oneMove abcSeeded 0x23000141) = .next t :=
  ⟨specInv_of (by decide +kernel), dataInv_of (by decide +kernel),
    _, eq_of_gives (t := { oneMove abcSeeded 0x23000141 with pos := 1, len := [(65, 0), (1, 1)] }) (by decide +kernel)⟩

/-! ## Witnesses: rules of the whole machine -/

/-- RespWrittenBySixCommands, EncoderSideLeavesDecoderSide, OutPosCountsBoutBytes: a command that writes. -/
theorem witness_encoder_side :
    writesResp (.frPut 0xFF) = false ∧ Instr.frPut 0xFF ≠ .softReset ∧ isEncoderSide (.frPut 0xFF) = true ∧
      exec (.frPut 0xFF) State.reset = .next { State.reset with bout := [0xFF, 0x00], outPos := 2 } :=
  ⟨rfl, by decide, rfl, eq_of_gives (by decide +kernel)⟩

/-- DecoderSideLeavesEncoderSide, InPosCountsBinBytes, DecodeTableChangedByBuildOnly: a command that reads and then meets the
end of BIN. -/
theorem witness_decoder_side :
    isDecoderSide .frGet = true ∧ Instr.frGet ≠ .softReset ∧ Instr.frGet ≠ .decBuild ∧
      exec .frGet (withBin abcTable [0xFF]) =
        .next (State.failed { abcTable with bin := ⟨[], some .endOfStream⟩, inPos := 1 } 7 0x12) :=
  ⟨rfl, by decide, by decide, eq_of_gives (by decide +kernel)⟩

/-- LengthChangeClearsEncReady, first clause: from a ready code table. -/
theorem witness_LengthChangeClearsEncReady :
    abcCode.status.encReady = true ∧
    exec (.encSetlen 0x44 3) abcCode = .next { abcCode with
      len := [(65, 0), (1, 1), (2, 2), (1, 3)], status := State.reset.status } ∧
    [(65, 0), (1, 1), (2, 2), (1, 3)] ≠ abcCode.len :=
  ⟨rfl, eq_of_gives (by decide +kernel), by decide⟩

/-- RdGivesTableEntries: the ends of both index ranges. -/
theorem witness_RdGivesTableEntries :
    (255#16).toNat ≤ 255 ∧ (1 ≤ (1#16).toNat ∧ (1#16).toNat ≤ 16) ∧ 1 ≤ (16#16).toNat ∧ (16#16).toNat ≤ 16 := by decide

/-! ## Witnesses: framer and bit writer -/

/-- FrPutRule, clause by clause. -/
theorem witness_FrPutRule :
    (State.reset.status.err = 0 ∧ State.reset.wcnt = 0 ∧ State.reset.boutHost.AcceptsBytes (stuffed [0xFF]).length) ∧
    (refusing 0).FailsAfter 0 ∧ (refusing 1).FailsAfter 1 ∧ ({ State.reset with wcnt := 1 } : State).wcnt ≠ 0 :=
  ⟨⟨rfl, rfl, accepts_reset _⟩, fails_refusing 0, fails_refusing 1, by decide⟩

/-- FrRawRule, clause by clause. -/
theorem witness_FrRawRule :
    (State.reset.status.err = 0 ∧ State.reset.wcnt = 0 ∧ State.reset.boutHost.AcceptsBytes 1) ∧
    (refusing 0).FailsAfter 0 ∧ ({ State.reset with wcnt := 7 } : State).wcnt ≠ 0 :=
  ⟨⟨rfl, rfl, accepts_reset _⟩, fails_refusing 0, by decide⟩

/-- FrGetRule, clause by clause. -/
theorem witness_FrGetRule :
    ((withBin State.reset [0x12]).status.err = 0 ∧ (withBin State.reset [0x12]).rcnt = 0 ∧ (0x12 : Byte) ≠ 0xFF ∧
      (withBin State.reset [0x12]).bin.Offers [0x12]) ∧
    (withBin State.reset [0xFF, 0x00]).bin.Offers [0xFF, 0x00] ∧
    ((0xD9 : Byte) ≠ 0x00 ∧ (withBin State.reset [0xFF, 0xD9]).bin.Offers [0xFF, 0xD9]) ∧
    State.reset.bin.OffersThenEnds [] ∧ (withBin State.reset [0xFF]).bin.OffersThenEnds [0xFF] ∧
    ({ State.reset with rcnt := 8 } : State).rcnt ≠ 0 :=
  ⟨⟨rfl, rfl, by decide, offers_all _⟩, offers_all _, ⟨by decide, offers_all _⟩, ends_offering [], ends_offering _,
    by decide⟩

/-- FrRawgetRule, clause by clause. -/
theorem witness_FrRawgetRule :
    ((withBin State.reset [0xFF]).status.err = 0 ∧ (withBin State.reset [0xFF]).rcnt = 0 ∧
      (withBin State.reset [0xFF]).bin.Offers [0xFF]) ∧
    State.reset.bin.OffersThenEnds [] ∧ ({ State.reset with rcnt := 1 } : State).rcnt ≠ 0 :=
  ⟨⟨rfl, rfl, offers_all _⟩, ends_offering [], by decide⟩

/-- UnstuffInvertsStuff, clause by clause. -/
theorem witness_UnstuffInvertsStuff :
    State.reset.boutHost.AcceptsBytes (stuffed [0xFF, 0x12]).length ∧
    (withBin State.reset (stuffed [0xFF, 0x12])).bin.Offers (stuffed [0xFF, 0x12]) ∧
    (stuffed [0xFF, 0x12])[0]? = some (0xFF : Byte) ∧
    ((0xD9 : Byte) ≠ 0 ∧ (withBin State.reset (stuffed [0x12] ++ [0xFF, 0xD9])).bin.Offers (stuffed [0x12] ++ [0xFF, 0xD9])) :=
  ⟨accepts_reset _, offers_all _, rfl, by decide, offers_all _⟩

/-- A writer that holds the bits 101. -/
def midByte : State := { State.reset with wbuf := 0xA0, wcnt := 3 }

theorem specInv_midByte : midByte.SpecInv := specInv_of (by decide +kernel)

/-- BwBitsRule: sixteen bits accepted; the second stuffed byte refused; seventeen. -/
theorem witness_BwBitsRule :
    (midByte.status.err = 0 ∧ midByte.SpecInv ∧ (16#5).toNat ≤ 16 ∧
      midByte.boutHost.AcceptsBytes (midByte.bytesFor (bitsOf 0xFFFF#16 16))) ∧
    (({ midByte with boutHost := refusing 1 } : State).SpecInv ∧
      1 < ({ midByte with boutHost := refusing 1 } : State).bytesFor (bitsOf 0xFFFF#16 16) ∧
      ({ midByte with boutHost := refusing 1 } : State).boutHost.FailsAfter 1) ∧
    (16 < (17#5).toNat ∧ (0x20110000#32).extractLsb' 24 8 = 0x20 ∧ (0x20110000#32).extractLsb' 16 5 = 17#5 ∧
      (oneMove midByte 0x20110000).SpecInv ∧ (oneMove midByte 0x20110000).nextMove = some (.command 0x20110000)) :=
  ⟨⟨rfl, specInv_midByte, by decide, fun _ _ => rfl⟩,
    ⟨specInv_of (by decide +kernel), by decide +kernel, fails_refusing 1⟩,
    by decide, by decide, by decide, specInv_of (by decide +kernel), rfl⟩

/-- BwFlushRule: aligned; a partial byte accepted; its stuffing byte refused. -/
theorem witness_BwFlushRule :
    (abcCode.status.err = 0 ∧ abcCode.SpecInv ∧ abcCode.wcnt = 0) ∧
    (midByte.SpecInv ∧ midByte.wcnt ≠ 0 ∧ midByte.boutHost.AcceptsBytes (stuffed [0xBF]).length) ∧
    (let s : State := { State.reset with wbuf := 0x80, wcnt := 1, boutHost := refusing 1 }
     s.SpecInv ∧ s.wcnt ≠ 0 ∧ 1 < (stuffed [s.wbuf ||| BitVec.ofNat 8 (2 ^ (8 - s.wcnt.toNat) - 1)]).length ∧
      s.boutHost.FailsAfter 1) :=
  ⟨⟨rfl, specInv_abcCode, rfl⟩, ⟨specInv_midByte, by decide, fun _ _ => rfl⟩,
    specInv_of (by decide +kernel), by decide, by decide +kernel, fails_refusing 1⟩

/-! ## Witnesses: code tables and encoder -/

/-- EncClrlenClearsLengths, EncSetlenLoadsOneLength, EncSetcntLoadsHalves, DecRunIsSeedThenSyms: no error pending. -/
theorem witness_no_error : State.reset.status.err = 0 := rfl

/-- FailedRequireChangesOnlyStatus, clause by clause, with no error pending in any of the states. -/
theorem witness_FailedRequireChangesOnlyStatus :
    ({ abcCode with wcnt := 1, rcnt := 8 } : State).wcnt ≠ 0 ∧ ({ abcCode with wcnt := 1, rcnt := 8 } : State).rcnt ≠ 0 ∧
    ({ abcCode with wcnt := 1, rcnt := 8 } : State).status.encReady = true ∧
    ({ abcCode with wcnt := 1, rcnt := 8 } : State).status.err = 0 ∧
    (State.reset.status.err = 0 ∧ State.reset.status.encReady = false ∧ State.reset.status.hdrValid = false ∧
      State.reset.status.decReady = false ∧ State.reset.status.seeded = false) ∧
    ({ abcSeeded with remain := 0 } : State).status.err = 0 ∧ ({ abcSeeded with remain := 0 } : State).status.seeded = true :=
  ⟨by decide, by decide, rfl, rfl, ⟨rfl, rfl, rfl, rfl, rfl⟩, rfl, rfl⟩

/-- EncBuildInstallsCanonicalCode: a complete code, with the Kraft sum at its bound. -/
theorem witness_EncBuildInstallsCanonicalCode :
    abcLens.status.err = 0 ∧ (∃ x, Coded abcLens.len x) ∧
      kraft 16 ((canonicalOrder abcLens.len).map (lenOf abcLens.len)) = 2 ^ 16 := by
  refine ⟨rfl, ⟨0x41, ?_⟩, by decide +kernel⟩
  unfold Coded
  decide +kernel

/-- EncBuildRefusesBadLengths: only an over-long length; and three codes of one bit. -/
theorem witness_EncBuildRefusesBadLengths :
    (let s : State := { State.reset with len := [(1, 17)] }
     s.status.err = 0 ∧ ((∃ x, 17 ≤ lenOf s.len x) ↔ true = true) ∧ ∀ x, ¬Coded s.len x) ∧
    (let s : State := { State.reset with len := [(3, 1)] }
     s.status.err = 0 ∧ ((∃ x, 17 ≤ lenOf s.len x) ↔ false = true) ∧
      2 ^ 16 < kraft 16 ((canonicalOrder s.len).map (lenOf s.len))) := by
  refine ⟨⟨rfl, ⟨fun _ => rfl, fun _ => ⟨0, by decide⟩⟩, ?_⟩, ⟨rfl, ⟨?_, fun h => nomatch h⟩, by decide +kernel⟩⟩
  · unfold Coded
    decide +kernel
  · rintro ⟨x, hx⟩
    exact absurd hx (by revert x; decide +kernel)

/-- BuiltCodeIsPrefixFree, DecodeTableInvertsCode, DecodeInvertsEncode, RoundTrip: a code that builds, without an error. -/
theorem witness_built_code : abcLens.status.err = 0 ∧ exec .encBuild abcLens = .next abcCode ∧ abcCode.status.err = 0 :=
  ⟨rfl, eq_of_gives (by decide +kernel), rfl⟩

/-- EncHdrRule, clause by clause; the counts 256 and 255 on both sides of the bound. -/
theorem witness_EncHdrRule :
    State.reset.status.encReady = false ∧
    (abcCode.status.err = 0 ∧ abcCode.status.encReady = true ∧ ({ abcCode with wcnt := 2 } : State).wcnt ≠ 0) ∧
    (fullClass.status.encReady = true ∧ fullClass.wcnt = 0 ∧ ∃ L, 1 ≤ L ∧ L ≤ 16 ∧ 255 < (fullClass.cpl.get 0 L).toNat) ∧
    (let s : State := { fullClass with cpl := [(8, 0), (1, 255)], boutHost := refusing 20 }
     (∀ L, 1 ≤ L → L ≤ 16 → (s.cpl.get 0 L).toNat ≤ 255) ∧ 20 < (headerBytes s).length ∧ s.boutHost.FailsAfter 20) ∧
    abcCode.boutHost.AcceptsBytes (headerBytes abcCode).length := by
  refine ⟨rfl, ⟨rfl, rfl, by decide⟩, ⟨rfl, rfl, 8, by decide⟩, ⟨?_, by decide +kernel, fails_refusing 20⟩, fun _ _ => rfl⟩
  intro L h1 h2
  interval_cases L <;> decide

/-- EncSymRule, clause by clause. -/
theorem witness_EncSymRule :
    ({ abcTable with resp := 1 } : State).status.encReady = false ∧
    (abcCode.status.err = 0 ∧ abcCode.SpecInv ∧ abcCode.status.encReady = true ∧ abcCode.clen.get 0 (0x44 : Byte).toNat = 0) ∧
    (abcCode.clen.get 0 (0x42 : Byte).toNat ≠ 0 ∧
      abcCode.boutHost.AcceptsBytes (abcCode.bytesFor (codeBits abcCode.code abcCode.clen 0x42))) ∧
    (let s : State := { abcCode with wbuf := 0xFE, wcnt := 7, boutHost := refusing 1 }
     s.SpecInv ∧ s.clen.get 0 (0x42 : Byte).toNat ≠ 0 ∧ 1 < s.bytesFor (codeBits s.code s.clen 0x42) ∧
      s.boutHost.FailsAfter 1) :=
  ⟨rfl, ⟨rfl, specInv_abcCode, rfl, by decide⟩, ⟨by decide, fun _ _ => rfl⟩,
    specInv_of (by decide +kernel), by decide, by decide +kernel, fails_refusing 1⟩

/-! ## Witnesses: bit reader and decoder -/

/-- BrBitsRule: sixteen bits over a buffered byte; the three ways to stop short; seventeen. -/
theorem witness_BrBitsRule :
    (let s : State := withBin { State.reset with rbuf := 0x55, rcnt := 5 } (stuffed [0xFF, 0x12])
     s.status.err = 0 ∧ s.SpecInv ∧ (16#5).toNat ≤ 16 ∧ [0xFF, 0x12].length = s.dataNeeded (16#5).toNat ∧
      s.bin.Offers (stuffed [0xFF, 0x12])) ∧
    (∃ u, (withBin State.reset [0x12]).ReaderStops 16 [0x12] u 7) ∧
    (∃ u, (withBin State.reset [0x12, 0xFF]).ReaderStops 16 [0x12] u 7) ∧
    (∃ u, (withBin State.reset [0x12, 0xFF, 0xD0]).ReaderStops 16 [0x12] u 8) ∧
    (16 < (17#5).toNat ∧ (0x30110000#32).extractLsb' 24 8 = 0x30 ∧ (0x30110000#32).extractLsb' 16 5 = 17#5 ∧
      (oneMove midByte 0x30110000).SpecInv ∧ (oneMove midByte 0x30110000).nextMove = some (.command 0x30110000)) :=
  ⟨⟨rfl, specInv_of (by decide +kernel), by decide, by decide, offers_all _⟩,
    ⟨_, by decide, .inl ⟨ends_offering _, rfl, rfl⟩⟩,
    ⟨_, by decide, .inr (.inl ⟨ends_offering _, rfl, rfl⟩)⟩,
    ⟨_, by decide, .inr (.inr ⟨0xD0, by decide, offers_all _, rfl, rfl⟩)⟩,
    by decide, by decide, by decide, specInv_of (by decide +kernel), rfl⟩

/-- DecHdrParsesHeader: 256 symbols in one class pair, the longest header; and no symbol, the shortest. -/
theorem witness_DecHdrParsesHeader :
    (let counts : List Byte := [255, 1] ++ List.replicate 14 0
     let syms : List Byte := List.replicate 256 0xFF
     let s : State := withBin State.reset (headerOf counts syms 9)
     s.status.err = 0 ∧ s.rcnt = 0 ∧ counts.length = 16 ∧ (counts.map BitVec.toNat).sum = syms.length ∧
      syms.length ≤ 256 ∧ s.bin.Offers (headerOf counts syms 9)) ∧
    (let counts : List Byte := List.replicate 16 0
     counts.length = 16 ∧ (counts.map BitVec.toNat).sum = ([] : List Byte).length) := by
  refine ⟨⟨rfl, rfl, rfl, ?_, ?_, offers_all _⟩, rfl, rfl⟩
  · rw [List.length_replicate]
    decide +kernel
  · rw [List.length_replicate]

/-- DecHdrRejectsInOrder: each check fails with the ones before it passed, the segment length on both sides of its bounds. -/
theorem witness_DecHdrRejectsInOrder :
    (∀ h ∈ [[0xFF, 0xC5] ++ abcHeader.drop 2, [0xFF, 0xC4, 0x00, 18] ++ abcHeader.drop 4,
        [0xFF, 0xC4, 0x01, 0x14] ++ abcHeader.drop 4, [0xFF, 0xC4, 0x00, 19, 1] ++ abcHeader.drop 5,
        [0xFF, 0xC4, 0x01, 0x13, 0] ++ abcHeader.drop 5],
      (h.take 21).length = 21 ∧ (withBin State.reset h).status.err = 0 ∧ (withBin State.reset h).rcnt = 0) ∧
    (∀ h : List Byte, (withBin State.reset h).bin.Offers (h.take 21)) ∧
    ¬((0xFF : Byte) = 0xFF ∧ (0xC5 : Byte) = 0xC4) ∧ ¬(19 ≤ (0 : Byte).toNat * 256 + (18 : Byte).toNat) ∧
    ¬((1 : Byte).toNat * 256 + (0x14 : Byte).toNat ≤ 275) ∧
    (19 ≤ (0 : Byte).toNat * 256 + (19 : Byte).toNat ∧ (1 : Byte) ≠ 0) ∧
    ((1 : Byte).toNat * 256 + (0x13 : Byte).toNat ≤ 275 ∧
      19 + (((abcHeader.take 21).drop 5).map BitVec.toNat).sum ≠ (1 : Byte).toNat * 256 + (0x13 : Byte).toNat) := by
  refine ⟨by decide, fun h => ?_, by decide, by decide, by decide, by decide, by decide +kernel⟩
  have := offers_offering (h.take 21) (h.drop 21)
  rwa [List.take_append_drop] at this

/-- DecHdrShortOrMisaligned: a buffered bit; no byte, twenty bytes with a bad marker and with a good one; and a good header cut
before any of its 28 bytes. -/
theorem witness_DecHdrShortOrMisaligned :
    ({ State.reset with rcnt := 1 } : State).rcnt ≠ 0 ∧
    (∀ bs : List Byte, (withBin State.reset bs).status.err = 0 ∧ (withBin State.reset bs).rcnt = 0 ∧
      (withBin State.reset bs).bin.OffersThenEnds bs) ∧
    (([] : List Byte).length < 21 ∧ (List.replicate 20 (0x41 : Byte)).length < 21 ∧ (abcHeader.take 20).length < 21) ∧
    (let counts : List Byte := [1, 2] ++ List.replicate 14 0
     let syms : List Byte := [0x41, 0x42, 0x43]
     counts.length = 16 ∧ (counts.map BitVec.toNat).sum = syms.length ∧ syms.length ≤ 256 ∧ 27 < 25 + syms.length ∧
      (headerOf counts syms 9).take 27 = abcHeader.take 27) :=
  ⟨by decide, fun _ => ⟨rfl, rfl, ends_offering _⟩, by decide, rfl, rfl, by decide, by decide, by decide +kernel⟩

/-- R206 for a class table with classes 1 and 2. -/
theorem isMaxBits_abc : IsMaxBits abcParsed.dcpl 2 :=
  (by decide +kernel : greatestClass abcParsed.dcpl = 2) ▸ isMaxBits_greatestClass abcParsed.dcpl

/-- DecBuildFillsTable: a complete code, at the bound; and no symbol, with `M = 0`. -/
theorem witness_DecBuildFillsTable :
    (abcParsed.status.err = 0 ∧ abcParsed.status.hdrValid = true ∧ IsMaxBits abcParsed.dcpl 2 ∧
      kraft 2 (classList abcParsed.dcpl) = 2 ^ 2) ∧
    (IsMaxBits [] 0 ∧ kraft 0 (classList []) ≤ 2 ^ 0) :=
  ⟨⟨rfl, rfl, isMaxBits_abc, by decide +kernel⟩,
    ⟨fun _ _ _ h => absurd rfl h, .inl rfl⟩, by decide +kernel⟩

/-- DecBuildOverlapStops: counts [2, 0, 1] (S2). -/
theorem witness_DecBuildOverlapStops :
    (let s : State := { abcParsed with dcpl := [(1, 0), (1, 2), (1, 0), (1, 1)] }
     s.status.err = 0 ∧ s.status.hdrValid = true ∧ IsMaxBits s.dcpl 3 ∧ 2 ^ 3 < kraft 3 (classList s.dcpl)) :=
  ⟨rfl, rfl,
    (by decide +kernel : greatestClass ([(1, 0), (1, 2), (1, 0), (1, 1)] : Table Byte) = 3) ▸
      isMaxBits_greatestClass [(1, 0), (1, 2), (1, 0), (1, 1)],
    by decide +kernel⟩

/-- DecSeedRule: no table; the bits are there; BIN is empty. -/
theorem witness_DecSeedRule :
    (abcParsed.status.err = 0 ∧ abcParsed.SpecInv ∧ abcParsed.status.decReady = false) ∧
    ((withBin abcTable [0x0A]).status.err = 0 ∧ (withBin abcTable [0x0A]).status.decReady = true ∧
      (withBin abcTable [0x0A]).SpecInv ∧ [0x0A].length = (withBin abcTable [0x0A]).dataNeeded 2 ∧
      (withBin abcTable [0x0A]).bin.Offers (stuffed [0x0A])) ∧
    ∃ u, abcTable.SpecInv ∧ abcTable.ReaderStops 2 [] u 7 :=
  ⟨⟨rfl, specInv_of (by decide +kernel), rfl⟩, ⟨rfl, rfl, specInv_of (by decide +kernel), by decide, offers_all _⟩,
    _, specInv_abcTable, by decide, .inl ⟨ends_offering [], rfl, rfl⟩⟩

/-- DecSymRule, clause by clause. -/
theorem witness_DecSymRule :
    (abcTable.SpecInv ∧ abcTable.DataInv ∧ abcTable.status.seeded = false) ∧
    (abcSeeded.status.err = 0 ∧ abcSeeded.status.seeded = true ∧ abcSeeded.SpecInv ∧ abcSeeded.DataInv) ∧
    (let s : State := { abcSeeded with remain := 0 }
     s.SpecInv ∧ s.DataInv ∧ s.remain = 0) ∧
    (let s : State :=
       { abcSeeded with dt := [(1, ⟨true, 1, 0x5A⟩)], dmaxBits := 1, fill := 1, win := 1
                        status := { abcSeeded.status with warnIncomplete := true } }
     s.SpecInv ∧ s.DataInv ∧ s.remain ≠ 0 ∧ (s.dt.get .unfilled s.win.toNat).v = false) ∧
    ((abcSeeded.dt.get .unfilled abcSeeded.win.toNat).v = true ∧ ({ abcSeeded with remain := 1 } : State).remain = 1 ∧
      abcSeeded.soutHost.AcceptsSymbols 1) ∧
    (1 < abcSeeded.remain.toNat ∧ [0xBF].length = abcSeeded.dataNeeded 1 ∧
      (withBin abcSeeded [0xBF]).bin.Offers (stuffed [0xBF])) ∧
    ∃ u, abcSeeded.ReaderStops 1 [] u 7 :=
  ⟨⟨specInv_abcTable, dataInv_abcTable, rfl⟩, ⟨rfl, rfl, specInv_abcSeeded, dataInv_abcSeeded⟩,
    ⟨specInv_of (by decide +kernel), dataInv_of (by decide +kernel), rfl⟩,
    ⟨specInv_of (by decide +kernel), dataInv_of (by decide +kernel), by decide, by decide⟩,
    ⟨by decide, rfl, fun _ _ => rfl⟩, ⟨by decide, by decide, offers_all _⟩,
    _, by decide, .inl ⟨ends_offering [], rfl, rfl⟩⟩

/-- DecRunDecodesStream: S1 with its first two symbols. -/
theorem witness_DecRunDecodesStream :
    (let s : State := withBin { abcTable with numSym := 2 } [0x40]
     s.status.err = 0 ∧ s.status.decReady = true ∧ s.SpecInv ∧ s.DataInv ∧ s.numSym.toNat = [0x41, 0x42].length ∧
      s.soutHost.AcceptsSymbols [0x41, 0x42].length ∧ s.dmaxBits.toNat ≤ 3 ∧ [0x40].length = s.dataNeeded 3 ∧
      s.bin.Offers (stuffed [0x40]) ∧
      DecodesTo s.dt s.dmaxBits.toNat [0x41, 0x42] (bitsVal ((s.readOf 3 [0x40]).take s.dmaxBits.toNat))
        ((s.readOf 3 [0x40]).drop s.dmaxBits.toNat) 2) := by
  refine ⟨rfl, rfl, specInv_of (by decide +kernel), dataInv_of (by decide +kernel), rfl, fun _ _ => rfl, by decide, by decide,
    offers_all _, ?_⟩
  unfold DecodesTo
  unfold DecodesTo
  decide +kernel

/-! ## Witnesses: ready tables, and a silent host -/

/-- `IsCanonicalCode` as a check. -/
def canonicalB (len : Table (BitVec 5)) (code : Table (BitVec 16)) (clen : Table (BitVec 5)) : Bool :=
  allSymbols.all fun x =>
    if 1 ≤ lenOf len x ∧ lenOf len x ≤ 16 then
      (clen.get 0 x.toNat).toNat == lenOf len x &&
        (code.get 0 x.toNat).toNat * 2 ^ (16 - lenOf len x) == kraft 16 ((earlier len x).map (lenOf len))
    else clen.get 0 x.toNat == 0 && code.get 0 x.toNat == 0

theorem isCanonicalCode_of {len : Table (BitVec 5)} {code : Table (BitVec 16)} {clen : Table (BitVec 5)}
    (h : canonicalB len code clen = true) : IsCanonicalCode len code clen := by
  intro x
  have hx := List.all_eq_true.mp h x (mem_allSymbols x)
  constructor <;> intro hc <;> unfold Coded at hc <;> simpa [hc] using hx

/-- LengthChangeClearsEncReady, last clause: a state with both tables ready, and its step. -/
theorem witness_ReadyInv :
    (let s : State := { abcTable with
       len := abcCode.len, code := abcCode.code, clen := abcCode.clen, cpl := abcCode.cpl, symlist := abcCode.symlist
       nsym := 3, status := { abcTable.status with encReady := true }, program := [.command 0x28000042] }
     s.ReadyInv ∧ s.status.encReady = true ∧ s.status.decReady = true ∧
      ∃ t, step s = .next t) := by
  refine ⟨⟨fun _ => isCanonicalCode_of (by decide +kernel), fun _ L h1 h2 => ?_, fun _ => ⟨by decide +kernel, fun k hk => ?_⟩,
    fun _ => ⟨isMaxBits_abc, ⟨fun k hk x h1 h2 => ?_, fun x h1 h2 => ?_, fun _ _ => rfl⟩, by decide +kernel⟩⟩, rfl, rfl, _,
    eq_of_gives (t := { abcTable with
      len := abcCode.len, code := abcCode.code, clen := abcCode.clen, cpl := abcCode.cpl, symlist := abcCode.symlist
      nsym := 3, status := { abcTable.status with encReady := true }, program := [.command 0x28000042]
      pos := 1, wbuf := 0x80, wcnt := 2 }) (by decide +kernel)⟩
  · interval_cases L <;> decide +kernel
  · have : k < 3 := hk
    interval_cases k <;> decide +kernel
  · have hk : k < 3 := hk
    have : x < 4 := Nat.lt_of_lt_of_le h2 (by interval_cases k <;> decide +kernel)
    interval_cases k <;> interval_cases x <;> revert h1 h2 <;> decide +kernel
  · have : x < 4 := h2
    interval_cases x <;> revert h1 <;> decide +kernel

/-- UnansweredRequestHasNoStep on BIN: what each command waits for, at the first request and after some bytes. -/
theorem witness_UnansweredRequestHasNoStep_bin :
    (∀ bs, (quietAfter State.reset bs).status.err = 0 ∧ (quietAfter State.reset bs).rcnt = 0 ∧
      (quietAfter State.reset bs).bin.OffersThenSilent bs) ∧
    (quietAfter State.reset []).bin.nth 0 = none ∧
    (([] : List Byte).length < 21 ∧ (List.replicate 20 (0x41 : Byte)).length < 21) ∧
    (let counts : List Byte := [1, 2] ++ List.replicate 14 0
     let syms : List Byte := [0x41, 0x42, 0x43]
     counts.length = 16 ∧ (counts.map BitVec.toNat).sum = syms.length ∧ syms.length ≤ 256 ∧ 27 < 25 + syms.length) ∧
    ((16#5).toNat ≤ 16 ∧ (quietAfter State.reset (stuffed [0xFF])).ReaderWaits (16#5).toNat [0xFF] ∧
      (quietAfter State.reset (stuffed [0xFF] ++ [0xFF])).ReaderWaits (16#5).toNat [0xFF]) ∧
    ((quietAfter abcTable []).status.err = 0 ∧ (quietAfter abcTable []).status.decReady = true ∧
      (quietAfter abcTable (stuffed [])).ReaderWaits abcTable.dmaxBits.toNat []) ∧
    (let s : State := quietAfter abcSeeded (stuffed [])
     let e := s.dt.get .unfilled (s.win.toNat % 2 ^ s.dmaxBits.toNat)
     s.status.err = 0 ∧ s.status.seeded = true ∧ 1 < s.remain.toNat ∧ e.v = true ∧ s.soutHost.AcceptsSymbols 1 ∧
      s.ReaderWaits e.len.toNat []) :=
  ⟨fun _ => ⟨rfl, rfl, silent_quietAfter _ _⟩, rfl, by decide, by decide,
    ⟨by decide, ⟨by decide, .inl (silent_quietAfter _ _)⟩, by decide, .inr (silent_quietAfter _ _)⟩,
    ⟨rfl, rfl, by decide, .inl (silent_quietAfter _ _)⟩,
    ⟨rfl, rfl, by decide, by decide, fun _ _ => rfl, by decide, .inl (silent_quietAfter _ _)⟩⟩

/-- UnansweredRequestHasNoStep on BOUT: the last byte of each command that writes. -/
theorem witness_UnansweredRequestHasNoStep_bout :
    (∀ s k, (acceptsOnly s k).boutHost.SilentAfter k) ∧
    (State.reset.status.err = 0 ∧ State.reset.wcnt = 0 ∧ (acceptsOnly State.reset 0).boutHost.nth 0 = none) ∧
    1 < (stuffed [(0xFF : Byte)]).length ∧
    ((16#5).toNat ≤ 16 ∧ 2 < (acceptsOnly midByte 2).bytesFor (bitsOf 0xFFFF#16 16)) ∧
    (let s : State := acceptsOnly { State.reset with wbuf := 0x80, wcnt := 1 } 1
     s.status.err = 0 ∧ s.wcnt ≠ 0 ∧ 1 < (stuffed [s.wbuf ||| BitVec.ofNat 8 (2 ^ (8 - s.wcnt.toNat) - 1)]).length) ∧
    (let s : State := acceptsOnly { abcCode with wbuf := 0xFE, wcnt := 7 } 1
     s.status.err = 0 ∧ s.status.encReady = true ∧ s.clen.get 0 (0x42 : Byte).toNat ≠ 0 ∧
      1 < s.bytesFor (codeBits s.code s.clen 0x42)) ∧
    (let s : State := acceptsOnly abcCode 27
     s.status.err = 0 ∧ s.status.encReady = true ∧ s.wcnt = 0 ∧ (∀ L, 1 ≤ L → L ≤ 16 → (s.cpl.get 0 L).toNat ≤ 255) ∧
      27 < (headerBytes s).length) := by
  refine ⟨silent_acceptsOnly, ⟨rfl, rfl, rfl⟩, by decide, ⟨by decide, by decide +kernel⟩, ⟨rfl, by decide, by decide +kernel⟩,
    ⟨rfl, rfl, by decide, by decide +kernel⟩, ⟨rfl, rfl, rfl, fun L h1 h2 => ?_, by decide +kernel⟩⟩
  interval_cases L <;> decide

/-- UnansweredRequestHasNoStep on SOUT, and inside `DEC_RUN` at its second symbol. -/
theorem witness_UnansweredRequestHasNoStep_sout :
    (let s : State := { abcSeeded with soutHost := ⟨[], none⟩ }
     s.status.err = 0 ∧ s.status.seeded = true ∧ s.remain ≠ 0 ∧
      (s.dt.get .unfilled (s.win.toNat % 2 ^ s.dmaxBits.toNat)).v = true ∧ s.soutHost.nth 0 = none) ∧
    (let s : State := { quietAfter abcTable [0x0A] with soutHost := ⟨[.accept], none⟩ }
     let t : State := { s with
       bin := ⟨[], none⟩, inPos := 1, rbuf := 0x0A, rcnt := 6, win := 0, remain := 9
       status := { s.status with seeded := true } }
     let u : State := { t with soutHost := ⟨[], none⟩, sout := [0x41], resp := 0x41, rcnt := 5, win := 0, remain := 8 }
     exec .decSeed s = .next t ∧ decSymTimes 1 t = .next u ∧ u.status.err = 0 ∧ exec .decSym u = .fault .soutStalled) :=
  ⟨⟨rfl, rfl, by decide, by decide, rfl⟩, eq_of_gives (by decide +kernel), eq_of_gives (by decide +kernel), rfl, rfl⟩

/-! ## Witnesses: encoder and decoder together -/

/-- DecodeTableInvertsCode, DecodeInvertsEncode: the parsed header of the built code, and its table. -/
theorem witness_HoldsHeaderOf : HoldsHeaderOf abcParsed abcCode ∧ exec .decBuild abcParsed = .next abcTable := by
  refine ⟨⟨rfl, rfl, ?_, ?_⟩, eq_of_gives (by decide +kernel)⟩
  · intro L h1 h2
    interval_cases L <;> decide
  · intro k hk
    have : k < 3 := hk
    interval_cases k <;> decide

/-- DecodeInvertsEncode: symbols A, B with enough padding. -/
theorem witness_DecodeInvertsEncode :
    (∀ y ∈ [0x41] ++ [(0x42 : Byte)], abcCode.clen.get 0 y.toNat ≠ 0) ∧
      abcCode.maxBits.toNat ≤ ([] : List Bool).length + (abcCode.clen.get 0 (0x42 : Byte).toNat).toNat := by
  decide

/-- EncodeSequenceWritesFile: nine symbols under the code of S1. -/
theorem witness_EncodeSequenceWritesFile :
    abcCode.status.err = 0 ∧ abcCode.SpecInv ∧ abcCode.status.encReady = true ∧ abcCode.wcnt = 0 ∧
      (∀ L, 1 ≤ L → L ≤ 16 → (abcCode.cpl.get 0 L).toNat ≤ 255) ∧
      (∀ x ∈ [0x41, 0x42, (0x43 : Byte)], abcCode.clen.get 0 x.toNat ≠ 0) ∧
      abcCode.boutHost.AcceptsBytes (fileBytes abcCode [0x41, 0x42, 0x43]).length := by
  refine ⟨rfl, specInv_abcCode, rfl, rfl, ?_, by decide, fun _ _ => rfl⟩
  intro L h1 h2
  interval_cases L <;> decide

/-- RoundTrip: "AB" under the code of S1, its count set, with a block that has decoded before and is offered the file. -/
theorem witness_RoundTrip :
    (let s : State := { abcLens with encCnt := 2 }
     let t : State := { abcCode with encCnt := 2 }
     s.status.err = 0 ∧ exec .encBuild s = .next t ∧ t.status.err = 0 ∧ t.encCnt.toNat = [(0x41 : Byte)].length + 1 ∧
      (let u : State := withBin abcTable (fileBytes t ([0x41] ++ [0x42]) ++ stuffed [])
       u.status.err = 0 ∧ u.rcnt = 0 ∧ u.SpecInv ∧ u.DataInv ∧
        u.bin.Offers (fileBytes t ([0x41] ++ [0x42]) ++ stuffed []) ∧ u.soutHost.AcceptsSymbols ([(0x41 : Byte)].length + 1)) ∧
      (let bits := (([0x41] ++ [0x42]).flatMap (codeBits t.code t.clen)).length
       t.maxBits.toNat ≤ (t.clen.get 0 (0x42 : Byte).toNat).toNat + (8 - bits % 8) % 8 + 8 * ([] : List Byte).length)) :=
  ⟨rfl, eq_of_gives (by decide +kernel), rfl, rfl,
    ⟨rfl, rfl, specInv_of (by decide +kernel), dataInv_of (by decide +kernel), offers_all _, fun _ _ => rfl⟩,
    by decide +kernel⟩

/-- TreeLengthsAreComplete: frequencies with no symbol, with one, and with three. -/
theorem witness_TreeLengthsAreComplete :
    codeLengths .lowSlot [] = none ∧ codeLengths .append [0, 7] = some [(1, 1)] ∧
      codeLengths .append [4, 3, 2] = some [(0, 1), (2, 2), (1, 2)] := by
  decide +kernel

end Sys2Proof.Tests
end

/-! SUPPORT. What a command can do, said once: `Act i s t` lists the elementary updates, each with the commands that may make it
and with what is known when it is made; `exec_ends` says that every command is a sequence of them that completes or raises an
error. The statements about the state follow from it, one update at a time. -/

namespace Sys2Proof.Machine

/-! ## Elementary updates -/

/-- One elementary update of the state by command `i`. -/
inductive Act (i : Instr) (s : State) : State → Prop
  /-- A byte taken from BIN (R64). -/
  | take (hi : isDecoderSide i = true) (b : Byte) (h : s.bin.nth 0 = some (.byte b)) : Act i s (s.took 1)
  /-- BIN answers end-of-stream (R64). -/
  | inputEnds (hi : isDecoderSide i = true) (h : s.bin.nth 0 = some .endOfStream) : Act i s (s.tookToEnd 0)
  /-- A byte accepted on BOUT (R65). -/
  | give (hi : isEncoderSide i = true) (b : Byte) (h : s.boutHost.nth 0 = some .accept) : Act i s (s.gave [b])
  /-- A byte the host fails on BOUT (R65). -/
  | refuse (hi : isEncoderSide i = true) (h : s.boutHost.nth 0 = some .fail) : Act i s (s.gaveThenRefused [])
  /-- A symbol accepted on SOUT (R66). -/
  | emit (hi : i = .decSym ∨ i = .decRun) (y : Byte) (h : s.soutHost.nth 0 = some .accept) : Act i s (s.emitted [y])
  /-- The second byte of a marker (R121). -/
  | setMarker (hi : isDecoderSide i = true) (x : Byte) : Act i s { s with marker := x }
  /-- A bit read from `RBUF` (R200). -/
  | useBit (hi : isDecoderSide i = true) (h : s.rcnt ≠ 0) : Act i s { s with rcnt := s.rcnt - 1 }
  /-- A data byte put in `RBUF`, its first bit read (R200). -/
  | refill (hi : isDecoderSide i = true) (b : Byte) : Act i s { s with rbuf := b, rcnt := 7 }
  /-- A bit written within a byte (R150). -/
  | writeBit (hi : isEncoderSide i = true) (bit : Bool) (h : s.wcnt ≠ 7) :
    Act i s { s with wbuf := putBit s.wbuf (7 - s.wcnt.toNat) bit, wcnt := s.wcnt + 1 }
  /-- The writer emptied before its byte goes out (R150). -/
  | clearWriter (hi : isEncoderSide i = true) : Act i s { s with wbuf := 0, wcnt := 0 }
  /-- A response (R31). -/
  | respond (hi : writesResp i = true) (v : Word) : Act i s { s with resp := v }
  /-- A decoded symbol in `RESP`, and counted (R210). -/
  | answer (hi : i = .decSym ∨ i = .decRun) (v : Word) : Act i s { s with resp := v, remain := s.remain - 1 }
  /-- `ENC_CLRLEN` (R159). -/
  | clearLengths (hi : i = .encClrlen) : Act i s { s with len := [], status := { s.status with encReady := false } }
  /-- `ENC_SETLEN` (R160). -/
  | setLength (sym : Byte) (len : BitVec 5) (hi : i = .encSetlen sym len) :
    Act i s { s with len := s.len.set 0 sym.toNat len, status := { s.status with encReady := false } }
  /-- The writes of `ENC_BUILD` before its checks (R161). -/
  | beginBuild (hi : i = .encBuild) : Act i s (beginBuild s)
  /-- The writes of a successful `ENC_BUILD` (R161). -/
  | installCode (hi : i = .encBuild) (r : CanonAcc) (h : canon s.len = .ok r) : Act i s (installCode r s)
  /-- `ENC_SETCNT_LO` and `ENC_SETCNT_HI` (R162, R163). -/
  | setCount (hi : isEncoderSide i = true) (c : BitVec 32) : Act i s { s with encCnt := c }
  /-- The flags `DEC_HDR` clears before it reads (R205). -/
  | closeHeader (hi : i = .decHdr) :
    Act i s { s with status := { s.status with hdrValid := false, decReady := false, seeded := false } }
  /-- The writes of a `DEC_HDR` that parsed (R205). -/
  | installHeader (hi : i = .decHdr) (h y c : List Byte) (hh : hdrError h = none) (hy : y.length = hdrTotal h) :
    Act i s (installHeader h y c s)
  /-- A `DEC_BUILD` that ends with `E_OVERLAP` (R208). -/
  | partTable (hi : i = .decBuild) : Act i s (installTable s)
  /-- A successful `DEC_BUILD` (R208). -/
  | wholeTable (hi : i = .decBuild) (hv : s.status.hdrValid = true) : Act i s { installTable s with
      status := { (installTable s).status with
        warnIncomplete := tableIncomplete (buildTable s.dcpl s.dsyms s.dt).acc.cur (greatestClass s.dcpl), decReady := true } }
  /-- The writes of a seeding before it reads (R209). -/
  | unseed (hi : i = .decSeed ∨ i = .decRun) :
    Act i s { s with status := { s.status with seeded := false }, remain := s.numSym }
  /-- The window seeded (R209). -/
  | seed (hi : i = .decSeed ∨ i = .decRun) (w : BitVec 16) (hd : s.status.decReady = true)
    (hw : w.toNat < 2 ^ s.dmaxBits.toNat) : Act i s { s with win := w, status := { s.status with seeded := true } }
  /-- The window shifted (R210). -/
  | shift (hi : i = .decSym ∨ i = .decRun) (w : BitVec 16) (hw : w.toNat < 2 ^ s.dmaxBits.toNat) :
    Act i s { s with win := w }

/-- Elementary updates by command `i`, one after another. -/
abbrev Acts (i : Instr) : State → State → Prop := Relation.ReflTransGen (Act i)

/-- A property that every elementary update by `i` keeps is kept by any number of them. -/
theorem Acts.keeps {i : Instr} {P : State → Prop} (hP : ∀ s t, Act i s t → P s → P t) {s t : State} (h : Acts i s t)
    (hs : P s) : P t := by
  induction h with
  | refl => exact hs
  | tail _ ha ih => exact hP _ _ ha ih

/-! ## Sequencing, from one state -/

section
variable {α β : Type} {R : State → State → Prop} {s t : State}

/-- `Cmd.Keeps.bind` from one state, with what the first part returned known to the second. -/
theorem Cmd.stateAfter_bind (ht : ∀ a b c, R a b → R b c → R a c) {x : Cmd α} {g : α → Cmd β}
    (hx : R s (x.stateAfter s)) (hg : ∀ a t, x s = .ok a t → R t ((g a).stateAfter t)) : R s ((x >>= g).stateAfter s) := by
  unfold Cmd.stateAfter at hx ⊢
  rw [Cmd.bind_apply]
  cases hs : x s with
  | ok a t => rw [hs] at hx; exact ht _ _ _ hx (hg a t hs)
  | error r t => rw [hs] at hx; exact hx

theorem Cmd.stateAfter_require (hr : ∀ a, R a a) {c : Bool} {e : Err} {g : PUnit → Cmd β}
    (hg : c = true → R s ((g ()).stateAfter s)) : R s ((require c e >>= g).stateAfter s) := by
  cases c with
  | true => exact hg rfl
  | false => exact hr s

/-- The relation of a primitive, for a primitive that completes. -/
theorem Cmd.Keeps.of_ok {x : Cmd α} (hx : Cmd.Keeps R x) {a : α} (h : x s = .ok a t) : R s t := by
  have hs := hx s
  unfold Cmd.stateAfter at hs
  rwa [h] at hs

end

theorem acts_trans {i : Instr} (a b c : State) (h1 : Acts i a b) (h2 : Acts i b c) : Acts i a c := h1.trans h2

theorem acts_bind {α β : Type} {i : Instr} {x : Cmd α} {g : α → Cmd β} (hx : Cmd.Keeps (Acts i) x)
    (hg : ∀ a, Cmd.Keeps (Acts i) (g a)) : Cmd.Keeps (Acts i) (x >>= g) := .bind acts_trans hx hg

theorem acts_pure {α : Type} {i : Instr} (a : α) : Cmd.Keeps (Acts i) (pure a) := .pure (fun _ => .refl) a

/-! ## The primitives as elementary updates -/

section
variable {i : Instr}

section
variable (hi : isDecoderSide i = true)
include hi

theorem rawIn_acts : Cmd.Keeps (Acts i) rawIn := by
  intro s
  unfold Cmd.stateAfter
  rw [rawIn_apply]
  rcases h : s.bin.nth 0 with _ | ⟨b | _⟩
  · exact .refl
  · exact .single (.take hi b h)
  · exact .single (.inputEnds hi h)

theorem rawInMany_acts (n : Nat) : Cmd.Keeps (Acts i) (rawInMany n) := by
  induction n with
  | zero => exact acts_pure _
  | succ n ih => exact acts_bind (rawIn_acts hi) fun _ => acts_bind ih fun _ => acts_pure _

theorem unstuffIn_acts : Cmd.Keeps (Acts i) unstuffIn := by
  refine acts_bind (rawIn_acts hi) fun b => ?_
  split
  · refine acts_bind (rawIn_acts hi) fun x => ?_
    split
    · exact acts_pure _
    · exact fun s => .single (.setMarker hi x)
  · exact acts_pure _

theorem readBit_acts : Cmd.Keeps (Acts i) readBit := by
  intro s
  by_cases h : s.rcnt = 0
  · have hu := unstuffIn_acts hi s
    unfold Cmd.stateAfter at hu ⊢
    rw [readBit_fetch s h]
    cases hx : unstuffIn s with
    | ok b t => rw [hx] at hu; exact .tail hu (.refill hi b)
    | error r t => rw [hx] at hu; exact hu
  · unfold Cmd.stateAfter
    rw [readBit_within s h]
    exact .single (.useBit hi h)

theorem readBits_acts (n : Nat) : Cmd.Keeps (Acts i) (readBits n) := by
  suffices ∀ v, Cmd.Keeps (Acts i) (readBitsLoop n v) from this 0
  induction n with
  | zero => exact acts_pure
  | succ n ih => exact fun v => acts_bind (readBit_acts hi) fun _ => ih _

end

section
variable (hi : isEncoderSide i = true)
include hi

theorem rawOut_acts (b : Byte) : Cmd.Keeps (Acts i) (rawOut b) := by
  intro s
  unfold Cmd.stateAfter
  rw [rawOut_apply]
  rcases h : s.boutHost.nth 0 with _ | ⟨_ | _⟩
  · exact .refl
  · exact .single (.give hi b h)
  · exact .single (.refuse hi h)

theorem rawOutMany_acts (bs : List Byte) : Cmd.Keeps (Acts i) (rawOutMany bs) := by
  induction bs with
  | nil => exact acts_pure ()
  | cons b bs ih => exact acts_bind (rawOut_acts hi b) fun _ => ih

theorem stuffOut_acts (b : Byte) : Cmd.Keeps (Acts i) (stuffOut b) := by
  refine acts_bind (rawOut_acts hi b) fun _ => ?_
  split
  · exact rawOut_acts hi _
  · exact acts_pure ()

theorem writeBit_acts (bit : Bool) : Cmd.Keeps (Acts i) (writeBit bit) := by
  intro s
  by_cases h : s.wcnt = 7
  · have hs := stuffOut_acts hi (putBit s.wbuf 0 bit) { s with wbuf := 0, wcnt := 0 }
    unfold Cmd.stateAfter at hs ⊢
    rw [writeBit_last bit s h]
    exact .head (.clearWriter hi) hs
  · unfold Cmd.stateAfter
    rw [writeBit_within bit s h]
    exact .single (.writeBit hi bit h)

theorem writeBits_acts (v : BitVec 16) (n : Nat) : Cmd.Keeps (Acts i) (writeBits v n) := by
  induction n with
  | zero => exact acts_pure ()
  | succ n ih => exact acts_bind (writeBit_acts hi _) fun _ => ih

theorem flushLoop_acts (n : Nat) : Cmd.Keeps (Acts i) (flushLoop n) := by
  induction n with
  | zero => exact acts_pure ()
  | succ n ih =>
    refine acts_bind (fun _ => .refl) fun s => ?_
    split
    · exact acts_pure ()
    · exact acts_bind (writeBit_acts hi true) fun _ => ih

end

theorem symOut_acts (hi : i = .decSym ∨ i = .decRun) (y : Byte) : Cmd.Keeps (Acts i) (symOut y) := by
  intro s
  unfold Cmd.stateAfter
  rw [symOut_apply]
  rcases h : s.soutHost.nth 0 with _ | ⟨_⟩
  · exact .refl
  · exact .single (.emit hi y h)

end

/-! ## What the reader's primitives return -/

theorem rawInMany_length {n : Nat} {bs : List Byte} {s t : State} (h : rawInMany n s = .ok bs t) : bs.length = n := by
  induction n generalizing bs s t with
  | zero => cases h; rfl
  | succ n ih =>
    rw [rawInMany, Cmd.bind_apply] at h
    cases h1 : rawIn s with
    | error r u => rw [h1] at h; cases h
    | ok b u =>
      simp only [h1, Cmd.bind_apply] at h
      cases h2 : rawInMany n u with
      | error r v => rw [h2] at h; cases h
      | ok cs v => rw [h2] at h; cases h; simp [ih h2]

/-- Appending a bit to a value of `m` bits gives one of `m + 1` bits. -/
theorem appendBit_lt {v : BitVec 16} {m : Nat} (bit : Bool) (hv : v.toNat < 2 ^ m) :
    ((v <<< 1) ||| (BitVec.ofBool bit).setWidth 16).toNat < 2 ^ (m + 1) := by
  rw [BitVec.toNat_or]
  refine Nat.or_lt_two_pow ?_ ?_
  · have := Nat.mod_le (v.toNat <<< 1) (2 ^ 16)
    rw [BitVec.toNat_shiftLeft]
    rw [Nat.shiftLeft_eq] at *
    omega
  · have : 0 < 2 ^ m := Nat.two_pow_pos m
    cases bit <;> simp

theorem readBitsLoop_lt {n m : Nat} {v w : BitVec 16} {s t : State} (hv : v.toNat < 2 ^ m)
    (h : readBitsLoop n v s = .ok w t) : w.toNat < 2 ^ (m + n) := by
  induction n generalizing m v s with
  | zero => cases h; exact hv
  | succ n ih =>
    rw [readBitsLoop, Cmd.bind_apply] at h
    cases h1 : readBit s with
    | error r u => rw [h1] at h; cases h
    | ok bit u =>
      rw [h1] at h
      have := ih (appendBit_lt bit hv) h
      rwa [Nat.add_assoc, Nat.add_comm 1] at this

/-- `ReadBits(n)` returns a value of `n` bits (R201). -/
theorem readBits_lt {n : Nat} {w : BitVec 16} {s t : State} (h : readBits n s = .ok w t) : w.toNat < 2 ^ n := by
  simpa using readBitsLoop_lt (m := 0) (by simp) h

theorem shiftWindow_lt (win : BitVec 16) (len : Nat) (b : BitVec 16) (M : Nat) : (shiftWindow win len b M).toNat < 2 ^ M := by
  rw [shiftWindow, BitVec.toNat_ofNat]
  exact (Nat.mod_le ..).trans_lt (Nat.mod_lt _ (Nat.two_pow_pos M))

theorem readBits_ok_fields {n : Nat} {w : BitVec 16} {s t : State} (h : readBits n s = .ok w t) :
    t.status = s.status ∧ t.dmaxBits = s.dmaxBits := by
  have hf := (readBits_frame n).of_ok h
  rw [hf]
  exact ⟨rfl, rfl⟩

theorem symOut_ok_dmaxBits {y : Byte} {s t : State} (h : symOut y s = .ok () t) : t.dmaxBits = s.dmaxBits := by
  rw [symOut_apply] at h
  rcases hn : s.soutHost.nth 0 with _ | ⟨_⟩ <;> rw [hn] at h <;> cases h
  rfl

/-! ## The commands as elementary updates -/

/-- How a command ends when it answers a next state: its updates are done, or they are done up to an error it raises with its
own opcode byte (R310); or it is one of the two controls that write the whole error state. -/
inductive Ends (i : Instr) (s : State) : State → Prop
  | done {t : State} (h : Acts i s t) : Ends i s t
  | failed {u : State} (e : Err) (h0 : s.status.err = 0) (h : Acts i s u) : Ends i s (u.raise e i.opcode.byte)
  | cleared (hi : i = .clrErr) : Ends i s s.clearError
  | reset (hi : i = .softReset) : Ends i s s.blockReset

theorem ends_of_runGated {i : Instr} {x : Cmd Unit} {s t : State} (hx : Cmd.Keeps (Acts i) x)
    (h : runGated i.opcode x s = .next t) : Ends i s t := by
  have hs := hx s
  unfold Cmd.stateAfter at hs
  obtain ⟨-, rfl⟩ | ⟨-, h1⟩ | ⟨h0, e, u, h1, rfl⟩ := runGated_next h
  · exact .done .refl
  · rw [h1] at hs
    exact .done hs
  · rw [h1] at hs
    exact .failed e h0 hs

theorem ends_of_illegalWord {i : Instr} {s t : State} (h : illegalWord i.opcode.byte s = .next t) : Ends i s t := by
  unfold illegalWord at h
  split at h <;> cases h
  · exact .failed .illegal ‹_› .refl
  · exact .done .refl

/-- A first `require` that reads the state changes nothing; then the rest goes on from the same state. -/
theorem acts_get_require {α : Type} {i : Instr} {c : State → Bool} {e : Err} {g : State → Cmd α}
    (hg : ∀ s, c s = true → Acts i s ((g s).stateAfter s)) :
    Cmd.Keeps (Acts i) (do let s ← get; require (c s) e; g s) :=
  fun s => Cmd.stateAfter_require (fun _ => .refl) fun hc => hg s hc

theorem acts_modify {α : Type} {i : Instr} {f : State → State} {g : PUnit → Cmd α} {s : State} (hf : Act i s (f s))
    (hg : Acts i (f s) ((g ()).stateAfter (f s))) : Acts i s ((modify f >>= g).stateAfter s) := .head hf hg

theorem acts_stateAfter_ite {α : Type} {i : Instr} {c : Prop} [Decidable c] {x y : Cmd α} {s : State}
    (hx : c → Acts i s (x.stateAfter s)) (hy : ¬c → Acts i s (y.stateAfter s)) :
    Acts i s (Cmd.stateAfter (if c then x else y) s) := by
  split
  · exact hx ‹_›
  · exact hy ‹_›

theorem seedWindow_acts {i : Instr} (hi : i = .decSeed ∨ i = .decRun) : Cmd.Keeps (Acts i) seedWindow := by
  have hside : isDecoderSide i = true := by rcases hi with rfl | rfl <;> rfl
  refine acts_get_require fun s hd => .head (.unseed hi) ?_
  refine Cmd.stateAfter_bind acts_trans (readBits_acts hside _ _) fun w t hw => .single ?_
  obtain ⟨h1, h2⟩ := readBits_ok_fields hw
  exact .seed hi w (by rw [h1]; exact hd) (by rw [h2]; exact readBits_lt hw)

theorem decodeSymbol_acts {i : Instr} (hi : i = .decSym ∨ i = .decRun) : Cmd.Keeps (Acts i) decodeSymbol := by
  have hside : isDecoderSide i = true := by rcases hi with rfl | rfl <;> rfl
  refine acts_get_require fun s _ => ?_
  refine Cmd.stateAfter_bind acts_trans (symOut_acts hi _ _) fun _ t ht => acts_modify (.answer hi _) ?_
  have hdm : t.dmaxBits = s.dmaxBits := symOut_ok_dmaxBits ht
  refine acts_stateAfter_ite (fun _ => .refl) fun _ => ?_
  refine Cmd.stateAfter_bind acts_trans (readBits_acts hside _ _) fun b u hb => .single (.shift hi _ ?_)
  have hu : u.dmaxBits = s.dmaxBits := (readBits_ok_fields hb).2.trans hdm
  exact hu ▸ shiftWindow_lt ..

theorem decodeLoop_acts {i : Instr} (hi : i = .decSym ∨ i = .decRun) (n : Nat) : Cmd.Keeps (Acts i) (decodeLoop n) := by
  induction n with
  | zero => exact acts_pure ()
  | succ n ih =>
    refine acts_bind (fun _ => .refl) fun s => ?_
    split
    · exact acts_pure ()
    · exact acts_bind (decodeSymbol_acts hi) fun _ => ih

/-- The rule of `DEC_HDR` after its `require` (R205). -/
theorem decHdr_acts : Cmd.Keeps (Acts .decHdr) (do
    let h ← rawInMany Config.hdrFixedBytes
    match hdrError h with
    | some e => raiseErr e
    | none => do
      let y ← rawInMany (hdrTotal h)
      let c ← rawInMany Config.countBytes
      modify (installHeader h y c)) := by
  refine acts_bind (rawInMany_acts rfl _) fun h => ?_
  cases hh : hdrError h with
  | some e => exact fun s => .refl
  | none =>
    intro s
    dsimp only
    refine Cmd.stateAfter_bind acts_trans (rawInMany_acts rfl _ _) fun y t hy => ?_
    refine Cmd.stateAfter_bind acts_trans (rawInMany_acts rfl _ _) fun c u _ => ?_
    exact .single (.installHeader rfl h y c hh (rawInMany_length hy))

theorem encBuild_acts (s : State) : Acts .encBuild s (Cmd.stateAfter (do
    modify beginBuild
    let s ← get
    match canon s.len with
    | .error e => raiseErr e
    | .ok r => modify (installCode r)) s) := by
  refine acts_modify (.beginBuild rfl) ?_
  change Acts .encBuild (beginBuild s) (Cmd.stateAfter (match canon (beginBuild s).len with
    | .error e => raiseErr e
    | .ok r => modify (installCode r)) (beginBuild s))
  cases hc : canon (beginBuild s).len with
  | error e => exact .refl
  | ok r => exact .single (.installCode rfl r hc)

theorem decBuild_acts (s : State) (hv : s.status.hdrValid = true) : Acts .decBuild s (Cmd.stateAfter (do
    let r := buildTable s.dcpl s.dsyms s.dt
    let t := installTable s
    set t
    if r.overlap then raiseErr .overlap
    else set { t with status := { t.status with
      warnIncomplete := tableIncomplete r.acc.cur (greatestClass s.dcpl), decReady := true } }) s) := by
  change Acts .decBuild s (Cmd.stateAfter (if (buildTable s.dcpl s.dsyms s.dt).overlap then raiseErr .overlap else _)
    (installTable s))
  cases (buildTable s.dcpl s.dsyms s.dt).overlap with
  | true => exact .single (.partTable rfl)
  | false => exact .single (.wholeTable rfl hv)

/-- Every command is a sequence of elementary updates (R15, R312). -/
theorem exec_ends {i : Instr} {s t : State} (h : exec i s = .next t) : Ends i s t := by
  cases i with
  | nop => cases h; exact .done .refl
  | rd sel idx =>
    change execRd sel idx s = _ at h
    unfold execRd at h
    split at h
    · cases h; exact .done (.single (.respond rfl _))
    · exact ends_of_illegalWord h
  | clrErr => cases h; exact .cleared rfl
  | softReset => cases h; exact .reset rfl
  | frPut b => exact ends_of_runGated (acts_get_require fun s _ => stuffOut_acts rfl b s) h
  | frRaw b => exact ends_of_runGated (acts_get_require fun s _ => rawOut_acts rfl b s) h
  | frGet =>
    exact ends_of_runGated (acts_get_require fun s _ =>
      acts_bind (unstuffIn_acts rfl) (fun b u => .single (.respond rfl _)) s) h
  | frRawget =>
    exact ends_of_runGated (acts_get_require fun s _ =>
      acts_bind (rawIn_acts rfl) (fun b u => .single (.respond rfl _)) s) h
  | bwBits n v =>
    change execBwBits n v s = _ at h
    unfold execBwBits at h
    split at h
    · exact ends_of_runGated (writeBits_acts rfl v _) h
    · exact ends_of_illegalWord h
  | bwFlush => exact ends_of_runGated (flushLoop_acts rfl 8) h
  | encClrlen => exact ends_of_runGated (fun s => .single (.clearLengths rfl)) h
  | encSetlen sym len => exact ends_of_runGated (fun s => .single (.setLength sym len rfl)) h
  | encBuild => exact ends_of_runGated encBuild_acts h
  | encSetcntLo imm => exact ends_of_runGated (fun s => .single (.setCount rfl _)) h
  | encSetcntHi imm => exact ends_of_runGated (fun s => .single (.setCount rfl _)) h
  | encHdr =>
    exact ends_of_runGated (acts_get_require fun s _ => Cmd.stateAfter_require (fun _ => .refl) fun _ =>
      Cmd.stateAfter_require (fun _ => .refl) fun _ => rawOutMany_acts rfl _ s) h
  | encSym sym =>
    exact ends_of_runGated (acts_get_require fun s _ => Cmd.stateAfter_require (fun _ => .refl) fun _ =>
      writeBits_acts rfl _ _ s) h
  | brBits n =>
    change execBrBits n s = _ at h
    unfold execBrBits at h
    split at h
    · exact ends_of_runGated (acts_bind (readBits_acts rfl _) fun v u => .single (.respond rfl _)) h
    · exact ends_of_illegalWord h
  | decHdr =>
    exact ends_of_runGated (acts_get_require fun s _ => .head (.closeHeader rfl) (decHdr_acts _)) h
  | decBuild => exact ends_of_runGated (acts_get_require fun s hv => decBuild_acts s hv) h
  | decSeed => exact ends_of_runGated (seedWindow_acts (.inl rfl)) h
  | decSym =>
    exact ends_of_runGated (acts_get_require fun s _ => Cmd.stateAfter_require (fun _ => .refl) fun _ =>
      decodeSymbol_acts (.inl rfl) s) h
  | decRun =>
    exact ends_of_runGated (acts_bind (seedWindow_acts (.inr rfl)) fun _ => acts_bind (fun _ => .refl) fun s =>
      decodeLoop_acts (.inr rfl) _) h

end Sys2Proof.Machine


/-! SUPPORT. What follows for a command and for a step from `exec_ends`, and the statements about one step, `RD`, `RESP` and
the ports. -/

namespace Sys2Proof.Machine

/-! ## Properties a command or a step keeps -/

theorem Ends.keeps {i : Instr} {P : State → Prop} (hact : ∀ s t, Act i s t → P s → P t)
    (hraise : ∀ s e, P s → P (s.raise e i.opcode.byte)) (hclear : i = .clrErr → ∀ s, P s → P s.clearError)
    (hreset : i = .softReset → ∀ s, P s → P s.blockReset) {s t : State} (h : Ends i s t) (hs : P s) : P t := by
  cases h with
  | done h => exact h.keeps hact hs
  | failed e _ h => exact hraise _ e (h.keeps hact hs)
  | cleared hi => exact hclear hi _ hs
  | reset hi => exact hreset hi _ hs

/-- The invariant principle: what the host's move, reset, raising and clearing an error, and every elementary update keep is
kept by every step. -/
theorem step_keeps {P : State → Prop} (hadv : ∀ s, P s → P s.advance) (hreset : ∀ s, P s → P s.blockReset)
    (hclear : ∀ s, P s → P s.clearError) (hraise : ∀ s e op, P s → P (s.raise e op))
    (hact : ∀ i s t, Act i s t → P s → P t) {s t : State} (hs : P s) (h : step s = .next t) : P t := by
  obtain ⟨-, rfl⟩ | ⟨w, i, -, -, h⟩ | ⟨w, r, -, -, rfl⟩ := step_next h
  · exact hreset _ (hadv _ hs)
  · exact (exec_ends h).keeps (hact i) (fun s e => hraise s e _) (fun _ => hclear) (fun _ => hreset) (hadv _ hs)
  · split
    · exact hraise _ _ _ (hadv _ hs)
    · exact hadv _ hs

/-! ## One step -/

/-- Settles O6: the definition of `step` at a word that decodes. -/
theorem stepRunsDecodedCommand : Obligations.StepRunsDecodedCommand := by
  intro s w i hw hi
  have hm : s.nextMove = some (.command w) := hw
  simp only [step, hm, hi, State.advance]

/-- Settles O8: the definition of `step` at the reset input. -/
theorem resetInputResets : Obligations.ResetInputResets := by
  intro s hw
  have hm : s.nextMove = some .resetInput := hw
  simp only [step, hm, State.blockReset, State.advance]

/-- No elementary update touches the host's list or its index. -/
theorem Act.host_eq {i : Instr} {s t : State} (h : Act i s t) : t.pos = s.pos ∧ t.program = s.program := by
  cases h <;> exact ⟨rfl, rfl⟩

/-- No command touches the host's list or its index. -/
theorem Ends.host_eq {i : Instr} {s t : State} (h : Ends i s t) : t.pos = s.pos ∧ t.program = s.program := by
  refine h.keeps (P := fun u => u.pos = s.pos ∧ u.program = s.program) (fun u v ha hu => ?_) (fun _ _ hu => hu)
    (fun _ _ hu => hu) (fun _ _ hu => hu) ⟨rfl, rfl⟩
  obtain ⟨hpos, hprog⟩ := ha.host_eq
  exact ⟨hpos.trans hu.1, hprog.trans hu.2⟩

/-- Settles O9: the index moves once, before the command; the command, a raise or a reset does not touch it. -/
theorem positionAdvancesByOne : Obligations.PositionAdvancesByOne := by
  intro s t h
  obtain ⟨-, rfl⟩ | ⟨w, i, -, -, h⟩ | ⟨w, r, -, -, rfl⟩ := step_next h
  · exact ⟨rfl, rfl⟩
  · exact (exec_ends h).host_eq
  · split <;> exact ⟨rfl, rfl⟩

theorem operandsOf_opcode {o : Opcode} {w : Word} {i : Instr} (h : operandsOf o w = some i) : i.opcode = o := by
  cases o with
  | rd =>
    simp only [operandsOf] at h
    split at h
    · split at h <;> cases h; rfl
    · cases h
  | bwBits | brBits => simp only [operandsOf] at h; split at h <;> cases h; rfl
  | _ => cases h; rfl

/-- A word that decodes has its command's opcode byte (R90, R98). -/
theorem decode_opcode {w : Word} {i : Instr} (h : decode w = .ok i) : i.opcode.byte = opByte w := by
  unfold decode at h
  split at h
  · cases h
  · rename_i o ho
    have hb : o.byte = opByte w := by simpa using List.find?_some ho
    split at h
    · split at h <;> cases h
      rw [operandsOf_opcode ‹_›, hb]
    · cases h

theorem Err.code_range (e : Err) : 1 ≤ e.code.toNat ∧ e.code.toNat ≤ 16 := by cases e <;> decide

/-- No elementary update touches `ERR`. -/
theorem Act.err_eq {i : Instr} {s t : State} (h : Act i s t) : t.status.err = s.status.err := by
  cases h <;> rfl

theorem Acts.err_eq {i : Instr} {s t : State} (h : Acts i s t) : t.status.err = s.status.err :=
  h.keeps (P := fun u => u.status.err = s.status.err) (fun _ _ ha hu => ha.err_eq.trans hu) rfl

/-- Settles O11: a step writes a nonzero `ERR` by `raise` only. -/
theorem raisedErrorNamesItsOpcode : Obligations.RaisedErrorNamesItsOpcode := by
  intro s t h h0 hne
  obtain ⟨-, rfl⟩ | ⟨w, i, hw, hi, h⟩ | ⟨w, r, hw, -, rfl⟩ := step_next h
  · exact absurd rfl h0
  · cases exec_ends h with
    | done h => exact absurd h.err_eq hne
    | failed e he _ => exact ⟨he, e.code_range.1, e.code_range.2, w, hw, decode_opcode hi⟩
    | cleared _ => exact absurd rfl h0
    | reset _ => exact absurd rfl h0
  · split at hne
    · rename_i he
      rw [if_pos he]
      exact ⟨he, Err.illegal.code_range.1, Err.illegal.code_range.2, w, hw, rfl⟩
    · exact absurd rfl hne

/-! ## `RD` -/

theorem idxLegal_of_covers {sel : Sel} {idx : BitVec 16} (h : sel.Covers idx) : sel.idxLegal idx = true := by
  rw [Sel.idxLegal, Bool.and_eq_true, decide_eq_true_eq, decide_eq_true_eq]
  cases sel with
  | len | code | symlist | dsyms => exact ⟨Nat.zero_le _, h⟩
  | cpl | dcpl => exact h
  | dt => exact ⟨Nat.zero_le _, Nat.le_of_lt_succ idx.isLt⟩
  | _ => cases h; decide

theorem rdGives_of_covers {sel : Sel} {idx : BitVec 16} {P : Word → Prop} (s : State) (h : sel.Covers idx)
    (hv : P (s.value sel idx.toNat)) : RdGives s sel idx P :=
  ⟨_, by rw [exec, execRd, if_pos (idxLegal_of_covers h)], hv⟩

theorem getLsbD_append_high {n m k : Nat} {x : BitVec n} {y : BitVec m} (h : m ≤ k) :
    (x ++ y).getLsbD k = x.getLsbD (k - m) := by
  rw [BitVec.getLsbD_append, if_neg (by omega)]

theorem getLsbD_append_ofBool {n : Nat} {x : BitVec n} {b : Bool} : (x ++ BitVec.ofBool b).getLsbD 0 = b := by
  rw [BitVec.getLsbD_append, if_pos (by decide)]
  cases b <;> rfl

/-- Each flag of `STATUS` stands in its bit (R22): the fields below it are taken off one by one. -/
theorem Status.word_flags (x : Status) :
    x.word.getLsbD 8 = x.encReady ∧ x.word.getLsbD 9 = x.hdrValid ∧ x.word.getLsbD 10 = x.decReady ∧
    x.word.getLsbD 11 = x.seeded ∧ x.word.getLsbD 12 = x.warnLong ∧ x.word.getLsbD 13 = x.warnIncomplete := by
  unfold Status.word
  refine ⟨?_, ?_, ?_, ?_, ?_, ?_⟩
  all_goals
    repeat rw [getLsbD_append_high (by decide)]
    exact getLsbD_append_ofBool

/-- Each wider field of `STATUS` stands in its bits, and the reserved bits are 0 (R22). -/
theorem Status.word_fields (x : Status) :
    x.word.extractLsb' 0 5 = x.err ∧ x.word.extractLsb' 5 3 = 0 ∧ x.word.extractLsb' 14 2 = 0 ∧
    x.word.extractLsb' 16 8 = x.errOp ∧ x.word.extractLsb' 24 8 = 0 := by
  unfold Status.word
  refine ⟨?_, ?_, ?_, ?_, ?_⟩
  all_goals repeat rw [BitVec.extractLsb'_append_eq_of_le (by decide)]
  case refine_5 => exact BitVec.extractLsb'_eq_self
  all_goals exact BitVec.extractLsb'_append_eq_right

/-- Settles O15, by where each field of `STATUS` stands in the word. -/
theorem rdGivesStatusLayout : Obligations.RdGivesStatusLayout := by
  intro s
  obtain ⟨henc, hhdr, hdec, hseed, hlong, hinc⟩ := s.status.word_flags
  obtain ⟨herr, hlow, hmid, hop, hhigh⟩ := s.status.word_fields
  exact rdGives_of_covers s rfl ⟨herr, hlow, henc, hhdr, hdec, hseed, hlong, hinc, hmid, hop, hhigh⟩

/-- Every value read at reset is put together from zeros (R55). -/
theorem value_reset (sel : Sel) (idx : Nat) : State.reset.value sel idx = 0 := by
  cases sel with
  | code | dt => simp only [State.value, State.reset, Table.get_nil]; rfl
  | _ => rfl

/-- Settles O20, by the value of each selector at reset. -/
theorem everythingReadsZeroAtReset : Obligations.EverythingReadsZeroAtReset :=
  fun sel idx h => rdGives_of_covers _ h (value_reset sel idx.toNat)

/-! ## `RESP` and the ports -/

theorem Act.resp_eq {i : Instr} {s t : State} (hi : writesResp i = false) (h : Act i s t) : t.resp = s.resp := by
  cases h with
  | respond h' => rw [hi] at h'; cases h'
  | answer h' => rcases h' with rfl | rfl <;> cases hi
  | _ => rfl

/-- Settles O21: of the elementary updates two write `RESP`, and only the six commands make them. -/
theorem respWrittenBySixCommands : Obligations.RespWrittenBySixCommands := by
  intro i s t hi hr h
  exact (exec_ends h).keeps (P := fun u => u.resp = s.resp) (fun _ _ ha hu => (ha.resp_eq hi).trans hu)
    (fun _ _ hu => hu) (fun _ _ hu => hu) (fun h' => absurd h' hr) rfl

/-- `t` has the bytes `bs` of `s` and some more on BOUT, counted by `OUT_POS` (R33). -/
def OutCounted (s t : State) : Prop := ∃ bs, t.bout = s.bout ++ bs ∧ t.outPos = s.outPos + BitVec.ofNat 32 bs.length

theorem Act.outCounted {i : Instr} {s t u : State} (h : Act i t u) (ht : OutCounted s t) : OutCounted s u := by
  obtain ⟨bs, hb, hp⟩ := ht
  cases h with
  | give _ b _ =>
    exact ⟨bs ++ [b], by simp [State.gave, hb], by simp [State.gave, hp, BitVec.ofNat_add, BitVec.add_assoc]⟩
  | refuse => exact ⟨bs, by simp [State.gaveThenRefused, hb], by simp [State.gaveThenRefused, hp]⟩
  | _ => exact ⟨bs, hb, hp⟩

/-- Settles O24: of the elementary updates an accepted byte alone changes BOUT and `OUT_POS`. -/
theorem outPosCountsBoutBytes : Obligations.OutPosCountsBoutBytes := by
  intro i s t hr h
  exact (exec_ends h).keeps (P := OutCounted s) (fun _ _ ha => ha.outCounted) (fun _ _ hu => hu) (fun _ _ hu => hu)
    (fun h' => absurd h' hr) ⟨[], by simp⟩

/-- The number of byte answers among the next `k` (R34). -/
def Answers.byteCount (a : Answers InAnswer) (k : Nat) : Nat :=
  (List.range k).countP fun j => decide (a.nth j ≠ some .endOfStream ∧ a.nth j ≠ none)

/-- `t` has used up some of the BIN answers of `s`, and `IN_POS` has risen by the byte answers among them (R34). -/
def InCounted (s t : State) : Prop :=
  ∃ k, t.bin = s.bin.skip k ∧ t.inPos = s.inPos + BitVec.ofNat 32 (s.bin.byteCount k)

theorem Answers.byteCount_succ (a : Answers InAnswer) (k : Nat) :
    a.byteCount (k + 1) = a.byteCount k + if a.nth k ≠ some .endOfStream ∧ a.nth k ≠ none then 1 else 0 := by
  simp [Answers.byteCount, List.range_succ, List.countP_append, List.countP_singleton]

theorem Act.inCounted {i : Instr} {s t u : State} (h : Act i t u) (ht : InCounted s t) : InCounted s u := by
  obtain ⟨k, hb, hp⟩ := ht
  cases h with
  | take _ b h =>
    have hn : s.bin.nth k = some (.byte b) := by simpa [hb] using h
    refine ⟨k + 1, by simp [State.took, hb], ?_⟩
    simp [State.took, hp, Answers.byteCount_succ, hn, BitVec.ofNat_add, BitVec.add_assoc]
  | inputEnds _ h =>
    have hn : s.bin.nth k = some .endOfStream := by simpa [hb] using h
    refine ⟨k + 1, by simp [State.tookToEnd, hb], ?_⟩
    simp [State.tookToEnd, hp, Answers.byteCount_succ, hn]
  | _ => exact ⟨k, hb, hp⟩

/-- Settles O25: of the elementary updates only the two answers on BIN change BIN and `IN_POS`. -/
theorem inPosCountsBinBytes : Obligations.InPosCountsBinBytes := by
  intro i s t hr h
  exact (exec_ends h).keeps (P := InCounted s) (fun _ _ ha => ha.inCounted) (fun _ _ hu => hu) (fun _ _ hu => hu)
    (fun h' => absurd h' hr) ⟨0, by simp [Answers.byteCount]⟩

end Sys2Proof.Machine


/-! SUPPORT. What the code mapper `Canon` and the table builder `BuildTable` keep in each pass of their loops, and what follows
for the tables they install; the sums of the class counts. -/

namespace Sys2Proof.Machine

/-! ## `Canon`, one loop at a time (R156) -/

section
variable {len : Table (BitVec 5)}

/-- What every assignment of a code of class `L` keeps, the inner loop keeps. -/
theorem assignClass_keeps {L : Nat} {P : CanonAcc → Prop}
    (hassign : ∀ s a, lenOf len s = L → a.counter < 2 ^ L → P a → P (assignSymbol L s a)) {ss : List Byte}
    {a b : CanonAcc} (ha : P a) (h : assignClass len L ss a = .ok b) : P b := by
  induction ss generalizing a with
  | nil => cases h; exact ha
  | cons s ss ih =>
    rw [assignClass] at h
    split at h
    · split at h
      · cases h
      · exact ih (hassign s a ‹_› (by omega) ha) h
    · exact ih ha h

/-- What every assignment and every shift of the counter keep, the outer loop keeps; `P` may speak of the class that comes
next. -/
theorem assignClasses_keeps {P : Nat → CanonAcc → Prop}
    (hassign : ∀ L s a, 1 ≤ L → L ≤ 16 → lenOf len s = L → a.counter < 2 ^ L → P L a → P L (assignSymbol L s a))
    (hshift : ∀ L a, L ≤ 16 → P L a → P (L + 1) { a with counter := a.counter <<< 1 }) {n L : Nat} {a r : CanonAcc}
    (hL : 1 ≤ L) (hn : L + n ≤ 17) (ha : P L a) (h : assignClasses len (List.range' L n) a = .ok r) : P (L + n) r := by
  induction n generalizing L a with
  | zero => cases h; exact ha
  | succ n ih =>
    rw [List.range'_succ, assignClasses] at h
    cases hc : assignClass len L allSymbols a with
    | error e => rw [hc] at h; cases h
    | ok b =>
      rw [hc] at h
      have hb : P L b := assignClass_keeps (fun s a => hassign L s a hL (by omega)) ha hc
      have := ih (by omega) (by omega) (hshift L b (by omega) hb) h
      rwa [Nat.add_right_comm] at this

theorem assignClass_syms {L : Nat} {ss : List Byte} {a b : CanonAcc} (h : assignClass len L ss a = .ok b) :
    b.syms = a.syms ++ ss.filter fun x => decide (lenOf len x = L) := by
  induction ss generalizing a with
  | nil => cases h; simp
  | cons s ss ih =>
    rw [assignClass] at h
    split at h
    · rename_i hs
      split at h
      · cases h
      · rw [ih h, List.filter_cons_of_pos (by rw [decide_eq_true_eq]; exact hs)]
        simp
    · rename_i hs
      rw [ih h, List.filter_cons_of_neg (by rw [decide_eq_true_eq]; exact hs)]

theorem assignClasses_syms {Ls : List Nat} {a r : CanonAcc} (h : assignClasses len Ls a = .ok r) :
    r.syms = a.syms ++ Ls.flatMap fun L => allSymbols.filter fun x => decide (lenOf len x = L) := by
  induction Ls generalizing a with
  | nil => cases h; simp
  | cons L Ls ih =>
    rw [assignClasses] at h
    cases hc : assignClass len L allSymbols a with
    | error e => rw [hc] at h; cases h
    | ok b =>
      rw [hc] at h
      rw [ih h]
      simp [assignClass_syms hc]

theorem assignClass_error {L : Nat} {ss : List Byte} {a : CanonAcc} {e : Err} (h : assignClass len L ss a = .error e) :
    e = .oversub := by
  induction ss generalizing a with
  | nil => cases h
  | cons s ss ih =>
    rw [assignClass] at h
    split at h
    · split at h
      · cases h; rfl
      · exact ih h
    · exact ih h

theorem assignClasses_error {Ls : List Nat} {a : CanonAcc} {e : Err} (h : assignClasses len Ls a = .error e) :
    e = .oversub := by
  induction Ls generalizing a with
  | nil => cases h
  | cons L Ls ih =>
    rw [assignClasses] at h
    cases hc : assignClass len L allSymbols a with
    | error e' => rw [hc] at h; cases h; exact assignClass_error hc
    | ok b => rw [hc] at h; exact ih h

/-- A successful `Canon` ran its loops over all classes. -/
theorem canon_ok {r : CanonAcc} (h : canon len = .ok r) :
    (∃ x, Coded len x) ∧ assignClasses len lenClasses canonStart = .ok r := by
  unfold canon at h
  split at h
  · exact ⟨(someCoded_iff len).1 ‹_›, h⟩
  · cases h

/-- `Canon` keeps what its assignments and shifts keep. -/
theorem canon_keeps {P : Nat → CanonAcc → Prop}
    (hassign : ∀ L s a, 1 ≤ L → L ≤ 16 → lenOf len s = L → a.counter < 2 ^ L → P L a → P L (assignSymbol L s a))
    (hshift : ∀ L a, L ≤ 16 → P L a → P (L + 1) { a with counter := a.counter <<< 1 }) (hstart : P 1 canonStart)
    {r : CanonAcc} (h : canon len = .ok r) : P 17 r := by
  obtain ⟨-, hr⟩ := canon_ok h
  rw [lenClasses, Config.numLenClasses] at hr
  exact assignClasses_keeps hassign hshift (by omega) (by omega) hstart hr

/-- `SYMLIST'` is in canonical order (R40, R156). -/
theorem canon_syms {r : CanonAcc} (h : canon len = .ok r) : r.syms = canonicalOrder len := by
  rw [assignClasses_syms (canon_ok h).2, canonicalOrder]
  exact List.nil_append _

theorem canon_noSymbols (h : ∀ x, ¬Coded len x) : canon len = .error .noSymbols := by
  have hc : someCoded len ≠ true := fun hs => by
    obtain ⟨x, hx⟩ := (someCoded_iff len).1 hs
    exact h x hx
  rw [canon, if_neg hc]

theorem canon_error {e : Err} (hx : ∃ x, Coded len x) (h : canon len = .error e) : e = .oversub := by
  rw [canon, if_pos ((someCoded_iff len).2 hx)] at h
  exact assignClasses_error h

/-! ## The symbols in canonical order -/

theorem mem_canonicalOrder {x : Byte} : x ∈ canonicalOrder len ↔ Coded len x := by
  simp [canonicalOrder, Coded, mem_allSymbols, mem_lenClasses]

/-- Counting class by class counts every element once. -/
theorem sum_countP_classes (f : Byte → Nat) {Ls : List Nat} (hLs : Ls.Nodup) (l : List Byte) :
    (Ls.map fun L => l.countP fun x => decide (f x = L)).sum = l.countP fun x => decide (f x ∈ Ls) := by
  induction Ls with
  | nil => simp
  | cons L Ls ih =>
    obtain ⟨hL, hLs⟩ := List.nodup_cons.1 hLs
    rw [List.map_cons, List.sum_cons, ih hLs]
    clear ih
    induction l with
    | nil => rfl
    | cons x l ih =>
      simp only [List.countP_cons, List.mem_cons, decide_eq_true_eq] at ih ⊢
      by_cases hx : f x = L
      · simp only [hx, hL, true_or, if_true, if_false]
        omega
      · simp only [hx, false_or, if_false]
        omega

theorem nodup_lenClasses : lenClasses.Nodup := by decide

theorem length_canonicalOrder_le : (canonicalOrder len).length ≤ 256 := by
  have h := sum_countP_classes (lenOf len) nodup_lenClasses allSymbols
  have hle := List.countP_le_length (p := fun x => decide (lenOf len x ∈ lenClasses)) (l := allSymbols)
  rw [length_allSymbols] at hle
  simp only [canonicalOrder, List.length_flatMap, ← List.countP_eq_length_filter]
  omega

/-! ## The counter and the Kraft sum (R157 (a), (b)) -/

theorem kraft_append (M : Nat) (xs ys : List Nat) : kraft M (xs ++ ys) = kraft M xs + kraft M ys := by simp [kraft]

/-- Before class `L`, and within it: the counter, scaled, is the Kraft sum of the symbols that have a code. -/
def KraftCounted (len : Table (BitVec 5)) (L : Nat) (a : CanonAcc) : Prop :=
  a.counter * 2 ^ (17 - L) = 2 * kraft 16 (a.syms.map (lenOf len)) ∧ kraft 16 (a.syms.map (lenOf len)) ≤ 2 ^ 16

theorem KraftCounted.assignSymbol {L : Nat} {s : Byte} {a : CanonAcc} (hL : L ≤ 16) (hs : lenOf len s = L)
    (hc : a.counter < 2 ^ L) (h : KraftCounted len L a) : KraftCounted len L (assignSymbol L s a) := by
  have hk : kraft 16 ((Machine.assignSymbol L s a).syms.map (lenOf len)) =
      kraft 16 (a.syms.map (lenOf len)) + 2 ^ (16 - L) := by simp [kraft, hs]
  have hp : (2 : Nat) ^ (17 - L) = 2 * 2 ^ (16 - L) := by rw [← Nat.pow_succ']; congr 1; omega
  have heq : (a.counter + 1) * 2 ^ (17 - L) = 2 * (kraft 16 (a.syms.map (lenOf len)) + 2 ^ (16 - L)) := by
    rw [Nat.add_mul, h.1, hp]; omega
  have hle : (a.counter + 1) * 2 ^ (17 - L) ≤ 2 ^ 17 := calc
    (a.counter + 1) * 2 ^ (17 - L) ≤ 2 ^ L * 2 ^ (17 - L) := Nat.mul_le_mul_right _ hc
    _ = 2 ^ 17 := by rw [← Nat.pow_add]; congr 1; omega
  exact ⟨by rw [assignSymbol_counter, hk, heq], by rw [hk]; omega⟩

theorem KraftCounted.shift {L : Nat} {a : CanonAcc} (hL : L ≤ 16) (h : KraftCounted len L a) :
    KraftCounted len (L + 1) { a with counter := a.counter <<< 1 } := by
  refine ⟨?_, h.2⟩
  have hp : (2 : Nat) ^ (17 - L) = 2 * 2 ^ (17 - (L + 1)) := by rw [← Nat.pow_succ']; congr 1; omega
  rw [← h.1, hp, Nat.shiftLeft_eq]
  ring

/-- A successful `Canon` has lengths that keep the Kraft inequality (R157 (b)). -/
theorem canon_kraft_le {r : CanonAcc} (h : canon len = .ok r) : kraft 16 ((canonicalOrder len).map (lenOf len)) ≤ 2 ^ 16 := by
  rw [← canon_syms h]
  exact (canon_keeps (P := KraftCounted len) (fun _ _ _ _ hL hs hc ha => ha.assignSymbol hL hs hc)
    (fun _ _ hL ha => ha.shift hL) (by simp [KraftCounted, canonStart, kraft]) h).2

theorem canon_oversub (h : 2 ^ 16 < kraft 16 ((canonicalOrder len).map (lenOf len))) : canon len = .error .oversub := by
  cases hc : canon len with
  | ok r => exact absurd (canon_kraft_le hc) (by omega)
  | error e =>
    have hx : ∃ x, Coded len x := by
      by_contra hx
      have hnil : canonicalOrder len = [] := List.eq_nil_iff_forall_not_mem.2 fun x hm => hx ⟨x, mem_canonicalOrder.1 hm⟩
      simp [hnil, kraft] at h
    rw [canon_error hx hc]

/-! ## The code table (R38, R39) -/

/-- R38: each code length is 0 to 16, and the code has no bit above it. -/
def CodeFits (code : Table (BitVec 16)) (clen : Table (BitVec 5)) : Prop :=
  ∀ x : Byte, (clen.get 0 x.toNat).toNat ≤ 16 ∧ (code.get 0 x.toNat).toNat < 2 ^ (clen.get 0 x.toNat).toNat

/-- What holds of the code table after each assignment: its form, that its codes fit, and that `CPL'` counts the symbols of each
class (modulo its width). -/
structure CodeTables (len : Table (BitVec 5)) (a : CanonAcc) : Prop where
  code : TableOk 0 256 a.code
  clen : TableOk 0 256 a.clen
  cpl : TableOk 0 17 a.cpl
  fits : CodeFits a.code a.clen
  counts : ∀ K, a.cpl.get 0 K = BitVec.ofNat 9 (a.syms.countP fun x => decide (lenOf len x = K))

theorem CodeFits.assignSymbol {L : Nat} {s : Byte} {a : CanonAcc} (hL : L ≤ 16) (hc : a.counter < 2 ^ L)
    (h : CodeFits a.code a.clen) : CodeFits (assignSymbol L s a).code (assignSymbol L s a).clen := by
  intro x
  rw [assignSymbol_code, assignSymbol_clen]
  split
  · have hl : (BitVec.ofNat 5 L).toNat = L := by rw [BitVec.toNat_ofNat, Nat.mod_eq_of_lt (by omega)]
    rw [hl, BitVec.toNat_ofNat]
    exact ⟨hL, (Nat.mod_le ..).trans_lt hc⟩
  · exact h x

theorem CodeTables.assignSymbol {L : Nat} {s : Byte} {a : CanonAcc} (hL : L ≤ 16) (hs : lenOf len s = L)
    (hc : a.counter < 2 ^ L) (h : CodeTables len a) : CodeTables len (assignSymbol L s a) where
  code := h.code.set s.isLt
  clen := h.clen.set s.isLt
  cpl := h.cpl.set (by omega)
  fits := h.fits.assignSymbol hL hc
  counts K := by
    rw [assignSymbol_cpl, assignSymbol_syms, List.countP_append, List.countP_singleton, hs, BitVec.ofNat_add, ← h.counts]
    by_cases hK : K = L
    · simp [hK]
    · simp [hK, Ne.symm hK]

theorem canon_tables {r : CanonAcc} (h : canon len = .ok r) : CodeTables len r :=
  canon_keeps (P := fun _ => CodeTables len) (fun _ _ _ _ hL hs hc ha => ha.assignSymbol hL hs hc)
    (fun _ _ _ ha => ⟨ha.code, ha.clen, ha.cpl, ha.fits, ha.counts⟩)
    ⟨.nil .., .nil .., .nil .., fun _ => ⟨Nat.zero_le _, Nat.one_pos⟩, fun _ => rfl⟩ h

/-- `CPL'[L]` is the number of symbols of length `L` (R39, R156). -/
theorem canon_counts {r : CanonAcc} (h : canon len = .ok r) (K : Nat) :
    (r.cpl.get 0 K).toNat = (canonicalOrder len).countP fun x => decide (lenOf len x = K) := by
  have hle := List.countP_le_length (p := fun x => decide (lenOf len x = K)) (l := canonicalOrder len)
  have h256 := length_canonicalOrder_le (len := len)
  rw [(canon_tables h).counts, canon_syms h, BitVec.toNat_ofNat, Nat.mod_eq_of_lt (by omega)]

/-- The class counts of a built code sum to the number of its symbols (R54). -/
theorem canon_classSum {r : CanonAcc} (h : canon len = .ok r) : classSum r.cpl = r.syms.length := by
  rw [classSum, List.map_congr_left fun K _ => canon_counts h K, sum_countP_classes _ nodup_lenClasses, canon_syms h,
    List.countP_eq_length]
  exact fun x hx => decide_eq_true ((mem_lenClasses _).2 (mem_canonicalOrder.1 hx))

theorem canon_syms_length {r : CanonAcc} (h : canon len = .ok r) : 1 ≤ r.syms.length ∧ r.syms.length ≤ 256 := by
  obtain ⟨x, hx⟩ := (canon_ok h).1
  rw [canon_syms h]
  exact ⟨List.length_pos_of_mem (mem_canonicalOrder.2 hx), length_canonicalOrder_le⟩

end

/-! ## `ENC_BUILD` that fails (R161) -/

theorem exec_encBuild_error {s : State} {e : Err} (h0 : s.status.err = 0) (h : canon s.len = .error e) :
    exec .encBuild s = .next ((beginBuild s).raise e 0x24) := by
  refine runGated_raised h0 ?_
  have hc : canon (beginBuild s).len = .error e := h
  simp only [Cmd.bind_apply, Cmd.modify_apply, Cmd.get_apply, hc, raiseErr_apply]

/-- Settles O41: `Canon` fails in these two cases with these two errors, and `beginBuild` has written the flags. -/
theorem encBuildRefusesBadLengths : Obligations.EncBuildRefusesBadLengths := by
  intro s warn h0 hw
  have hlong : someLong s.len = warn := by
    rw [Bool.eq_iff_iff, someLong_iff]
    exact hw
  subst hlong
  exact ⟨fun h => exec_encBuild_error h0 (canon_noSymbols h), fun h => exec_encBuild_error h0 (canon_oversub h)⟩

/-! ## The parsed header (R204, R205) -/

theorem hdrTotal_le {h : List Byte} (hh : hdrError h = none) : hdrTotal h ≤ 256 := by
  unfold hdrError at hh
  split at hh
  · cases hh
  · split at hh
    · cases hh
    · rename_i hl
      split at hh
      · cases hh
      · split at hh
        · cases hh
        · have h275 : hdrSegLen h ≤ 275 := (not_not.1 hl).2
          omega

theorem getD_hdrCounts (h : List Byte) {L : Nat} (h1 : 1 ≤ L) (h2 : L ≤ 16) :
    (hdrCounts h).getD (L - 1) 0 = hdrByte h (4 + L) := by
  have hget : lenClasses[L - 1]? = some L := by
    rw [lenClasses, Config.numLenClasses, List.getElem?_range' (by omega)]
    congr 1
    omega
  rw [List.getD_eq_getElem?_getD, hdrCounts, List.getElem?_map, hget]
  rfl

/-- The counts a header installs sum to its total (R54). -/
theorem classSum_hdrCounts (t : Table Byte) (h : List Byte) : classSum (t.setMany 0 1 (hdrCounts h)) = hdrTotal h := by
  have hlen : (hdrCounts h).length = 16 := by rw [hdrCounts, List.length_map]; rfl
  have hsum : hdrTotal h = (lenClasses.map fun L => (hdrByte h (4 + L)).toNat).sum := by
    rw [hdrTotal, hdrCounts, List.map_map]
    rfl
  rw [classSum, hsum]
  refine congrArg List.sum (List.map_congr_left fun L hL => ?_)
  obtain ⟨h1, h2⟩ := (mem_lenClasses L).1 hL
  rw [Table.get_setMany, if_pos ⟨h1, by omega⟩, getD_hdrCounts h h1 h2]

/-! ## `BuildTable` (R207) -/

section
variable {M : Nat} {dcpl dsyms : Table Byte}

theorem fillClass_keeps {L : Nat} {P : FillAcc → Prop}
    (hfill : ∀ a, a.cur + 2 ^ (M - L) ≤ 2 ^ M → P a → P (fillSymbol M L dsyms a)) (n : Nat) {a : FillAcc} (ha : P a) :
    P (fillClass M L dsyms n a).acc := by
  induction n generalizing a with
  | zero => exact ha
  | succ n ih =>
    rw [fillClass]
    split
    · exact ha
    · exact ih (hfill a (by omega) ha)

/-- What the fill of each symbol keeps, the whole fill keeps, with `E_OVERLAP` or without; only a class in use is filled. -/
theorem fillClasses_keeps {Ls : List Nat} {P : FillAcc → Prop}
    (hfill : ∀ L ∈ Ls, dcpl.get 0 L ≠ 0 → ∀ a, a.cur + 2 ^ (M - L) ≤ 2 ^ M → P a → P (fillSymbol M L dsyms a))
    {a : FillAcc} (ha : P a) : P (fillClasses M dcpl dsyms Ls a).acc := by
  induction Ls generalizing a with
  | nil => exact ha
  | cons L Ls ih =>
    have hclass : P (fillClass M L dsyms (dcpl.get 0 L).toNat a).acc := by
      by_cases h0 : dcpl.get 0 L = 0
      · rw [h0]
        exact ha
      · exact fillClass_keeps (hfill L List.mem_cons_self h0) _ ha
    simp only [fillClasses]
    split
    · exact hclass
    · exact ih (fun L hL => hfill L (List.mem_cons_of_mem _ hL)) hclass

/-- What holds of the decode table after each fill: its form, the cursor within the table, and each filled slot of the table
with a length in 1 to `M` (R48, R49). -/
structure FillFits (M : Nat) (a : FillAcc) : Prop where
  dt : TableOk .unfilled 65536 a.dt
  cur : a.cur ≤ 2 ^ M
  slots : ∀ x, x < 2 ^ M → (a.dt.get .unfilled x).v = true →
    1 ≤ (a.dt.get .unfilled x).len.toNat ∧ (a.dt.get .unfilled x).len.toNat ≤ M

theorem FillFits.fillSymbol {L : Nat} {a : FillAcc} (hM : M ≤ 16) (h1 : 1 ≤ L) (hL : L ≤ M)
    (hc : a.cur + 2 ^ (M - L) ≤ 2 ^ M) (h : FillFits M a) : FillFits M (fillSymbol M L dsyms a) where
  dt := h.dt.fill (hc.trans (Nat.pow_le_pow_right (by decide) hM))
  cur := hc
  slots x hx := by
    rw [fillSymbol_dt]
    split
    · intro _
      have hl : (BitVec.ofNat 5 L).toNat = L := by rw [BitVec.toNat_ofNat, Nat.mod_eq_of_lt (by omega)]
      exact hl.symm ▸ ⟨h1, hL⟩
    · exact h.slots x hx

theorem greatestClass_le (dcpl : Table Byte) : greatestClass dcpl ≤ 16 := by
  rcases (isMaxBits_greatestClass dcpl).2 with h | ⟨-, h, -⟩ <;> omega

theorem buildTable_fits {dt : Table DtEntry} (hdt : TableOk .unfilled 65536 dt) :
    FillFits (greatestClass dcpl) (buildTable dcpl dsyms dt).acc := by
  have hM := greatestClass_le dcpl
  refine fillClasses_keeps (fun L hL h0 a hc ha => ?_) ⟨?_, Nat.zero_le _, fun x hx hv => ?_⟩
  · obtain ⟨h1, h2⟩ := (mem_lenClasses L).1 hL
    exact ha.fillSymbol hM h1 ((isMaxBits_greatestClass dcpl).1 L h1 h2 h0) hc
  · exact hdt.fill (by rw [Nat.zero_add]; exact Nat.pow_le_pow_right (by decide) hM)
  · rw [Table.get_fill, if_pos ⟨Nat.zero_le _, by omega⟩] at hv
    cases hv

end

end Sys2Proof.Machine


/-! SUPPORT. The two invariants: each holds at reset, and every elementary update keeps it; so every step does. -/

namespace Sys2Proof.Machine

theorem installTable_dmaxBits_toNat (s : State) : (installTable s).dmaxBits.toNat = greatestClass s.dcpl := by
  have := greatestClass_le s.dcpl
  rw [installTable_dmaxBits, BitVec.toNat_ofNat, Nat.mod_eq_of_lt (by omega)]

/-! ## R54's invariants -/

theorem specInv_reset : State.reset.SpecInv where
  writer _ _ := BitVec.getLsbD_zero
  writerCount := by decide
  readerCount := by decide
  window h := nomatch h
  ready h := nomatch h
  maxBits := by decide
  encoder h := nomatch h
  header h := nomatch h

theorem getLsbD_putBit_of_ne (b : Byte) {j k : Nat} (bit : Bool) (hk : k ≠ j) :
    (putBit b j bit).getLsbD k = b.getLsbD k := by
  by_cases h8 : k < 8
  · by_cases h : k < j
    · simp [putBit, h8, h]
    · simp [putBit, h8, h, show k - j ≠ 0 by omega]
  · rw [BitVec.getLsbD_of_ge _ _ (Nat.le_of_not_lt h8), BitVec.getLsbD_of_ge _ _ (Nat.le_of_not_lt h8)]

/-- A bit written within a byte leaves the bits below it 0 (R54). -/
theorem writer_putBit {s : State} (bit : Bool) (h7 : s.wcnt ≠ 7)
    (h : ∀ k, k < 8 - s.wcnt.toNat → s.wbuf.getLsbD k = false) (k : Nat) (hk : k < 8 - (s.wcnt + 1).toNat) :
    (putBit s.wbuf (7 - s.wcnt.toNat) bit).getLsbD k = false := by
  have hn : (s.wcnt + 1).toNat = s.wcnt.toNat + 1 := by bv_omega
  rw [getLsbD_putBit_of_ne _ _ (by omega), h k (by omega)]

theorem Act.keeps_specInv {i : Instr} {s t : State} (h : Act i s t) (hs : s.SpecInv) : t.SpecInv := by
  cases h with
  | useBit _ h =>
    have hr := hs.readerCount
    exact { hs with readerCount := show (s.rcnt - 1).toNat ≤ 8 by bv_omega }
  | refill => exact { hs with readerCount := show (7#4).toNat ≤ 8 by decide }
  | writeBit _ bit h7 =>
    exact { hs with
      writer := writer_putBit bit h7 hs.writer
      writerCount := Nat.le_of_lt_succ (BitVec.isLt _) }
  | clearWriter =>
    exact { hs with
      writer := fun _ _ => BitVec.getLsbD_zero
      writerCount := Nat.zero_le _ }
  | clearLengths | setLength | beginBuild => exact { hs with encoder := fun h => nomatch h }
  | installCode _ r hc =>
    refine { hs with encoder := fun _ => ?_ }
    obtain ⟨h1, h256⟩ := canon_syms_length hc
    have hn : (BitVec.ofNat 9 r.syms.length).toNat = r.syms.length := by
      rw [BitVec.toNat_ofNat, Nat.mod_eq_of_lt (by omega)]
    rw [installCode_nsym, installCode_cpl, canon_classSum hc, hn]
    exact ⟨rfl, h1⟩
  | closeHeader =>
    exact { hs with
      window := fun h => nomatch h
      ready := fun h => nomatch h
      header := fun h => nomatch h }
  | installHeader _ h y c hh hy =>
    refine { hs with
      ready := fun _ => rfl
      header := fun _ => ?_ }
    have h256 := hdrTotal_le hh
    rw [installHeader_dnsym, installHeader_dcpl, classSum_hdrCounts, BitVec.toNat_ofNat, Nat.mod_eq_of_lt (by omega)]
    exact ⟨rfl, h256⟩
  | partTable =>
    exact { hs with
      window := fun h => nomatch h
      ready := fun h => nomatch h
      maxBits := (installTable_dmaxBits_toNat s).trans_le (greatestClass_le _) }
  | wholeTable _ hv =>
    exact { hs with
      window := fun h => nomatch h
      ready := fun _ => hv
      maxBits := (installTable_dmaxBits_toNat s).trans_le (greatestClass_le _) }
  | unseed => exact { hs with window := fun h => nomatch h }
  | seed _ w hd hw => exact { hs with window := fun _ => ⟨hw, hd⟩ }
  | shift _ w hw => exact { hs with window := fun h => ⟨hw, (hs.window h).2⟩ }
  | _ => exact { hs with }

/-- Settles O12: reset meets R54's clauses, and every elementary update of a step keeps them. -/
theorem stepKeepsSpecInv : Obligations.StepKeepsSpecInv :=
  ⟨specInv_reset, fun _ _ hs h =>
    step_keeps (fun _ hs => { hs with }) (fun _ _ => { specInv_reset with }) (fun _ hs => { hs with })
      (fun _ _ _ hs => { hs with }) (fun _ _ _ ha => ha.keeps_specInv) hs h⟩

/-! ## The tables' form and the register rules -/

theorem dataInv_reset : State.reset.DataInv where
  len := .nil ..
  code := .nil ..
  clen := .nil ..
  cpl := .nil ..
  symlist := .nil ..
  dcpl := .nil ..
  dsyms := .nil ..
  dt := .nil ..
  errCode := by decide
  errOp _ := rfl
  codeFits _ := ⟨Nat.zero_le _, Nat.one_pos⟩
  slotLen h := nomatch h
  fill := Nat.zero_le _
  incomplete h := nomatch h

/-- Settles O13. -/
theorem invariantsHoldAtReset : Obligations.InvariantsHoldAtReset := ⟨specInv_reset, dataInv_reset⟩

/-- `FILL` holds the whole fill cursor (R49). -/
theorem installTable_fill_toNat {s : State} (hdt : TableOk .unfilled 65536 s.dt) :
    (installTable s).fill.toNat = (buildTable s.dcpl s.dsyms s.dt).acc.cur ∧ (installTable s).fill.toNat ≤ 65536 := by
  have hcur := (buildTable_fits (dcpl := s.dcpl) (dsyms := s.dsyms) hdt).cur
  have hpow : 2 ^ greatestClass s.dcpl ≤ 2 ^ 16 := Nat.pow_le_pow_right (by decide) (greatestClass_le _)
  rw [installTable_fill, BitVec.toNat_ofNat, Nat.mod_eq_of_lt (by omega)]
  exact ⟨rfl, by omega⟩

theorem Act.keeps_dataInv {i : Instr} {s t : State} (h : Act i s t) (hs : s.DataInv) : t.DataInv := by
  cases h with
  | clearLengths => exact { hs with len := .nil .. }
  | setLength sym len => exact { hs with len := hs.len.set sym.isLt }
  | installCode _ r hc =>
    have hr := canon_tables hc
    exact { hs with
      code := hr.code
      clen := hr.clen
      cpl := hr.cpl
      symlist := hs.symlist.setMany (by have := (canon_syms_length hc).2; omega)
      codeFits := hr.fits }
  | closeHeader =>
    exact { hs with
      slotLen := fun h => nomatch h
      incomplete := fun h => nomatch h }
  | installHeader _ h y c hh hy =>
    have hlen : (hdrCounts h).length = 16 := by rw [hdrCounts, List.length_map]; rfl
    have hdcpl : TableOk 0 17 (Machine.installHeader h y c s).dcpl := by
      rw [installHeader_dcpl]
      exact hs.dcpl.setMany (by omega)
    have hdsyms : TableOk 0 256 (Machine.installHeader h y c s).dsyms := by
      rw [installHeader_dsyms]
      exact hs.dsyms.setMany (by have := hdrTotal_le hh; omega)
    exact { hs with
      dcpl := hdcpl
      dsyms := hdsyms }
  | partTable =>
    exact { hs with
      dt := (buildTable_fits hs.dt).dt
      fill := (installTable_fill_toNat hs.dt).2
      slotLen := fun h => nomatch h
      incomplete := fun h => nomatch h }
  | wholeTable =>
    have hfits := buildTable_fits (dcpl := s.dcpl) (dsyms := s.dsyms) hs.dt
    obtain ⟨hfill, hle⟩ := installTable_fill_toNat hs.dt
    have hmax := installTable_dmaxBits_toNat s
    exact { hs with
      dt := hfits.dt
      fill := hle
      slotLen := fun _ => hmax ▸ hfits.slots
      incomplete := fun _ => by
        change tableIncomplete _ _ = true ↔ (installTable s).fill.toNat ≠ 2 ^ (installTable s).dmaxBits.toNat
        rw [tableIncomplete_iff, hfill, hmax] }
  | _ => exact { hs with }

theorem State.DataInv.raise {s : State} (hs : s.DataInv) (e : Err) (op : Byte) : (s.raise e op).DataInv :=
  { hs with
    errCode := e.code_range.2
    errOp := fun h => absurd e.code_range.1 (by rw [show e.code = 0 from h]; decide) }

/-- Settles O14: every elementary update keeps `DataInv`, with no help from R54's clauses. -/
theorem stepKeepsDataInv : Obligations.StepKeepsDataInv := fun _ _ _ hs h =>
  step_keeps (fun _ hs => { hs with }) (fun _ _ => { dataInv_reset with })
    (fun _ hs => { hs with
      errCode := Nat.zero_le _
      errOp := fun _ => rfl })
    (fun _ e op hs => hs.raise e op) (fun _ _ _ ha => ha.keeps_dataInv) hs h

end Sys2Proof.Machine

/-! SUPPORT. The two sides of the block and the streams: which part of the state the elementary updates of a command may
change (R68, R76, R80). -/

namespace Sys2Proof.Machine

/-! ## The encoder side and the decoder side (R68, R351) -/

/-- Only the encoder's side may differ. -/
def EncoderFrame (s t : State) : Prop := t = s.withEncoderSideOf t

/-- Only the decoder's side may differ. -/
def DecoderFrame (s t : State) : Prop := t = s.withDecoderSideOf t

theorem EncoderFrame.trans {s t u : State} (h1 : EncoderFrame s t) (h2 : EncoderFrame t u) : EncoderFrame s u :=
  Eq.trans h2 (by rw [h1]; rfl)

theorem DecoderFrame.trans {s t u : State} (h1 : DecoderFrame s t) (h2 : DecoderFrame t u) : DecoderFrame s u :=
  Eq.trans h2 (by rw [h1]; rfl)

/-- An encoder command is not on the decoder's side and never answers. -/
theorem encoderSide_excludes {i : Instr} (h : isEncoderSide i = true) : isDecoderSide i = false ∧ writesResp i = false := by
  cases i with
  | nop | rd | clrErr | softReset | frGet | frRawget | brBits | decHdr | decBuild | decSeed | decSym | decRun => cases h
  | _ => exact ⟨rfl, rfl⟩

/-- The updates of an encoder command are within its side; the others are made by other commands. -/
theorem Act.encoderFrame {i : Instr} {s t : State} (hi : isEncoderSide i = true) (h : Act i s t) : EncoderFrame s t := by
  cases h with
  | take h' | inputEnds h' | setMarker h' | useBit h' | refill h' =>
    rw [(encoderSide_excludes hi).1] at h'
    cases h'
  | respond h' =>
    rw [(encoderSide_excludes hi).2] at h'
    cases h'
  | emit h' | answer h' | unseed h' | seed h' | shift h' => rcases h' with rfl | rfl <;> cases hi
  | closeHeader h' | installHeader h' | partTable h' | wholeTable h' => subst h'; cases hi
  | _ => rfl

/-- The updates of a decoder command are within its side; the others are made by other commands. -/
theorem Act.decoderFrame {i : Instr} {s t : State} (hi : isDecoderSide i = true) (h : Act i s t) : DecoderFrame s t := by
  cases h with
  | give h' | refuse h' | writeBit h' | clearWriter h' | setCount h' =>
    rw [(encoderSide_excludes h').1] at hi
    cases hi
  | clearLengths h' | setLength _ _ h' | beginBuild h' | installCode h' => subst h'; cases hi
  | _ => rfl

/-- Settles O22: each update of an encoder command is within its side, and so is the error it raises. -/
theorem encoderSideLeavesDecoderSide : Obligations.EncoderSideLeavesDecoderSide := by
  intro i s t hi h
  exact (exec_ends h).keeps (P := EncoderFrame s) (fun _ _ ha hu => hu.trans (ha.encoderFrame hi))
    (fun _ _ hu => hu.trans rfl) (fun h' => by subst h'; cases hi) (fun h' => by subst h'; cases hi) rfl

/-- Settles O23: each update of a decoder command is within its side, and so is the error it raises. -/
theorem decoderSideLeavesEncoderSide : Obligations.DecoderSideLeavesEncoderSide := by
  intro i s t hi h
  exact (exec_ends h).keeps (P := DecoderFrame s) (fun _ _ ha hu => hu.trans (ha.decoderFrame hi))
    (fun _ _ hu => hu.trans rfl) (fun h' => by subst h'; cases hi) (fun h' => by subst h'; cases hi) rfl

/-! ## SOUT (R66) -/

/-- `t` has the symbols of `s` and some more on SOUT, and has used up one acceptance for each. -/
def SymbolsAppended (s t : State) : Prop := ∃ ys, t.sout = s.sout ++ ys ∧ t.soutHost = s.soutHost.skip ys.length

theorem Act.symbolsAppended {i : Instr} {s t u : State} (h : Act i t u) (ht : SymbolsAppended s t) :
    SymbolsAppended s u := by
  obtain ⟨ys, hout, hhost⟩ := ht
  cases h with
  | emit _ y => exact ⟨ys ++ [y], by simp [hout], by simp [hhost]⟩
  | _ => exact ⟨ys, hout, hhost⟩

/-- Settles O26: of the elementary updates an accepted symbol alone changes SOUT, and no reset does. -/
theorem soutOnlyGrows : Obligations.SoutOnlyGrows := by
  intro s t h
  exact step_keeps (P := SymbolsAppended s) (fun _ hu => hu) (fun _ hu => hu) (fun _ hu => hu) (fun _ _ _ hu => hu)
    (fun _ _ _ ha => ha.symbolsAppended) ⟨[], by simp⟩ h

/-! ## The decode table (R80) -/

/-- The decode table and its two registers are the same (R47 to R49). -/
def SameDecodeTable (s t : State) : Prop := t.dt = s.dt ∧ t.dmaxBits = s.dmaxBits ∧ t.fill = s.fill

theorem Act.sameDecodeTable {i : Instr} {s t u : State} (hi : i ≠ .decBuild) (h : Act i t u) (ht : SameDecodeTable s t) :
    SameDecodeTable s u := by
  cases h with
  | partTable h' | wholeTable h' => exact absurd h' hi
  | _ => exact ht

/-- Settles O27: of the elementary updates only those of `DEC_BUILD` touch the decode table. -/
theorem decodeTableChangedByBuildOnly : Obligations.DecodeTableChangedByBuildOnly := by
  intro i s t hb hr h
  exact (exec_ends h).keeps (P := SameDecodeTable s) (fun _ _ ha => ha.sameDecodeTable hb) (fun _ _ hu => hu)
    (fun _ _ hu => hu) (fun h' => absurd h' hr) ⟨rfl, rfl, rfl⟩

end Sys2Proof.Machine

/-! SUPPORT. Streams of bytes and bits: the host's answers in parts, the ports over several bytes, and the bit writer and the
bit reader over several bits (R64, R65, R150 to R152, R200, R201). -/

namespace Sys2Proof.Machine

/-! ## The host's answers in parts -/

namespace Answers

theorem offers_cons (a : Answers InAnswer) (b : Byte) (bs : List Byte) :
    a.Offers (b :: bs) ↔ a.nth 0 = some (.byte b) ∧ (a.skip 1).Offers bs := by
  constructor
  · intro h
    refine ⟨h 0 (Nat.succ_pos _), fun k hk => ?_⟩
    rw [nth_skip, Nat.add_comm]
    exact h (k + 1) (Nat.succ_lt_succ hk)
  · rintro ⟨h0, h1⟩ (_ | k) hk
    · exact h0
    · have := h1 k (Nat.lt_of_succ_lt_succ hk)
      rwa [nth_skip, Nat.add_comm] at this

theorem offers_append (a : Answers InAnswer) (bs cs : List Byte) :
    a.Offers (bs ++ cs) ↔ a.Offers bs ∧ (a.skip bs.length).Offers cs := by
  induction bs generalizing a with
  | nil => simp [Offers]
  | cons b bs ih => rw [List.cons_append, offers_cons, offers_cons, ih, skip_skip, List.length_cons, Nat.add_comm 1, and_assoc]

theorem offersThenSilent_append (a : Answers InAnswer) (bs cs : List Byte) :
    a.OffersThenSilent (bs ++ cs) ↔ a.Offers bs ∧ (a.skip bs.length).OffersThenSilent cs := by
  rw [OffersThenSilent, offers_append, List.length_append, and_assoc, OffersThenSilent, nth_skip]

theorem acceptsBytes_succ {a : Answers OutAnswer} {k : Nat} (h : a.AcceptsBytes (k + 1)) :
    a.nth 0 = some .accept ∧ (a.skip 1).AcceptsBytes k := by
  refine ⟨h 0 (Nat.succ_pos _), fun j hj => ?_⟩
  rw [nth_skip, Nat.add_comm]
  exact h (j + 1) (Nat.succ_lt_succ hj)

end Answers

/-! ## Several bytes of BIN -/

/-- The bytes the host offers are read in order. -/
theorem rawInMany_of_offers {bs : List Byte} {s : State} (h : s.bin.Offers bs) :
    rawInMany bs.length s = .ok bs (s.took bs.length) := by
  induction bs generalizing s with
  | nil => simp [rawInMany]
  | cons b bs ih =>
    obtain ⟨h0, h1⟩ := (s.bin.offers_cons b bs).1 h
    have hb : rawIn s = .ok b (s.took 1) := by rw [rawIn_apply, h0]
    rw [List.length_cons, rawInMany, Cmd.bind_ok hb, Cmd.bind_ok (ih (s := s.took 1) h1), State.took_took, Nat.add_comm 1]
    rfl

theorem rawInMany_of_silent {bs : List Byte} {n : Nat} {s : State} (hn : bs.length < n) (h : s.bin.OffersThenSilent bs) :
    rawInMany n s = .error (.stalled .binStalled) (s.took bs.length) := by
  induction n generalizing bs s with
  | zero => cases hn
  | succ n ih =>
    cases bs with
    | nil =>
      have hn : s.bin.nth 0 = none := h.2
      have hb : rawIn s = .error (.stalled .binStalled) s := by rw [rawIn_apply, hn]
      rw [rawInMany, Cmd.bind_error hb, List.length_nil, State.took_zero]
    | cons b bs =>
      obtain ⟨h0, h1⟩ := (s.bin.offersThenSilent_append [b] bs).1 h
      have hb : rawIn s = .ok b (s.took 1) := by rw [rawIn_apply, ((s.bin.offers_cons b []).1 h0).1]
      rw [rawInMany, Cmd.bind_ok hb, Cmd.bind_error (ih (s := s.took 1) (Nat.lt_of_succ_lt_succ hn) h1), State.took_took,
        List.length_cons, Nat.add_comm 1]

/-! ## Several bytes to BOUT -/

/-- Bytes that the host accepts are written; the command goes on with the others. -/
theorem rawOutMany_accepted {k : Nat} {bs : List Byte} {s : State} (h : s.boutHost.AcceptsBytes k) :
    rawOutMany bs s = rawOutMany (bs.drop k) (s.gave (bs.take k)) := by
  induction k generalizing bs s with
  | zero => simp
  | succ k ih =>
    cases bs with
    | nil => simp
    | cons b bs =>
      obtain ⟨h0, h1⟩ := Answers.acceptsBytes_succ h
      have hb : rawOut b s = .ok () (s.gave [b]) := by rw [rawOut_apply, h0]
      rw [rawOutMany, Cmd.bind_ok hb, ih (s := s.gave [b]) h1]
      simp

theorem rawOutMany_of_silent {k : Nat} {bs : List Byte} {s : State} (hk : k < bs.length) (h : s.boutHost.SilentAfter k) :
    rawOutMany bs s = .error (.stalled .boutStalled) (s.gave (bs.take k)) := by
  have hn : (s.gave (bs.take k)).boutHost.nth 0 = none := by
    rw [State.gave_boutHost, List.length_take_of_le hk.le, Answers.nth_skip]
    exact h.2
  have hb : rawOut bs[k] (s.gave (bs.take k)) = .error (.stalled .boutStalled) (s.gave (bs.take k)) := by
    rw [rawOut_apply, hn]
  rw [rawOutMany_accepted h.1, List.drop_eq_getElem_cons hk, rawOutMany, Cmd.bind_error hb]

theorem rawOutMany_append (bs cs : List Byte) (s : State) :
    rawOutMany (bs ++ cs) s = (do rawOutMany bs; rawOutMany cs) s := by
  induction bs generalizing s with
  | nil => rfl
  | cons b bs ih =>
    simp only [List.cons_append, rawOutMany]
    cases hb : rawOut b s with
    | ok _ t => rw [Cmd.bind_ok hb, ih, Cmd.bind_apply, Cmd.bind_apply, Cmd.bind_ok hb]
    | error r t => rw [Cmd.bind_error hb, Cmd.bind_error (Cmd.bind_error hb)]

/-- Bytes that were all written were all accepted. -/
theorem rawOutMany_ok {bs : List Byte} {s t : State} (h : rawOutMany bs s = .ok () t) : t = s.gave bs := by
  induction bs generalizing s with
  | nil => cases h; simp
  | cons b bs ih =>
    rw [rawOutMany, Cmd.bind_apply, rawOut_apply] at h
    rcases hn : s.boutHost.nth 0 with _ | ⟨_ | _⟩ <;> rw [hn] at h
    · cases h
    · rw [ih h, State.gave_gave, List.singleton_append]
    · cases h

theorem Cmd.bind_pure (x : Cmd Unit) (s : State) : (do x; pure ()) s = x s := by
  rw [Cmd.bind_apply]
  cases x s <;> rfl

/-- `StuffOut` writes the stuffed form of its byte (R120). -/
theorem stuffOut_eq_rawOutMany (b : Byte) (s : State) : stuffOut b s = rawOutMany (stuffed [b]) s := by
  by_cases hb : b = 0xFF
  · simp only [stuffOut, stuffed, hb, if_true, List.flatMap_cons, List.flatMap_nil, List.append_nil, rawOutMany]
    exact (congrFun (congrArg _ (funext fun _ => funext fun u => (Cmd.bind_pure _ u).symm)) s :)
  · simp only [stuffOut, stuffed, hb, if_false, List.flatMap_cons, List.flatMap_nil, List.append_nil, rawOutMany]

/-! ## Bits and bytes -/

theorem bitsOf_succ {w : Nat} (v : BitVec w) (n : Nat) : bitsOf v (n + 1) = v.getLsbD n :: bitsOf v n := by
  simp only [bitsOf, List.range_succ_eq_map, List.map_cons, List.map_map]
  refine congrArg₂ _ (by simp) (List.map_congr_left fun i _ => ?_)
  simp only [Function.comp, Nat.succ_eq_add_one]
  congr 1
  omega

@[simp] theorem length_bitsOf {w : Nat} (v : BitVec w) (n : Nat) : (bitsOf v n).length = n := by simp [bitsOf]

theorem getElem_bitsOf {w : Nat} (v : BitVec w) {n i : Nat} (h : i < (bitsOf v n).length) :
    (bitsOf v n)[i] = v.getLsbD (n - 1 - i) := by simp [bitsOf]

theorem bitsVal_append (bs cs : List Bool) : bitsVal (bs ++ cs) = bitsVal bs * 2 ^ cs.length + bitsVal cs := by
  induction cs using List.reverseRecOn with
  | nil => simp [bitsVal]
  | append_singleton cs c ih =>
    simp only [bitsVal, ← List.append_assoc, List.foldl_append, List.foldl_cons, List.foldl_nil, List.length_append,
      List.length_singleton, Nat.pow_succ] at ih ⊢
    rw [ih]
    ring

/-- The bits of a value, read as a number, are the value (R201). -/
theorem bitsVal_bitsOf {w : Nat} (v : BitVec w) (n : Nat) : bitsVal (bitsOf v n) = v.toNat % 2 ^ n := by
  induction n with
  | zero => simp [bitsOf, bitsVal, Nat.mod_one]
  | succ n ih =>
    rw [bitsOf_succ, ← List.singleton_append, bitsVal_append, ih, length_bitsOf, Nat.mod_pow_succ, ← Nat.toNat_testBit]
    simp only [bitsVal, List.foldl_cons, List.foldl_nil, BitVec.getLsbD]
    ring

/-- A first group of eight bits is the first byte (R153). -/
theorem dataBytes_bitsOf_append (b : Byte) (bs : List Bool) : dataBytes (bitsOf b 8 ++ bs) = b :: dataBytes bs := by
  have hn : (8 + bs.length) / 8 = bs.length / 8 + 1 := by omega
  rw [dataBytes, List.length_append, length_bitsOf, hn, List.range_succ_eq_map, List.map_cons, List.map_map, dataBytes]
  refine congrArg₂ _ ?_ (List.map_congr_left fun j _ => ?_)
  · have hv : bitsVal (bitsOf b 8) = b.toNat := by rw [bitsVal_bitsOf, Nat.mod_eq_of_lt b.isLt]
    simp [hv]
  · have hd : 8 * (j + 1) = (bitsOf b 8).length + 8 * j := by rw [length_bitsOf]; omega
    simp only [Function.comp, Nat.succ_eq_add_one]
    rw [hd, List.drop_append, List.drop_of_length_le (by omega), List.nil_append, Nat.add_sub_cancel_left]

theorem leftover_bitsOf_append (b : Byte) (bs : List Bool) : leftover (bitsOf b 8 ++ bs) = leftover bs := by
  have hn : 8 * ((8 + bs.length) / 8) = (bitsOf b 8).length + 8 * (bs.length / 8) := by rw [length_bitsOf]; omega
  rw [leftover, List.length_append, length_bitsOf, hn, List.drop_append, List.drop_of_length_le (by omega), List.nil_append,
    Nat.add_sub_cancel_left, leftover]

theorem dataBytes_of_short {bs : List Bool} (h : bs.length < 8) : dataBytes bs = [] := by
  simp [dataBytes, Nat.div_eq_of_lt h]

theorem leftover_of_short {bs : List Bool} (h : bs.length < 8) : leftover bs = bs := by
  simp [leftover, Nat.div_eq_of_lt h]

/-! ## The bit writer over several bits (R150 to R153) -/

/-- `WriteBit` of each bit in turn. -/
def writeAll : List Bool → Cmd Unit
  | [] => pure ()
  | b :: bs => do
    writeBit b
    writeAll bs

/-- `WriteBits(v, n)` writes the bits of `v` (R151). -/
theorem writeBits_eq_writeAll (v : BitVec 16) (n : Nat) : writeBits v n = writeAll (bitsOf v n) := by
  induction n with
  | zero => rfl
  | succ n ih => rw [bitsOf_succ, writeBits, writeAll, ih]

/-- `s` with these contents of its writer. -/
def State.withWriter (s : State) (b : Byte) (c : BitVec 3) : State := { s with wbuf := b, wcnt := c }

/-- The first clause of R54: the bits of `WBUF` that hold nothing are 0. -/
def State.WriterClear (s : State) : Prop := ∀ k, k < 8 - s.wcnt.toNat → s.wbuf.getLsbD k = false

theorem getLsbD_putBit_same (b : Byte) {k : Nat} (bit : Bool) (hk : k < 8) : (putBit b k bit).getLsbD k = bit := by
  simp [putBit, hk]

theorem length_pendingBits (s : State) : s.pendingBits.length = s.wcnt.toNat := by simp [State.pendingBits]

/-- A bit written within a byte comes after the pending ones. -/
theorem pendingBits_within {s : State} (bit : Bool) (h : s.wcnt ≠ 7) :
    (s.withWriter (putBit s.wbuf (7 - s.wcnt.toNat) bit) (s.wcnt + 1)).pendingBits = s.pendingBits ++ [bit] := by
  have hn : (s.wcnt + 1).toNat = s.wcnt.toNat + 1 := by bv_omega
  simp only [State.pendingBits, State.withWriter, hn, List.range_succ, List.map_append, List.map_cons, List.map_nil]
  congr 1
  · refine List.map_congr_left fun i hi => getLsbD_putBit_of_ne _ _ ?_
    have := List.mem_range.1 hi
    omega
  · rw [getLsbD_putBit_same _ _ (by omega)]

/-- The last bit of a byte makes the byte that goes out. -/
theorem pendingBits_last {s : State} (bit : Bool) (h : s.wcnt = 7) :
    s.pendingBits ++ [bit] = bitsOf (putBit s.wbuf 0 bit) 8 := by
  have hn : s.wcnt.toNat = 7 := by rw [h]; rfl
  rw [bitsOf, List.range_succ, List.map_append, State.pendingBits, hn]
  congr 1
  · refine List.map_congr_left fun i hi => (getLsbD_putBit_of_ne _ _ ?_).symm
    have := List.mem_range.1 hi
    omega
  · exact congrArg (fun x => [x]) (getLsbD_putBit_same _ _ (by decide)).symm

/-- The last bit of a byte empties the writer and sends the byte out stuffed (R150). -/
theorem writeBit_last_eq_rawOutMany (bit : Bool) {s : State} (h : s.wcnt = 7) :
    writeBit bit s = rawOutMany (stuffed [putBit s.wbuf 0 bit]) (s.withWriter 0 0) := by
  rw [writeBit_last bit s h, stuffOut_eq_rawOutMany]
  rfl

/-- Everything the writer does with the bits `bs`: it is emptied, the completed bytes go out stuffed, and the bits left over
stay in it. -/
theorem writeAll_apply (bs : List Bool) (s : State) : ∃ b c,
    writeAll bs s = (do
      rawOutMany (stuffed (dataBytes (s.pendingBits ++ bs)))
      modify (State.withWriter · b c)) (s.withWriter 0 0) ∧
    (s.withWriter b c).pendingBits = leftover (s.pendingBits ++ bs) ∧ (s.WriterClear → (s.withWriter b c).WriterClear) := by
  induction bs generalizing s with
  | nil =>
    have hshort : (s.pendingBits ++ []).length < 8 := by
      rw [List.append_nil, length_pendingBits]
      exact s.wcnt.isLt
    refine ⟨s.wbuf, s.wcnt, ?_, ?_, id⟩
    · rw [dataBytes_of_short hshort]
      rfl
    · rw [leftover_of_short hshort, List.append_nil]
      rfl
  | cons bit bs ih =>
    rw [writeAll]
    by_cases h7 : s.wcnt = 7
    · have hbits : s.pendingBits ++ bit :: bs = bitsOf (putBit s.wbuf 0 bit) 8 ++ bs := by
        rw [← pendingBits_last bit h7, List.append_assoc, List.singleton_append]
      have hout := writeBit_last_eq_rawOutMany bit h7
      obtain ⟨b, c, hw, hp, hc⟩ := ih ((s.withWriter 0 0).gave (stuffed [putBit s.wbuf 0 bit]))
      refine ⟨b, c, ?_, ?_, fun _ => hc fun _ _ => BitVec.getLsbD_zero⟩
      · rw [hbits, dataBytes_bitsOf_append, stuffed_cons]
        cases hx : rawOutMany (stuffed [putBit s.wbuf 0 bit]) (s.withWriter 0 0) with
        | ok _ t =>
          rw [Cmd.bind_ok (hout.trans hx), rawOutMany_ok hx, hw, Cmd.bind_apply, Cmd.bind_apply, rawOutMany_append,
            Cmd.bind_ok hx, rawOutMany_ok hx]
          rfl
        | error r t =>
          rw [Cmd.bind_error (hout.trans hx), Cmd.bind_error]
          rw [rawOutMany_append, Cmd.bind_error hx]
      · rw [hbits, leftover_bitsOf_append]
        exact hp
    · obtain ⟨b, c, hw, hp, hc⟩ := ih (s.withWriter (putBit s.wbuf (7 - s.wcnt.toNat) bit) (s.wcnt + 1))
      rw [pendingBits_within bit h7, List.append_assoc, List.singleton_append] at hw hp
      rw [Cmd.bind_ok (writeBit_within bit s h7)]
      exact ⟨b, c, hw, hp, fun hs => hc (writer_putBit bit h7 hs)⟩

/-! ## `Flush` (R152) -/

theorem flushLoop_empty (fuel : Nat) {s : State} (h : s.wcnt = 0) : flushLoop fuel s = .ok () s := by
  cases fuel with
  | zero => rfl
  | succ fuel => rw [flushLoop, Cmd.bind_ok (Cmd.get_apply s), if_pos h, Cmd.pure_apply]

/-- `Flush` of a partial byte writes the 1 bits that it lacks. -/
theorem flushLoop_eq_writeAll {fuel : Nat} {s : State} (h : s.wcnt ≠ 0) (hf : 8 ≤ fuel + s.wcnt.toNat) :
    flushLoop fuel s = writeAll (List.replicate (8 - s.wcnt.toNat) true) s := by
  induction fuel generalizing s with
  | zero => omega
  | succ fuel ih =>
    rw [flushLoop, Cmd.bind_ok (Cmd.get_apply s), if_neg h]
    by_cases h7 : s.wcnt = 7
    · have hout := writeBit_last_eq_rawOutMany true h7
      have hrep : List.replicate (8 - s.wcnt.toNat) true = [true] := by rw [h7]; rfl
      rw [hrep, writeAll, writeAll, Cmd.bind_pure]
      cases hx : rawOutMany (stuffed [putBit s.wbuf 0 true]) (s.withWriter 0 0) with
      | ok _ t =>
        have ht : t.wcnt = 0 := by rw [rawOutMany_ok hx]; rfl
        rw [Cmd.bind_ok (hout.trans hx), flushLoop_empty fuel ht, hout, hx]
      | error r t => rw [Cmd.bind_error (hout.trans hx), hout, hx]
    · have hn : (s.wcnt + 1).toNat = s.wcnt.toNat + 1 := by bv_omega
      have h1 : s.wcnt + 1 ≠ 0 := by bv_omega
      have hrep : 8 - s.wcnt.toNat = 8 - (s.wcnt.toNat + 1) + 1 := by bv_omega
      rw [hrep, List.replicate_succ, writeAll, Cmd.bind_ok (writeBit_within true s h7), Cmd.bind_ok (writeBit_within true s h7),
        ih h1 (by rw [hn]; omega), hn]

/-- The byte that `Flush` completes (R155). -/
theorem pendingBits_flush (s : State) : s.pendingBits ++ List.replicate (8 - s.wcnt.toNat) true =
    bitsOf (s.wbuf ||| BitVec.ofNat 8 (2 ^ (8 - s.wcnt.toNat) - 1)) 8 := by
  have hlen := length_pendingBits s
  have h8 := s.wcnt.isLt
  refine List.ext_getElem (by simp [hlen]; omega) fun i h1 h2 => ?_
  have hi8 : i < 8 := by simpa using h2
  have hmask : (BitVec.ofNat 8 (2 ^ (8 - s.wcnt.toNat) - 1)).getLsbD (8 - 1 - i) = decide (s.wcnt.toNat ≤ i) := by
    rw [BitVec.getLsbD_ofNat, Nat.testBit_two_pow_sub_one, ← Bool.decide_and, decide_eq_decide]
    omega
  rw [getElem_bitsOf, BitVec.getLsbD_or, hmask]
  by_cases hi : i < s.wcnt.toNat
  · rw [List.getElem_append_left (by omega)]
    simp [State.pendingBits, Nat.not_le.2 hi]
  · rw [List.getElem_append_right (by omega)]
    simp [Nat.le_of_not_lt hi]

/-! ## The bit reader over several bits (R200, R201) -/

theorem unstuffIn_of_offers {d : Byte} {s : State} (h : s.bin.Offers (stuffed [d])) :
    unstuffIn s = .ok d (s.took (stuffed [d]).length) := by
  rw [unstuffIn_apply]
  by_cases hd : d = 0xFF
  · subst hd
    rw [h 0 (by decide), h 1 (by decide)]
    rfl
  · have hb : stuffed [d] = [d] := by simp only [stuffed, List.flatMap_cons, List.flatMap_nil, hd, if_false, List.append_nil]
    rw [hb] at h ⊢
    rw [((s.bin.offers_cons d []).1 h).1]
    exact if_neg hd

/-- The state in which the reader, its buffer used up, asks for another data byte after the data bytes `ds`. -/
def State.readerAfter (s : State) (ds : List Byte) : State :=
  { s.took (stuffed ds).length with rbuf := ds.getLastD s.rbuf, rcnt := 0 }

theorem readBitsLoop_error {n : Nat} {v : BitVec 16} {ds : List Byte} {s u : State} {r : Stop}
    (hn : ds.length < s.dataNeeded n) (hds : s.bin.Offers (stuffed ds)) (hr : unstuffIn (s.readerAfter ds) = .error r u) :
    readBitsLoop n v s = .error r u := by
  induction n generalizing v ds s with
  | zero => simp [State.dataNeeded] at hn
  | succ n ih =>
    rw [readBitsLoop]
    by_cases h0 : s.rcnt = 0
    · cases ds with
      | nil =>
        have hs : s.readerAfter [] = s := by rw [State.readerAfter, ← h0]; exact s.took_zero
        refine Cmd.bind_error ?_
        rw [readBit_fetch s h0, ← hs, hr]
      | cons d ds =>
        rw [stuffed_cons, Answers.offers_append] at hds
        have hb : readBit s = .ok (d.getLsbD 7) { s.took (stuffed [d]).length with rbuf := d, rcnt := 7 } := by
          rw [readBit_fetch s h0, unstuffIn_of_offers hds.1]
        rw [Cmd.bind_ok hb]
        refine ih ?_ hds.2 ?_
        · change ds.length < (n - 7 + 7) / 8
          have : s.rcnt.toNat = 0 := by rw [h0]; rfl
          rw [State.dataNeeded, List.length_cons] at hn
          omega
        · rw [← hr, State.readerAfter, State.readerAfter, stuffed_cons d ds, List.length_append, ← State.took_took,
            List.getLastD_cons]
          rfl
    · rw [Cmd.bind_ok (readBit_within s h0)]
      refine ih ?_ hds hr
      change ds.length < (n - (s.rcnt - 1).toNat + 7) / 8
      have : (s.rcnt - 1).toNat = s.rcnt.toNat - 1 := by bv_omega
      have : s.rcnt.toNat ≠ 0 := by bv_omega
      rw [State.dataNeeded] at hn
      omega

end Sys2Proof.Machine

/-! SUPPORT. The bytes of a DHT header, written and parsed (R164, R204). -/

namespace Sys2Proof.Machine

/-- The bytes `ENC_HDR` writes are those of R164. -/
theorem hdrBytes_eq_headerBytes (s : State) : hdrBytes s = headerBytes s := by
  have hlt := s.nsym.isLt
  have hseg : (segLen s.nsym).toNat = 19 + s.nsym.toNat := by
    rw [segLen]
    simp
    omega
  have hhi : (segLen s.nsym).extractLsb' 8 8 = BitVec.ofNat 8 ((19 + s.nsym.toNat) / 256) := by
    rw [BitVec.extractLsb', hseg, Nat.shiftRight_eq_div_pow]
  have hlo : (segLen s.nsym).extractLsb' 0 8 = BitVec.ofNat 8 ((19 + s.nsym.toNat) % 256) := by
    rw [BitVec.extractLsb', hseg, Nat.shiftRight_zero]
    exact BitVec.eq_of_toNat_eq (by simp)
  have hcnt : bytesBE s.encCnt = [24, 16, 8, 0].map fun k => BitVec.ofNat 8 (s.encCnt.toNat / 2 ^ k) := by
    simp only [bytesBE, BitVec.extractLsb', Nat.shiftRight_eq_div_pow, List.map_cons, List.map_nil]
  rw [hdrBytes, headerBytes, hhi, hlo, hcnt]
  rfl

/-- The 21 fixed bytes of a header with the given counts and `n` symbols (R164). -/
def fixedHeader (counts : List Byte) (n : Nat) : List Byte :=
  [0xFF, 0xC4, BitVec.ofNat 8 ((19 + n) / 256), BitVec.ofNat 8 ((19 + n) % 256), 0x00] ++ counts

theorem headerOf_eq_append (counts syms : List Byte) (n : BitVec 32) :
    headerOf counts syms n =
      fixedHeader counts syms.length ++ (syms ++ ([24, 16, 8, 0].map fun k => BitVec.ofNat 8 (n.toNat / 2 ^ k))) := by
  simp only [headerOf, fixedHeader, List.append_assoc]

section
variable {counts : List Byte} {n : Nat}

theorem hdrCounts_fixedHeader (hc : counts.length = 16) : hdrCounts (fixedHeader counts n) = counts := by
  refine List.ext_getElem (by rw [hdrCounts, List.length_map, hc]; rfl) fun i h1 h2 => ?_
  simp only [hdrCounts, lenClasses, List.getElem_map, List.getElem_range', Nat.one_mul]
  rw [hdrByte, fixedHeader, List.getD_append_right _ _ _ _ (by simp; omega), List.getD_eq_getElem?_getD]
  simp [h2, show 4 + (1 + i) - 5 = i by omega]

/-- A header whose counts sum to its number of symbols passes the checks (R204). -/
theorem hdrError_fixedHeader (hc : counts.length = 16) (hs : (counts.map BitVec.toNat).sum = n) (hn : n ≤ 256) :
    hdrError (fixedHeader counts n) = none := by
  have hseg : hdrSegLen (fixedHeader counts n) = 19 + n := by
    change (BitVec.ofNat 8 ((19 + n) / 256) ++ BitVec.ofNat 8 ((19 + n) % 256)).toNat = _
    rw [BitVec.toNat_append, BitVec.toNat_ofNat, BitVec.toNat_ofNat, ← Nat.shiftLeft_add_eq_or_of_lt (by omega),
      Nat.shiftLeft_eq]
    omega
  have htot : hdrTotal (fixedHeader counts n) = n := by rw [hdrTotal, hdrCounts_fixedHeader hc, hs]
  have hlen : Config.seglenMin ≤ 19 + n ∧ 19 + n ≤ Config.seglenMax := by
    simp only [Config.seglenMin, Config.seglenMax]
    omega
  rw [hdrError, hseg, htot, if_neg (not_not.2 ⟨rfl, rfl⟩), if_neg (not_not.2 hlen), if_neg (not_not.2 rfl)]
  exact if_neg (not_not.2 rfl)

end

end Sys2Proof.Machine

/-! SUPPORT. A silent host: a command, or a part of one, that waits for ever (R64 to R66, R271; log 5). -/

namespace Sys2Proof.Machine

/-! ## Commands that stall -/

/-- The command makes a request that the host never answers. -/
def Cmd.Stalls {α : Type} (x : Cmd α) (s : State) (f : Fault) : Prop := ∃ u, x s = .error (.stalled f) u

namespace Cmd.Stalls

variable {α β : Type} {x : Cmd α} {g : α → Cmd β} {s t : State} {f : Fault}

theorem bind (h : x.Stalls s f) : (x >>= g).Stalls s f := by
  obtain ⟨u, hu⟩ := h
  exact ⟨u, Cmd.bind_error hu⟩

/-- A first part that completes leaves the stall of the second. -/
theorem after {a : α} (hx : x s = .ok a t) (h : (g a).Stalls t f) : (x >>= g).Stalls s f := by
  obtain ⟨u, hu⟩ := h
  exact ⟨u, by rw [Cmd.bind_ok hx, hu]⟩

theorem require {c : Bool} {e : Err} {g : PUnit → Cmd β} (hc : c = true) (h : (g ()).Stalls s f) :
    (Machine.require c e >>= g).Stalls s f := after (require_true s e hc) h

theorem getRequire {c : State → Bool} {e : Err} {g : State → Cmd β} (hc : c s = true) (h : (g s).Stalls s f) :
    (do let s ← get; Machine.require (c s) e; g s).Stalls s f := after (Cmd.get_apply s) (require hc h)

end Cmd.Stalls

/-- A gated command whose rule stalls has no next state. -/
theorem runGated_of_stalls {o : Opcode} {x : Cmd Unit} {s : State} {f : Fault} (h0 : s.status.err = 0) (h : x.Stalls s f) :
    runGated o x s = .fault f := by
  obtain ⟨u, hu⟩ := h
  exact runGated_stalled h0 hu

/-! ## BIN -/

theorem rawIn_stalls {s : State} (h : s.bin.nth 0 = none) : rawIn.Stalls s .binStalled :=
  ⟨s, by rw [rawIn_apply, h]⟩

theorem rawInMany_stalls {n : Nat} {bs : List Byte} {s : State} (hn : bs.length < n) (h : s.bin.OffersThenSilent bs) :
    (rawInMany n).Stalls s .binStalled := ⟨_, rawInMany_of_silent hn h⟩

/-- The unstuffer waits for its data byte, or for the byte after a 0xFF (R121). -/
theorem unstuffIn_stalls {s : State} (h : s.bin.nth 0 = none ∨ s.bin.OffersThenSilent [0xFF]) :
    unstuffIn.Stalls s .binStalled := by
  obtain h | ⟨hoff, hsil⟩ := h
  · exact (rawIn_stalls h).bind
  · have hb : rawIn s = .ok 0xFF (s.took 1) := by rw [rawIn_apply, ((s.bin.offers_cons _ _).1 hoff).1]
    exact .after hb (rawIn_stalls (s := s.took 1) (by rw [State.took_bin, Answers.nth_skip]; exact hsil)).bind

theorem readBits_stalls {n : Nat} {ds : List Byte} {s : State} (h : s.ReaderWaits n ds) :
    (readBits n).Stalls s .binStalled := by
  obtain ⟨hn, h⟩ := h
  have hds : s.bin.Offers (stuffed ds) := h.elim (·.1) fun h => ((s.bin.offersThenSilent_append _ _).1 h).1
  have hw : unstuffIn.Stalls (s.readerAfter ds) .binStalled := by
    refine unstuffIn_stalls (h.imp (fun h => ?_) fun h => ((s.bin.offersThenSilent_append _ _).1 h).2)
    change (s.bin.skip _).nth 0 = none
    rw [Answers.nth_skip]
    exact h.2
  obtain ⟨u, hu⟩ := hw
  exact ⟨u, readBitsLoop_error hn hds hu⟩

/-- The rest of `DEC_HDR` once the 21 fixed bytes `h` have passed the checks: the symbols and the count (R205). -/
def readTail (h : List Byte) : Cmd Unit := do
  let y ← rawInMany (hdrTotal h)
  let c ← rawInMany Config.countBytes
  modify (installHeader h y c)

/-- The reading of a header by `DEC_HDR` (R204, R205). -/
def readHeader : Cmd Unit := do
  let h ← rawInMany Config.hdrFixedBytes
  match hdrError h with
  | some e => raiseErr e
  | none => readTail h

/-- `s` with the flags cleared that `DEC_HDR` clears before it reads (R205). -/
def State.headerClosed (s : State) : State :=
  { s with status := { s.status with hdrValid := false, decReady := false, seeded := false } }

/-- `DEC_HDR` stalls where the reading of its header does. -/
theorem exec_decHdr_stalls {s : State} {f : Fault} (h0 : s.status.err = 0) (hr : s.rcnt = 0)
    (h : readHeader.Stalls s.headerClosed f) : exec .decHdr s = .fault f :=
  runGated_of_stalls h0 (.getRequire (decide_eq_true hr) (.after (Cmd.set_apply _ _) h))

theorem readTail_stalls {h syms cs : List Byte} {s : State} {j : Nat} (hn : hdrTotal h = syms.length)
    (hj : j < syms.length + 4) (hb : s.bin.OffersThenSilent ((syms ++ cs).take j)) :
    (readTail h).Stalls s .binStalled := by
  rw [readTail, hn]
  by_cases hlt : j < syms.length
  · rw [List.take_append_of_le_length hlt.le] at hb
    exact (rawInMany_stalls (by rw [List.length_take]; omega) hb).bind
  · obtain ⟨i, rfl⟩ := Nat.exists_eq_add_of_le (Nat.le_of_not_lt hlt)
    rw [List.take_length_add_append, Answers.offersThenSilent_append] at hb
    refine .after (rawInMany_of_offers hb.1) (rawInMany_stalls (bs := cs.take i) ?_ hb.2).bind
    rw [Config.countBytes, List.length_take]
    omega

theorem exec_decHdr_of_shortFixed {s : State} {bs : List Byte} (h0 : s.status.err = 0) (hr : s.rcnt = 0)
    (hlen : bs.length < 21) (h : s.bin.OffersThenSilent bs) : exec .decHdr s = .fault .binStalled :=
  exec_decHdr_stalls h0 hr (rawInMany_stalls (s := s.headerClosed) hlen h).bind

/-- A good header that never ends: its fixed bytes, or those after them, are short. -/
theorem exec_decHdr_of_shortHeader {s : State} {counts syms : List Byte} {n : BitVec 32} {k : Nat} (h0 : s.status.err = 0)
    (hr : s.rcnt = 0) (hc : counts.length = 16) (hs : (counts.map BitVec.toNat).sum = syms.length)
    (hle : syms.length ≤ 256) (hk : k < 25 + syms.length) (h : s.bin.OffersThenSilent ((headerOf counts syms n).take k)) :
    exec .decHdr s = .fault .binStalled := by
  have h21 : (fixedHeader counts syms.length).length = 21 := by simp [fixedHeader, hc]
  by_cases hlt : k < 21
  · exact exec_decHdr_of_shortFixed h0 hr (by rw [List.length_take]; omega) h
  · obtain ⟨j, rfl⟩ : ∃ j, k = (fixedHeader counts syms.length).length + j := ⟨k - 21, by omega⟩
    rw [headerOf_eq_append, List.take_length_add_append, Answers.offersThenSilent_append] at h
    obtain ⟨hfix, htail⟩ := h
    have hread := rawInMany_of_offers (s := s.headerClosed) hfix
    rw [h21] at hread htail
    have htot : hdrTotal (fixedHeader counts syms.length) = syms.length := by rw [hdrTotal, hdrCounts_fixedHeader hc, hs]
    refine exec_decHdr_stalls h0 hr (.after hread ?_)
    rw [hdrError_fixedHeader hc hs hle]
    exact readTail_stalls htot (by omega) htail

/-! ## BOUT -/

theorem rawOut_stalls {s : State} (h : s.boutHost.nth 0 = none) (b : Byte) : (rawOut b).Stalls s .boutStalled :=
  ⟨s, by rw [rawOut_apply, h]⟩

theorem rawOutMany_stalls {k : Nat} {bs : List Byte} {s : State} (hk : k < bs.length) (h : s.boutHost.SilentAfter k) :
    (rawOutMany bs).Stalls s .boutStalled := ⟨_, rawOutMany_of_silent hk h⟩

theorem stuffOut_stalls {b : Byte} {k : Nat} {s : State} (hk : k < (stuffed [b]).length) (h : s.boutHost.SilentAfter k) :
    (stuffOut b).Stalls s .boutStalled := ⟨_, by rw [stuffOut_eq_rawOutMany, rawOutMany_of_silent hk h]⟩

theorem writeAll_stalls {bs : List Bool} {k : Nat} {s : State} (hk : k < s.bytesFor bs) (h : s.boutHost.SilentAfter k) :
    (writeAll bs).Stalls s .boutStalled := by
  obtain ⟨b, c, hw, -, -⟩ := writeAll_apply bs s
  obtain ⟨u, hu⟩ := (rawOutMany_stalls (s := s.withWriter 0 0) hk h).bind
  exact ⟨u, hw.trans hu⟩

theorem writeBits_stalls {v : BitVec 16} {n k : Nat} {s : State} (hk : k < s.bytesFor (bitsOf v n))
    (h : s.boutHost.SilentAfter k) : (writeBits v n).Stalls s .boutStalled := by
  rw [writeBits_eq_writeAll]
  exact writeAll_stalls hk h

theorem flush_stalls {k : Nat} {s : State} (hw : s.wcnt ≠ 0)
    (hk : k < (stuffed [s.wbuf ||| BitVec.ofNat 8 (2 ^ (8 - s.wcnt.toNat) - 1)]).length) (h : s.boutHost.SilentAfter k) :
    flush.Stalls s .boutStalled := by
  have hbytes : s.bytesFor (List.replicate (8 - s.wcnt.toNat) true) =
      (stuffed [s.wbuf ||| BitVec.ofNat 8 (2 ^ (8 - s.wcnt.toNat) - 1)]).length := by
    rw [State.bytesFor, pendingBits_flush, ← List.append_nil (bitsOf _ 8), dataBytes_bitsOf_append,
      dataBytes_of_short (by decide)]
  obtain ⟨u, hu⟩ := writeAll_stalls (hk.trans_eq hbytes.symm) h
  exact ⟨u, (flushLoop_eq_writeAll hw (by omega)).trans hu⟩

theorem someCountOver_eq_false {cpl : Table (BitVec 9)} (h : ∀ L, 1 ≤ L → L ≤ 16 → (cpl.get 0 L).toNat ≤ 255) :
    someCountOver cpl = false := by
  rw [someCountOver, List.any_eq_false]
  intro L hL
  obtain ⟨h1, h2⟩ := (mem_lenClasses L).1 hL
  have := h L h1 h2
  rw [decide_eq_true_eq]
  omega

/-! ## SOUT, and the decoding of a symbol (R210) -/

theorem symOut_stalls {s : State} (h : s.soutHost.nth 0 = none) (y : Byte) : (symOut y).Stalls s .soutStalled :=
  ⟨s, by rw [symOut_apply, h]⟩

section
variable {s : State} (hv : (s.dt.get .unfilled (s.win.toNat % 2 ^ s.dmaxBits.toNat)).v = true)
include hv

theorem decodeSymbol_stalls_sout (h : s.soutHost.nth 0 = none) : decodeSymbol.Stalls s .soutStalled :=
  .getRequire (c := fun s => (s.dt.get .unfilled (s.win.toNat % 2 ^ s.dmaxBits.toNat)).v) hv (symOut_stalls h _).bind

/-- The refill of the window waits for a data byte. -/
theorem decodeSymbol_stalls_bin (hrem : 1 < s.remain.toNat) (hacc : s.soutHost.AcceptsSymbols 1) {ds : List Byte}
    (h : s.ReaderWaits (s.dt.get .unfilled (s.win.toNat % 2 ^ s.dmaxBits.toNat)).len.toNat ds) :
    decodeSymbol.Stalls s .binStalled := by
  refine .getRequire (c := fun s => (s.dt.get .unfilled (s.win.toNat % 2 ^ s.dmaxBits.toNat)).v) hv ?_
  have hout : ∀ y, symOut y s = .ok () (s.emitted [y]) := fun y => by rw [symOut_apply, hacc 0 Nat.one_pos]
  refine .after (hout _) (.after (Cmd.modify_apply _ _) (.after (Cmd.get_apply _) ?_))
  have h1 : s.remain - 1 ≠ 0 := by bv_omega
  split
  · exact absurd ‹_› h1
  · exact .bind (readBits_stalls h)

end

theorem seedWindow_stalls {s : State} {ds : List Byte} (hd : s.status.decReady = true)
    (h : s.ReaderWaits s.dmaxBits.toNat ds) : seedWindow.Stalls s .binStalled :=
  .getRequire (c := fun s => s.status.decReady) hd (.after (Cmd.set_apply _ _) (.bind (readBits_stalls h)))

/-- `DEC_SYM` stalls where the decoding of its symbol does. -/
theorem exec_decSym_stalls {s : State} {f : Fault} (h0 : s.status.err = 0) (hs : s.status.seeded = true) (hr : s.remain ≠ 0)
    (h : decodeSymbol.Stalls s f) : exec .decSym s = .fault f :=
  runGated_of_stalls h0 (.getRequire (c := fun s => s.status.seeded) hs (.require (decide_eq_true hr) h))

/-! ## Inside `DEC_RUN` (R211) -/

theorem State.raise_err_ne_zero (s : State) (e : Err) (op : Byte) : (s.raise e op).status.err ≠ 0 := by
  have := e.code_range.1
  rw [State.raise_err]
  bv_omega

/-- `DEC_SYM` with its `require` lines as a case split (R210). -/
theorem exec_decSym_eq (s : State) : exec .decSym s = runGated .decSym
    (if s.status.seeded = false then raiseErr .notReady else if s.remain = 0 then raiseErr .seq else decodeSymbol) s := by
  change runGated _ _ _ = _
  unfold runGated
  congr 2
  rw [Cmd.bind_ok (Cmd.get_apply s)]
  cases hs : s.status.seeded with
  | false => rfl
  | true =>
    rw [Cmd.bind_ok (require_true _ _ rfl), if_neg (by decide)]
    by_cases hr : s.remain = 0
    · rw [Cmd.bind_error (require_false _ _ (by simp [hr])), if_pos hr, raiseErr_apply]
    · rw [Cmd.bind_ok (require_true _ _ (decide_eq_true hr)), if_neg hr]

theorem exec_decSym_fault {s : State} {f : Fault} (h : exec .decSym s = .fault f) :
    s.remain ≠ 0 ∧ decodeSymbol.Stalls s f := by
  rw [exec_decSym_eq] at h
  obtain ⟨-, u, hu⟩ := runGated_fault h
  split at hu
  · cases hu
  · split at hu
    · cases hu
    · exact ⟨‹_›, u, hu⟩

/-- A `DEC_SYM` that leaves no error decoded a symbol. -/
theorem exec_decSym_next {s t : State} (h : exec .decSym s = .next t) (ht : t.status.err = 0) :
    s.remain ≠ 0 ∧ decodeSymbol s = .ok () t := by
  rw [exec_decSym_eq] at h
  obtain ⟨h0, rfl⟩ | ⟨-, hok⟩ | ⟨-, e, u, -, rfl⟩ := runGated_next h
  · exact absurd ht h0
  · split at hok
    · cases hok
    · split at hok
      · cases hok
      · exact ⟨‹_›, hok⟩
  · exact absurd ht (u.raise_err_ne_zero e _)

/-- What completes after a first part: the first part completed (the bind of a command in progress, inverted). -/
theorem Cmd.of_bind_ok {α β : Type} {x : Cmd α} {g : α → Cmd β} {s u : State} {b : β} (h : (x >>= g) s = .ok b u) :
    ∃ a t, x s = .ok a t ∧ g a t = .ok b u := by
  rw [Cmd.bind_apply] at h
  cases hx : x s with
  | ok a t => exact ⟨a, t, rfl, by rwa [hx] at h⟩
  | error r t => rw [hx] at h; cases h

theorem require_ok {c : Bool} {e : Err} {s t : State} (h : require c e s = .ok () t) : c = true ∧ t = s := by
  cases c <;> cases h
  exact ⟨rfl, rfl⟩

theorem symOut_ok {y : Byte} {s t : State} (h : symOut y s = .ok () t) : t = s.emitted [y] := by
  rw [symOut_apply] at h
  rcases hn : s.soutHost.nth 0 with _ | ⟨_⟩ <;> rw [hn] at h <;> cases h
  rfl

/-- A decoded symbol is counted (R210). -/
theorem decodeSymbol_remain {s t : State} (h : decodeSymbol s = .ok () t) : t.remain = s.remain - 1 := by
  obtain ⟨_, _, hget, h⟩ := Cmd.of_bind_ok h
  cases hget
  obtain ⟨_, _, hreq, h⟩ := Cmd.of_bind_ok h
  obtain ⟨-, rfl⟩ := require_ok hreq
  obtain ⟨_, _, hout, h⟩ := Cmd.of_bind_ok h
  cases symOut_ok hout
  obtain ⟨_, _, hanswer, h⟩ := Cmd.of_bind_ok h
  cases hanswer
  obtain ⟨_, _, hget, h⟩ := Cmd.of_bind_ok h
  cases hget
  split at h
  · cases h; rfl
  · obtain ⟨b, u, hbits, h⟩ := Cmd.of_bind_ok h
    cases h
    have hframe := (readBits_frame _).of_ok hbits
    rw [hframe]
    rfl

theorem decSymTimes_noError {k : Nat} {t u : State} (h : decSymTimes k t = .next u) (hu : u.status.err = 0) :
    t.status.err = 0 := by
  induction k generalizing t with
  | zero => cases h; exact hu
  | succ k ih =>
    by_contra h0
    rw [decSymTimes, show exec .decSym t = .next t from runGated_dropped h0] at h
    exact h0 (ih h)

theorem decodeLoop_succ {n : Nat} {s : State} (h : s.remain ≠ 0) :
    decodeLoop (n + 1) s = (do decodeSymbol; decodeLoop n) s := by
  rw [decodeLoop, Cmd.bind_ok (Cmd.get_apply s), if_neg h]

/-- The loop of `DEC_RUN` stalls at the symbol where the `DEC_SYM` it consists of does. -/
theorem decodeLoop_stalls {k n : Nat} {t u : State} {f : Fault} (h : decSymTimes k t = .next u) (hu : u.status.err = 0)
    (hf : exec .decSym u = .fault f) (hn : t.remain.toNat ≤ n) : (decodeLoop n).Stalls t f := by
  induction k generalizing t n with
  | zero =>
    cases h
    obtain ⟨hr, hs⟩ := exec_decSym_fault hf
    obtain ⟨m, rfl⟩ : ∃ m, n = m + 1 := ⟨n - 1, by bv_omega⟩
    obtain ⟨v, hv⟩ := hs.bind (g := fun _ => decodeLoop m)
    exact ⟨v, (decodeLoop_succ hr).trans hv⟩
  | succ k ih =>
    rw [decSymTimes] at h
    split at h
    · rename_i t' ht
      obtain ⟨hr, hs⟩ := exec_decSym_next ht (decSymTimes_noError h hu)
      have hrem := decodeSymbol_remain hs
      obtain ⟨m, rfl⟩ : ∃ m, n = m + 1 := ⟨n - 1, by bv_omega⟩
      obtain ⟨v, hv⟩ := Cmd.Stalls.after (g := fun _ => decodeLoop m) hs (ih h (by bv_omega))
      exact ⟨v, (decodeLoop_succ hr).trans hv⟩
    · cases h
    · cases h

theorem exec_decRun_stalls {s t u : State} {k : Nat} {f : Fault} (h0 : s.status.err = 0)
    (hseed : exec .decSeed s = .next t) (h : decSymTimes k t = .next u) (hu : u.status.err = 0)
    (hf : exec .decSym u = .fault f) : exec .decRun s = .fault f := by
  have hok : seedWindow s = .ok () t := by
    obtain ⟨h1, -⟩ | ⟨-, h1⟩ | ⟨-, e, v, -, rfl⟩ := runGated_next hseed
    · exact absurd h0 h1
    · exact h1
    · exact absurd (decSymTimes_noError h hu) (v.raise_err_ne_zero e _)
  exact runGated_of_stalls h0 (.after hok (.after (Cmd.get_apply t) (decodeLoop_stalls h hu hf le_rfl)))

/-- Settles O33: each command stalls where the part of it that meets the unanswered request does. -/
theorem unansweredRequestHasNoStep : Obligations.UnansweredRequestHasNoStep := by
  intro s h0
  dsimp only
  refine ⟨?_, ?_, ?_, ?_, ?_, ?_, ?_, ?_, ?_, ?_, ?_, ?_, ?_, ?_, ?_⟩
  -- BIN
  · exact fun hr h => runGated_of_stalls h0 (.getRequire (decide_eq_true hr) (rawIn_stalls h).bind)
  · exact fun hr h => runGated_of_stalls h0 (.getRequire (decide_eq_true hr) (unstuffIn_stalls h).bind)
  · exact fun hr bs hlen h => exec_decHdr_of_shortFixed h0 hr hlen h
  · exact fun hr counts syms n k hc hs hle hk h => exec_decHdr_of_shortHeader h0 hr hc hs hle hk h
  · intro n ds hn h
    have hlegal : countLegal n = true := decide_eq_true hn
    rw [exec, execBrBits, if_pos hlegal]
    exact runGated_of_stalls h0 (readBits_stalls h).bind
  · exact fun hd ds h =>
      ⟨runGated_of_stalls h0 (seedWindow_stalls hd h), runGated_of_stalls h0 (seedWindow_stalls hd h).bind⟩
  · exact fun hs hrem hv hacc ds h =>
      exec_decSym_stalls h0 hs (by bv_omega) (decodeSymbol_stalls_bin hv hrem hacc h)
  -- BOUT
  · exact fun hw h b => runGated_of_stalls h0 (.getRequire (decide_eq_true hw) (rawOut_stalls h b))
  · exact fun hw b k hk h => runGated_of_stalls h0 (.getRequire (decide_eq_true hw) (stuffOut_stalls hk h))
  · intro n v k hn hk h
    have hlegal : countLegal n = true := decide_eq_true hn
    rw [exec, execBwBits, if_pos hlegal]
    exact runGated_of_stalls h0 (writeBits_stalls hk h)
  · exact fun hw k hk h => runGated_of_stalls h0 (flush_stalls hw hk h)
  · exact fun hready sym hc k hk h => runGated_of_stalls h0
      (.getRequire (c := fun s => s.status.encReady) hready (.require (decide_eq_true hc) (writeBits_stalls hk h)))
  · intro hready hw hcounts k hk h
    have hfits : (!someCountOver s.cpl) = true := by rw [someCountOver_eq_false hcounts]; rfl
    rw [← hdrBytes_eq_headerBytes] at hk
    exact runGated_of_stalls h0 (.getRequire (c := fun s => s.status.encReady) hready
      (.require (decide_eq_true hw) (.require hfits (rawOutMany_stalls hk h))))
  -- SOUT
  · exact fun hs hr hv h => exec_decSym_stalls h0 hs hr (decodeSymbol_stalls_sout hv h)
  -- inside `DEC_RUN`
  · exact fun t k u f hseed h hu hf => exec_decRun_stalls h0 hseed h hu hf

end Sys2Proof.Machine

/-! SUPPORT. `decode` and `encode` as inverses (30_encoding.md R91 to R98): fields of a word, the tables read both ways, what
a row's fixed bits and operand fields say, and the statements about legal and illegal words. -/

namespace Sys2Proof

/-! ## Fields of a word -/

section
variable {v j k n : Nat}

theorem append_inj {a c : BitVec n} {b d : BitVec k} (h : a ++ b = c ++ d) : a = c ∧ b = d := by
  have hhigh := congrArg (BitVec.extractLsb' k n) h
  have hlow := congrArg (BitVec.extractLsb' 0 k) h
  rw [BitVec.extractLsb'_append_eq_left, BitVec.extractLsb'_append_eq_left] at hhigh
  rw [BitVec.extractLsb'_append_eq_right, BitVec.extractLsb'_append_eq_right] at hlow
  exact ⟨hhigh, hlow⟩

/-- The lowest field of an encoded command, below its opcode byte. -/
theorem extractLsb'_low_field {a : BitVec j} {b : BitVec k} {c : BitVec n} : (a ++ (b ++ c)).extractLsb' 0 n = c := by
  rw [BitVec.extractLsb'_append_eq_of_add_le (by omega), BitVec.extractLsb'_append_eq_right]

/-- The field between an encoded command's lowest one and its opcode byte. -/
theorem extractLsb'_high_field {a : BitVec j} {b : BitVec k} {c : BitVec n} : (a ++ (b ++ c)).extractLsb' n k = b := by
  rw [BitVec.extractLsb'_append_eq_of_add_le (by omega), BitVec.extractLsb'_append_eq_left]

/-- The same, where reserved bits stand above that field. -/
theorem extractLsb'_mid_field {a : BitVec j} {r : BitVec v} {b : BitVec k} {c : BitVec n} :
    (a ++ (r ++ b ++ c)).extractLsb' n k = b := by
  rw [BitVec.extractLsb'_append_eq_of_add_le (by omega), BitVec.extractLsb'_append_eq_of_le le_rfl, Nat.sub_self,
    BitVec.extractLsb'_append_eq_right]

/-- A field is its high part above its low part. -/
theorem field_eq_append (w : BitVec v) (start : Nat) :
    w.extractLsb' start (n + k) = w.extractLsb' (start + k) n ++ w.extractLsb' start k :=
  (BitVec.extractLsb'_append_extractLsb'_eq_extractLsb' rfl).symm

/-- A mask acts on each part of a field. -/
theorem and_field_parts {w : BitVec v} {start : Nat} {m c : BitVec n} {m' c' : BitVec k}
    (h : w.extractLsb' start (n + k) &&& (m ++ m') = c ++ c') :
    w.extractLsb' (start + k) n &&& m = c ∧ w.extractLsb' start k &&& m' = c' := by
  rw [field_eq_append, BitVec.and_append] at h
  exact append_inj h

/-- A field with no bit in its high part is its low part below zeros. -/
theorem zero_append_field {w : BitVec v} {start : Nat}
    (h : w.extractLsb' start (n + k) &&& (BitVec.allOnes n ++ 0#k) = 0#n ++ 0#k) :
    0#n ++ w.extractLsb' start k = w.extractLsb' start (n + k) := by
  rw [field_eq_append, ← (and_field_parts h).1, BitVec.and_allOnes]

end

/-! ## The tables, read both ways (R93, R251) -/

@[simp] theorem Opcode.ofByte_byte (o : Opcode) : Opcode.ofByte o.byte = some o := by cases o <;> rfl

theorem Opcode.ofByte_eq_some_iff {b : Byte} {o : Opcode} : Opcode.ofByte b = some o ↔ b = o.byte := by
  refine ⟨fun h => ?_, fun h => h ▸ o.ofByte_byte⟩
  have hb := List.find?_some (show List.find? _ _ = _ from h)
  exact (beq_iff_eq.mp hb).symm

theorem Opcode.byte_inj {o p : Opcode} : o.byte = p.byte ↔ o = p := by
  rw [← ofByte_eq_some_iff, ofByte_byte, Option.some.injEq]

theorem Opcode.mem_opcodeMap (o : Opcode) : o ∈ opcodeMap := by cases o <;> decide

@[simp] theorem Sel.ofByte_byte (x : Sel) : Sel.ofByte x.byte = some x := by cases x <;> rfl

theorem Sel.ofByte_eq_some_iff {b : Byte} {x : Sel} : Sel.ofByte b = some x ↔ b = x.byte := by
  refine ⟨fun h => ?_, fun h => h ▸ x.ofByte_byte⟩
  have hb := List.find?_some (show List.find? _ _ = _ from h)
  exact (beq_iff_eq.mp hb).symm

theorem Sel.mem_selMap (x : Sel) : x ∈ selMap := by cases x <;> decide

theorem Sel.idxLegal_iff_range {x : Sel} {idx : BitVec 16} :
    x.idxLegal idx = true ↔ x.idxRange.1 ≤ idx.toNat ∧ idx.toNat ≤ x.idxRange.2 := by
  rw [idxLegal, Bool.and_eq_true, decide_eq_true_eq, decide_eq_true_eq]

theorem Sel.idxLegal_iff_covers {x : Sel} {idx : BitVec 16} : x.idxLegal idx = true ↔ x.Covers idx := by
  refine ⟨fun h => ?_, Machine.idxLegal_of_covers⟩
  obtain ⟨hlo, hhi⟩ := idxLegal_iff_range.mp h
  cases x with
  | len | code | symlist | dsyms => exact hhi
  | cpl | dcpl => exact ⟨hlo, hhi⟩
  | dt => trivial
  | _ => exact BitVec.eq_of_toNat_eq (Nat.le_zero.mp hhi)

theorem countLegal_iff {n : BitVec 5} : countLegal n = true ↔ n.toNat ≤ 16 := decide_eq_true_iff

/-! ## The operand fields (R91, R96) -/

theorem operandsOf_rd_iff {w : Word} {i : Instr} :
    operandsOf .rd w = some i ↔
      ∃ x : Sel, w.extractLsb' 16 8 = x.byte ∧ x.Covers (w.extractLsb' 0 16) ∧ i = .rd x (w.extractLsb' 0 16) := by
  simp only [operandsOf, ← Sel.ofByte_eq_some_iff, ← Sel.idxLegal_iff_covers]
  split
  · rename_i x hx
    simp [hx, eq_comm (a := i)]
  · rename_i hx
    simp [hx]

theorem operandsOf_bwBits_iff {w : Word} {i : Instr} :
    operandsOf .bwBits w = some i ↔
      (w.extractLsb' 16 5).toNat ≤ 16 ∧ i = .bwBits (w.extractLsb' 16 5) (w.extractLsb' 0 16) := by
  simp [operandsOf, countLegal_iff, eq_comm (a := i)]

theorem operandsOf_brBits_iff {w : Word} {i : Instr} :
    operandsOf .brBits w = some i ↔ (w.extractLsb' 16 5).toNat ≤ 16 ∧ i = .brBits (w.extractLsb' 16 5) := by
  simp [operandsOf, countLegal_iff, eq_comm (a := i)]

/-- The value constraints of R96 are what an operand field can fail. -/
theorem exists_operandsOf_iff {o : Opcode} {w : Word} :
    (∃ i, operandsOf o w = some i) ↔
      (o = .bwBits ∨ o = .brBits → (w.extractLsb' 16 5).toNat ≤ 16) ∧
      (o = .rd → ∃ x : Sel, w.extractLsb' 16 8 = x.byte ∧ x.Covers (w.extractLsb' 0 16)) := by
  cases o with
  | rd => simp [operandsOf_rd_iff]
  | bwBits => simp [operandsOf_bwBits_iff]
  | brBits => simp [operandsOf_brBits_iff]
  | _ => simp [operandsOf]

theorem wellFormed_of_operandsOf {o : Opcode} {w : Word} {i : Instr} (h : operandsOf o w = some i) : i.WellFormed := by
  cases o with
  | rd => obtain ⟨x, -, hidx, rfl⟩ := operandsOf_rd_iff.mp h; exact hidx
  | bwBits => obtain ⟨hn, rfl⟩ := operandsOf_bwBits_iff.mp h; exact hn
  | brBits => obtain ⟨hn, rfl⟩ := operandsOf_brBits_iff.mp h; exact hn
  | _ => cases h; trivial

/-! ## The fixed bits (R91, R95) -/

/-- The fixed bits of an encoded command are its row's. -/
theorem encode_and_mask (i : Instr) : encode i &&& i.opcode.format.mask = i.opcode.matchWord :=
  match i with
  | .rd _ _ => Laws.EncodedFixedBits.rd _ _
  | .frPut _ => Laws.EncodedFixedBits.frPut _
  | .frRaw _ => Laws.EncodedFixedBits.frRaw _
  | .bwBits _ _ => Laws.EncodedFixedBits.bwBits _ _
  | .encSetlen _ _ => Laws.EncodedFixedBits.encSetlen _ _
  | .encSetcntLo _ => Laws.EncodedFixedBits.encSetcntLo _
  | .encSetcntHi _ => Laws.EncodedFixedBits.encSetcntHi _
  | .encSym _ => Laws.EncodedFixedBits.encSym _
  | .brBits _ => Laws.EncodedFixedBits.brBits _
  | .nop | .clrErr | .softReset | .frGet | .frRawget | .bwFlush | .encClrlen | .encBuild | .encHdr
  | .decHdr | .decBuild | .decSeed | .decSym | .decRun => rfl

theorem Format.mask_eq_append (f : Format) : f.mask = BitVec.allOnes 8 ++ f.mask.extractLsb' 0 24 := by cases f <;> rfl

/-- A word that matches a row has the row's opcode byte, and no bit in the rest of the row's mask. -/
theorem matches_row_parts {o : Opcode} {w : Word} (h : w &&& o.format.mask = o.matchWord) :
    opByte w = o.byte ∧ w.extractLsb' 0 24 &&& o.format.mask.extractLsb' 0 24 = 0 := by
  rw [Format.mask_eq_append, ← BitVec.extractLsb'_eq_self (x := w)] at h
  obtain ⟨hop, hrest⟩ := and_field_parts (n := 8) (k := 24) h
  exact ⟨BitVec.and_allOnes.symm.trans hop, hrest⟩

/-! ## `decode` (R98) -/

/-- A word decodes to a command when the row of the command's opcode matches it and the command is read from its fields. -/
theorem decode_eq_ok_iff {w : Word} {i : Instr} :
    decode w = .ok i ↔ w &&& i.opcode.format.mask = i.opcode.matchWord ∧ operandsOf i.opcode w = some i := by
  constructor
  · intro h
    unfold decode at h
    split at h
    · cases h
    · split at h
      · split at h <;> cases h
        rename_i o _ hm _ hi
        obtain rfl := Machine.operandsOf_opcode hi
        exact ⟨hm, hi⟩
      · cases h
  · rintro ⟨hm, hi⟩
    rw [decode, (matches_row_parts hm).1, Opcode.ofByte_byte]
    simp only [hm, hi, if_true]

theorem exists_decode_iff {w : Word} :
    (∃ i, decode w = .ok i) ↔ ∃ o : Opcode, w &&& o.format.mask = o.matchWord ∧ ∃ i, operandsOf o w = some i := by
  constructor
  · rintro ⟨i, h⟩
    obtain ⟨hm, hi⟩ := decode_eq_ok_iff.mp h
    exact ⟨_, hm, i, hi⟩
  · rintro ⟨o, hm, i, hi⟩
    obtain rfl := Machine.operandsOf_opcode hi
    exact ⟨i, decode_eq_ok_iff.mpr ⟨hm, hi⟩⟩

/-! ## Decoding what was encoded (R92) -/

/-- The operand fields of an encoded command are its operands, and they pass the checks of R96. -/
theorem operandsOf_encode {i : Instr} (h : i.WellFormed) : operandsOf i.opcode (encode i) = some i := by
  cases i with
  | rd x idx =>
    have hsel : (encode (.rd x idx)).extractLsb' 16 8 = x.byte := extractLsb'_high_field
    have hidx : (encode (.rd x idx)).extractLsb' 0 16 = idx := extractLsb'_low_field
    refine operandsOf_rd_iff.mpr ⟨x, hsel, ?_⟩
    rw [hidx]
    exact ⟨h, rfl⟩
  | bwBits n val =>
    have hn : (encode (.bwBits n val)).extractLsb' 16 5 = n := extractLsb'_mid_field
    have hval : (encode (.bwBits n val)).extractLsb' 0 16 = val := extractLsb'_low_field
    refine operandsOf_bwBits_iff.mpr ?_
    rw [hn, hval]
    exact ⟨h, rfl⟩
  | brBits n =>
    have hn : (encode (.brBits n)).extractLsb' 16 5 = n := extractLsb'_mid_field
    refine operandsOf_brBits_iff.mpr ?_
    rw [hn]
    exact ⟨h, rfl⟩
  | encSetlen sym len => exact congrArg some (congrArg₂ Instr.encSetlen extractLsb'_low_field extractLsb'_mid_field)
  | frPut b => exact congrArg (some ∘ Instr.frPut) extractLsb'_low_field
  | frRaw b => exact congrArg (some ∘ Instr.frRaw) extractLsb'_low_field
  | encSym sym => exact congrArg (some ∘ Instr.encSym) extractLsb'_low_field
  | encSetcntLo imm => exact congrArg (some ∘ Instr.encSetcntLo) extractLsb'_low_field
  | encSetcntHi imm => exact congrArg (some ∘ Instr.encSetcntHi) extractLsb'_low_field
  | _ => rfl

/-- Settles O2: the row of an encoded command matches it, and its operands are read back. -/
theorem decodeOfEncode : Obligations.DecodeOfEncode :=
  fun i hi => decode_eq_ok_iff.mpr ⟨encode_and_mask i, operandsOf_encode hi⟩

/-! ## Encoding what was decoded (R95, R98) -/

/-- Below the opcode byte a matching word is its operand fields and zeros, so the fields encode to it. -/
theorem operandBits_of_operandsOf {o : Opcode} {w : Word} {i : Instr} (hi : operandsOf o w = some i)
    (h : w.extractLsb' 0 24 &&& o.format.mask.extractLsb' 0 24 = 0) : i.operandBits = w.extractLsb' 0 24 := by
  cases o with
  | rd =>
    obtain ⟨x, hsel, -, rfl⟩ := operandsOf_rd_iff.mp hi
    rw [Instr.operandBits, ← hsel]
    exact (field_eq_append w 0).symm
  | frPut | frRaw | encSym => cases hi; exact zero_append_field (n := 16) (k := 8) h
  | encSetcntLo | encSetcntHi => cases hi; exact zero_append_field (n := 8) (k := 16) h
  | encSetlen =>
    cases hi
    obtain ⟨hlen, -⟩ := and_field_parts (m := 0x7FF#11 ++ 0#5) (m' := 0#8) (c := 0) (c' := 0) h
    rw [Instr.operandBits, zero_append_field hlen]
    exact (field_eq_append w 0).symm
  | bwBits =>
    obtain ⟨-, rfl⟩ := operandsOf_bwBits_iff.mp hi
    obtain ⟨hn, -⟩ := and_field_parts (m := 7#3 ++ 0#5) (m' := 0#16) (c := 0) (c' := 0) h
    rw [Instr.operandBits, zero_append_field hn]
    exact (field_eq_append w 0).symm
  | brBits =>
    obtain ⟨-, rfl⟩ := operandsOf_brBits_iff.mp hi
    obtain ⟨hn, hlow⟩ := and_field_parts (m := 7#3 ++ 0#5) (m' := BitVec.allOnes 16) (c := 0) (c' := 0) h
    have hzero : w.extractLsb' 0 16 = 0#16 := BitVec.and_allOnes.symm.trans hlow
    rw [Instr.operandBits, zero_append_field hn, ← hzero]
    exact (field_eq_append w 0).symm
  | _ => cases hi; exact (BitVec.and_allOnes.symm.trans h).symm

/-- Settles O3: opcode byte and operand bits are the word's, and the operands passed the checks of R96. -/
theorem encodeOfDecode : Obligations.EncodeOfDecode := by
  intro w i h
  obtain ⟨hm, hi⟩ := decode_eq_ok_iff.mp h
  obtain ⟨hop, hrest⟩ := matches_row_parts hm
  refine ⟨?_, wellFormed_of_operandsOf hi⟩
  rw [encode, ← hop, operandBits_of_operandsOf hi hrest, opByte]
  exact BitVec.extractLsb'_append_extractLsb'

/-! ## Legal words (R94 to R96) -/

theorem exists_opcodeRow_iff {w : Word} :
    (∃ r ∈ Machine.opcodeRows, w &&& r.1 = r.2) ↔ ∃ o : Opcode, w &&& o.format.mask = o.matchWord := by
  rw [show Machine.opcodeRows = opcodeMap.map fun o => (o.format.mask, o.matchWord) from rfl]
  simp [Opcode.mem_opcodeMap]

theorem exists_selectorRow_iff {b : Byte} {idx : BitVec 16} :
    (∃ r ∈ Machine.selectorRows, b.toNat = r.1 ∧ r.2.1 ≤ idx.toNat ∧ idx.toNat ≤ r.2.2) ↔
      ∃ x : Sel, b = x.byte ∧ x.Covers idx := by
  rw [show Machine.selectorRows = selMap.map fun x => (x.byte.toNat, x.idxRange) from rfl]
  simp [Sel.mem_selMap, BitVec.toNat_inj, ← Sel.idxLegal_iff_range, Sel.idxLegal_iff_covers]

/-- Settles O4: the two tables are the decoder's own, and a row's operands fail by R96 only. -/
theorem decodesExactlyTheLegalWords : Obligations.DecodesExactlyTheLegalWords := by
  intro w
  rw [exists_decode_iff, Machine.LegalWord, exists_opcodeRow_iff, exists_selectorRow_iff, ← exists_and_right]
  refine exists_congr fun o => and_congr_right fun hm => ?_
  have hop (p : Opcode) : w.extractLsb' 24 8 = p.byte ↔ o = p := by
    rw [← Opcode.byte_inj, ← (matches_row_parts hm).1, opByte]
  rw [exists_operandsOf_iff, ← hop .bwBits, ← hop .brBits, ← hop .rd]
  rfl

/-! ## Reserved opcodes (R94) -/

/-- The four reserved ranges hold no opcode of the map. -/
theorem Opcode.byte_not_reserved (o : Opcode) :
    ¬((0x04 ≤ o.byte.toNat ∧ o.byte.toNat ≤ 0x0F) ∨ (0x14 ≤ o.byte.toNat ∧ o.byte.toNat ≤ 0x1F) ∨
      (0x29 ≤ o.byte.toNat ∧ o.byte.toNat ≤ 0x2F) ∨ (0x36 ≤ o.byte.toNat ∧ o.byte.toNat ≤ 0xFF)) := by
  cases o <;> decide

/-- Settles O5: the word has no row, so `step` raises `E_ILLEGAL` with the word's opcode byte. -/
theorem reservedOpcodeRaisesIllegal : Obligations.ReservedOpcodeRaisesIllegal := by
  intro s w hres hmove herr
  have hnone : Opcode.ofByte (opByte w) = none := by
    refine Option.eq_none_iff_forall_ne_some.mpr fun o ho => o.byte_not_reserved ?_
    rw [← Opcode.ofByte_eq_some_iff.mp ho]
    exact hres
  have hdec : decode w = .error .reservedOpcode := by rw [decode, hnone]
  simp only [Machine.step, hmove, hdec]
  exact if_pos herr

/-- Settles O1: nine closed words. -/
theorem sampleWordsDecode : Obligations.SampleWordsDecode := by
  unfold Obligations.SampleWordsDecode
  decide

end Sys2Proof

/-! SUPPORT. The framer (40_framer.md): the stuffer and the unstuffer over several bytes, and its four commands. -/

namespace Sys2Proof.Machine

/-! ## The stuffed form (R120, R122) -/

theorem stuffed_cons_ff (ds : List Byte) : stuffed (0xFF :: ds) = 0xFF :: 0x00 :: stuffed ds := stuffed_cons 0xFF ds

theorem stuffed_cons_of_ne {d : Byte} (hd : d ≠ 0xFF) (ds : List Byte) : stuffed (d :: ds) = d :: stuffed ds := by
  rw [stuffed, List.flatMap_cons, if_neg hd]
  rfl

theorem stuffed_singleton_pos (b : Byte) : 0 < (stuffed [b]).length := by
  by_cases hb : b = 0xFF
  · subst hb
    decide
  · rw [stuffed_cons_of_ne hb]
    exact Nat.succ_pos _

/-- A stuffed sequence holds no marker: each 0xFF is a data byte's own, and its 0x00 is the next byte. -/
theorem stuffed_zero_after_ff {ds : List Byte} {k : Nat} (h : (stuffed ds)[k]? = some 0xFF) :
    (stuffed ds)[k + 1]? = some 0x00 := by
  induction ds generalizing k with
  | nil => cases h
  | cons d ds ih =>
    by_cases hd : d = 0xFF
    · subst hd
      rw [stuffed_cons_ff] at h ⊢
      match k, h with
      | 0, _ => rfl
      | 1, h => exact absurd (Option.some.inj h) (by decide)
      | k + 2, h => exact ih h
    · rw [stuffed_cons_of_ne hd] at h ⊢
      match k, h with
      | 0, h => exact absurd (Option.some.inj h) hd
      | k + 1, h => exact ih h

/-! ## The stuffer over several bytes (R65, R120) -/

theorem rawOutMany_of_accepts {bs : List Byte} {s : State} (h : s.boutHost.AcceptsBytes bs.length) :
    rawOutMany bs s = .ok () (s.gave bs) := by
  rw [rawOutMany_accepted h, List.drop_length, List.take_length]
  rfl

/-- A failed byte ends the sequence with the bytes before it written. -/
theorem rawOutMany_of_fails {k : Nat} {bs : List Byte} {s : State} (hk : k < bs.length) (h : s.boutHost.FailsAfter k) :
    rawOutMany bs s = .error (.raised .ioWrite) (s.gaveThenRefused (bs.take k)) := by
  obtain ⟨hacc, hfail⟩ := h
  have hn : (s.gave (bs.take k)).boutHost.nth 0 = some .fail := by
    rw [State.gave_boutHost, List.length_take_of_le hk.le, Answers.nth_skip]
    exact hfail
  have hb : rawOut bs[k] (s.gave (bs.take k)) = .error (.raised .ioWrite) (s.gaveThenRefused (bs.take k)) := by
    simp only [rawOut_apply, hn, State.gave_gaveThenRefused, List.append_nil]
  rw [rawOutMany_accepted hacc, List.drop_eq_getElem_cons hk, rawOutMany, Cmd.bind_error hb]

theorem stuffMany_eq_rawOutMany (ds : List Byte) (s : State) : stuffMany ds s = rawOutMany (stuffed ds) s := by
  induction ds generalizing s with
  | nil => rfl
  | cons d ds ih =>
    rw [stuffMany, stuffed_cons, rawOutMany_append, Cmd.bind_apply, Cmd.bind_apply, stuffOut_eq_rawOutMany]
    cases rawOutMany (stuffed [d]) s with
    | ok _ t => exact ih t
    | error r t => rfl

/-! ## The unstuffer (R64, R121) -/

theorem rawIn_of_offers {b : Byte} {s : State} (h : s.bin.Offers [b]) : rawIn s = .ok b (s.took 1) := by
  rw [rawIn_apply, ((s.bin.offers_cons b []).1 h).1]

theorem rawIn_of_ends {s : State} (h : s.bin.OffersThenEnds []) : rawIn s = .error (.raised .ioRead) (s.tookToEnd 0) := by
  have hend : s.bin.nth 0 = some .endOfStream := h.2
  rw [rawIn_apply, hend]

theorem unstuffIn_of_marker {x : Byte} {s : State} (hx : x ≠ 0x00) (h : s.bin.Offers [0xFF, x]) :
    unstuffIn s = .error (.raised .marker) { s.took 2 with marker := x } := by
  have hff : s.bin.nth 0 = some (.byte 0xFF) := h 0 Nat.two_pos
  have hmark : s.bin.nth 1 = some (.byte x) := h 1 Nat.one_lt_two
  rw [unstuffIn_apply, hff, hmark]
  exact if_neg hx

theorem unstuffIn_of_ends {s : State} (h : s.bin.OffersThenEnds []) :
    unstuffIn s = .error (.raised .ioRead) (s.tookToEnd 0) := Cmd.bind_error (rawIn_of_ends h)

theorem unstuffIn_of_ff_ends {s : State} (h : s.bin.OffersThenEnds [0xFF]) :
    unstuffIn s = .error (.raised .ioRead) (s.tookToEnd 1) := by
  have hff : s.bin.nth 0 = some (.byte 0xFF) := h.1 0 Nat.one_pos
  have hend : s.bin.nth 1 = some .endOfStream := h.2
  rw [unstuffIn_apply, hff, hend]
  rfl

theorem unstuffMany_error {s t : State} {r : Stop} (n : Nat) (h : unstuffIn s = .error r t) :
    unstuffMany (n + 1) s = .error r t := Cmd.bind_error h

/-- Unstuffing the stuffed form gives its data bytes and takes exactly that form; further calls go on after it. -/
theorem unstuffMany_of_offers {ds : List Byte} {s : State} (n : Nat) (h : s.bin.Offers (stuffed ds)) :
    unstuffMany (ds.length + n) s = (do let bs ← unstuffMany n; pure (ds ++ bs)) (s.took (stuffed ds).length) := by
  induction ds generalizing s with
  | nil =>
    have hnil : s.took (stuffed []).length = s := s.took_zero
    rw [List.length_nil, Nat.zero_add, hnil, Cmd.bind_apply]
    cases unstuffMany n s <;> rfl
  | cons d ds ih =>
    rw [stuffed_cons, Answers.offers_append] at h
    obtain ⟨hd, hds⟩ := h
    rw [List.length_cons, Nat.add_right_comm, unstuffMany, Cmd.bind_ok (unstuffIn_of_offers hd), Cmd.bind_apply,
      ih (s := s.took _) hds, State.took_took, ← List.length_append, ← stuffed_cons, Cmd.bind_apply, Cmd.bind_apply]
    cases unstuffMany n (s.took (stuffed (d :: ds)).length) <;> rfl

/-- Settles O34: the calls run over the stuffed form as one sequence of raw bytes, and over BIN one data byte at a time. -/
theorem unstuffInvertsStuff : Obligations.UnstuffInvertsStuff := by
  intro ds s
  refine ⟨fun h => ?_, fun h => ?_, fun k => stuffed_zero_after_ff, fun x hx h => ?_⟩
  · rw [stuffMany_eq_rawOutMany, rawOutMany_of_accepts h]
  · have hall := unstuffMany_of_offers 0 h
    rw [unstuffMany, Cmd.bind_apply, Cmd.pure_apply] at hall
    simpa using hall
  · obtain ⟨hds, hmark⟩ := (s.bin.offers_append _ _).1 h
    have hone := unstuffMany_error 0 (unstuffIn_of_marker (s := s.took (stuffed ds).length) hx hmark)
    rw [unstuffMany_of_offers 1 hds, Cmd.bind_error hone, State.took_took]

/-! ## A command with one requirement (R15, R300) -/

section
variable {o : Opcode} {c : State → Bool} {e : Err} {g : State → Cmd Unit} {s : State}

theorem runGated_require_pass (h0 : s.status.err = 0) (hc : c s = true) :
    runGated o (do let s ← get; require (c s) e; g s) s = finish o.byte (g s s) := by
  rw [runGated, if_pos h0, Cmd.bind_ok (Cmd.get_apply s), Cmd.bind_ok (require_true s e hc)]

theorem runGated_require_fail (h0 : s.status.err = 0) (hc : c s = false) :
    runGated o (do let s ← get; require (c s) e; g s) s = .next (s.failed e.code o.byte) :=
  runGated_raised h0 ((Cmd.bind_ok (Cmd.get_apply s)).trans (Cmd.bind_error (require_false s e hc)))

end

/-! ## The commands (R123 to R126) -/

section
variable {s t : State} {b : Byte} {r : Err} (h0 : s.status.err = 0)
include h0

theorem exec_frPut (hw : s.wcnt = 0) : exec (.frPut b) s = finish 0x10 (rawOutMany (stuffed [b]) s) := by
  rw [← stuffOut_eq_rawOutMany]
  exact runGated_require_pass h0 (decide_eq_true hw)

theorem exec_frRaw (hw : s.wcnt = 0) : exec (.frRaw b) s = finish 0x11 (rawOutMany [b] s) := by
  rw [rawOutMany, rawOutMany, Cmd.bind_pure]
  exact runGated_require_pass h0 (decide_eq_true hw)

/-- `RESP` gets the byte that the unstuffer returns. -/
theorem exec_frGet_ok (hr : s.rcnt = 0) (h : unstuffIn s = .ok b t) :
    exec .frGet s = .next { t with resp := b.setWidth 32 } :=
  (runGated_require_pass h0 (decide_eq_true hr)).trans (congrArg (finish 0x12) (Cmd.bind_ok h))

theorem exec_frGet_raised (hr : s.rcnt = 0) (h : unstuffIn s = .error (.raised r) t) :
    exec .frGet s = .next (t.failed r.code 0x12) :=
  (runGated_require_pass h0 (decide_eq_true hr)).trans (congrArg (finish 0x12) (Cmd.bind_error h))

theorem exec_frRawget_ok (hr : s.rcnt = 0) (h : rawIn s = .ok b t) :
    exec .frRawget s = .next { t with resp := b.setWidth 32 } :=
  (runGated_require_pass h0 (decide_eq_true hr)).trans (congrArg (finish 0x13) (Cmd.bind_ok h))

theorem exec_frRawget_raised (hr : s.rcnt = 0) (h : rawIn s = .error (.raised r) t) :
    exec .frRawget s = .next (t.failed r.code 0x13) :=
  (runGated_require_pass h0 (decide_eq_true hr)).trans (congrArg (finish 0x13) (Cmd.bind_error h))

end

/-- Settles O29: the byte goes out as its stuffed form, of which the host accepts all, none, or the 0xFF alone. -/
theorem frPutRule : Obligations.FrPutRule := by
  intro b s h0
  refine ⟨fun hw h => ?_, fun hw h => ?_, fun hw hb h => ?_, fun hw => runGated_require_fail h0 (decide_eq_false hw)⟩
  · rw [exec_frPut h0 hw, rawOutMany_of_accepts h, finish_ok]
  · rw [exec_frPut h0 hw, rawOutMany_of_fails (stuffed_singleton_pos b) h]
    rfl
  · subst hb
    rw [exec_frPut h0 hw, rawOutMany_of_fails (k := 1) (by decide) h]
    rfl

/-- Settles O30: one raw byte, which the host accepts or fails. -/
theorem frRawRule : Obligations.FrRawRule := by
  intro b s h0
  refine ⟨fun hw h => ?_, fun hw h => ?_, fun hw => runGated_require_fail h0 (decide_eq_false hw)⟩
  · rw [exec_frRaw h0 hw, rawOutMany_of_accepts h, finish_ok]
  · rw [exec_frRaw h0 hw, rawOutMany_of_fails Nat.one_pos h]
    rfl

/-- Settles O31: one clause for each way `UnstuffIn` ends (R121). -/
theorem frGetRule : Obligations.FrGetRule := by
  intro s h0
  refine ⟨fun hr b hb h => ?_, fun hr h => ?_, fun hr x hx h => exec_frGet_raised h0 hr (unstuffIn_of_marker hx h),
    fun hr h => exec_frGet_raised h0 hr (unstuffIn_of_ends h), fun hr h => exec_frGet_raised h0 hr (unstuffIn_of_ff_ends h),
    fun hr => runGated_require_fail h0 (decide_eq_false hr)⟩
  · have hone : stuffed [b] = [b] := stuffed_cons_of_ne hb []
    rw [← hone] at h
    rw [exec_frGet_ok h0 hr (unstuffIn_of_offers h), hone, List.length_singleton]
  · exact exec_frGet_ok h0 hr (unstuffIn_of_offers (d := 0xFF) h)

/-- Settles O32: one clause for each way `RawIn` ends (R64). -/
theorem frRawgetRule : Obligations.FrRawgetRule := fun _ h0 =>
  ⟨fun hr _ h => exec_frRawget_ok h0 hr (rawIn_of_offers h), fun hr h => exec_frRawget_raised h0 hr (rawIn_of_ends h),
    fun hr => runGated_require_fail h0 (decide_eq_false hr)⟩

end Sys2Proof.Machine

/-! SUPPORT. The encoder's writer commands and its header (41_encoder.md R150 to R155, R164 to R166): what `BW_BITS`,
`BW_FLUSH`, `ENC_SYM` and `ENC_HDR` put on BOUT, and the file that a whole encode sequence writes (48_host_reference.md
R279). -/

namespace Sys2Proof.Machine

/-! ## The writer as a list of bits (R35, R54) -/

/-- A clear writer holds its pending bits at the top of `WBUF`, above zeros. -/
theorem bitsOf_wbuf {s : State} (hs : s.WriterClear) :
    bitsOf s.wbuf 8 = s.pendingBits ++ List.replicate (8 - s.wcnt.toNat) false := by
  have hlen := length_pendingBits s
  have h8 := s.wcnt.isLt
  refine List.ext_getElem (by simp [hlen]; omega) fun i h1 h2 => ?_
  rw [length_bitsOf] at h1
  rw [getElem_bitsOf]
  by_cases hi : i < s.wcnt.toNat
  · rw [List.getElem_append_left (by omega)]
    simp [State.pendingBits]
  · rw [List.getElem_append_right (by omega), List.getElem_replicate]
    exact hs _ (by omega)

theorem bitsVal_replicate_false (n : Nat) : bitsVal (List.replicate n false) = 0 := by
  induction n with
  | zero => rfl
  | succ n ih => rw [List.replicate_succ', bitsVal_append, ih]; rfl

/-- A clear writer is determined by its pending bits. -/
theorem holdingBits_pendingBits {s : State} (hs : s.WriterClear) : s.holdingBits s.pendingBits = s := by
  have hval : s.wbuf.toNat = bitsVal s.pendingBits * 2 ^ (8 - s.wcnt.toNat) := by
    have h := bitsVal_bitsOf s.wbuf 8
    rw [bitsOf_wbuf hs, bitsVal_append, bitsVal_replicate_false, Nat.mod_eq_of_lt s.wbuf.isLt] at h
    simpa using h.symm
  rw [State.holdingBits, length_pendingBits, ← hval, BitVec.ofNat_toNat, BitVec.ofNat_toNat]
  simp

/-- Everything a clear writer does with the bits `bs`: it is emptied, the completed bytes go out stuffed, and it holds the bits
left over (R150, R153). -/
theorem writeAll_eq {s : State} (hs : s.WriterClear) (bs : List Bool) :
    writeAll bs s = (do
      rawOutMany (stuffed (dataBytes (s.pendingBits ++ bs)))
      modify (State.holdingBits · (leftover (s.pendingBits ++ bs)))) (s.withWriter 0 0) := by
  obtain ⟨b, c, hw, hp, hc⟩ := writeAll_apply bs s
  have hold : (s.withWriter b c).holdingBits (leftover (s.pendingBits ++ bs)) = s.withWriter b c :=
    hp ▸ holdingBits_pendingBits (hc hs)
  have hb := congrArg State.wbuf hold
  have hn := congrArg State.wcnt hold
  have hfun : (State.withWriter · b c) = (State.holdingBits · (leftover (s.pendingBits ++ bs))) := by
    funext u
    rw [State.withWriter, State.holdingBits]
    congr
    · exact hb.symm
    · exact hn.symm
  rw [hw, hfun]

theorem writeAll_of_accepts {bs : List Bool} {s : State} (hs : s.WriterClear)
    (h : s.boutHost.AcceptsBytes (s.bytesFor bs)) : writeAll bs s = .ok () (s.wroteBits bs) := by
  rw [writeAll_eq hs, Cmd.bind_ok (rawOutMany_of_accepts (s := s.withWriter 0 0) h)]
  rfl

theorem writeAll_of_fails {bs : List Bool} {k : Nat} {s : State} (hs : s.WriterClear) (hk : k < s.bytesFor bs)
    (h : s.boutHost.FailsAfter k) : writeAll bs s = .error (.raised .ioWrite) (s.lostByte bs k) := by
  rw [writeAll_eq hs, Cmd.bind_error (rawOutMany_of_fails (s := s.withWriter 0 0) hk h)]
  rfl

/-- Bits that were all written were all accepted. -/
theorem writeAll_ok {bs : List Bool} {s t : State} (hs : s.WriterClear) (h : writeAll bs s = .ok () t) :
    t = s.wroteBits bs := by
  rw [writeAll_eq hs] at h
  obtain ⟨⟨⟩, u, hout, h⟩ := Cmd.of_bind_ok h
  cases h
  rw [rawOutMany_ok hout]
  rfl

theorem writeAll_append (bs cs : List Bool) (s : State) : writeAll (bs ++ cs) s = (do writeAll bs; writeAll cs) s := by
  induction bs generalizing s with
  | nil => rfl
  | cons b bs ih =>
    rw [List.cons_append, writeAll, writeAll]
    cases hb : writeBit b s with
    | ok _ t => rw [Cmd.bind_ok hb, ih, Cmd.bind_apply, Cmd.bind_apply, Cmd.bind_ok hb]
    | error r t => rw [Cmd.bind_error hb, Cmd.bind_error (Cmd.bind_error hb)]

theorem writeAll_frame (bs : List Bool) : Cmd.Keeps WriterFrame (writeAll bs) := by
  induction bs with
  | nil => exact .pure WriterFrame.refl ()
  | cons b bs ih => exact .bind WriterFrame.trans (writeBit_frame b) fun _ => ih

/-! ## Whole bytes -/

theorem length_leftover (bs : List Bool) : (leftover bs).length = bs.length % 8 := by
  rw [leftover, List.length_drop]
  omega

theorem wroteBits_wcnt_toNat (s : State) (bs : List Bool) :
    (s.wroteBits bs).wcnt.toNat = (s.wcnt.toNat + bs.length) % 8 := by
  rw [State.wroteBits, State.holdingBits_wcnt, BitVec.toNat_ofNat, length_leftover, List.length_append, length_pendingBits]
  omega

theorem leftover_eq_nil {bs : List Bool} (h : bs.length % 8 = 0) : leftover bs = [] :=
  List.eq_nil_of_length_eq_zero ((length_leftover bs).trans h)

theorem dataBytes_bitsOf (b : Byte) : dataBytes (bitsOf b 8) = [b] := by
  rw [← List.append_nil (bitsOf b 8), dataBytes_bitsOf_append, dataBytes_of_short (by decide)]

theorem pendingBits_of_empty {s : State} (h : s.wcnt = 0) : s.pendingBits = [] := by
  rw [State.pendingBits, h]
  rfl

/-- Whole bytes go through an empty writer and leave it empty. -/
theorem wroteBits_of_whole {s : State} {bs : List Bool} (hs : s.WriterClear) (hw : s.wcnt = 0) (h : bs.length % 8 = 0) :
    s.wroteBits bs = s.gave (stuffed (dataBytes bs)) := by
  have hp := pendingBits_of_empty hw
  rw [State.wroteBits, hp, List.nil_append, leftover_eq_nil h]
  exact hp ▸ holdingBits_pendingBits (s := s.gave (stuffed (dataBytes bs))) hs

/-! ## `BW_BITS` (R154) -/

theorem exec_bwBits {n : BitVec 5} {s : State} (v : BitVec 16) (h0 : s.status.err = 0) (hn : n.toNat ≤ 16) :
    exec (.bwBits n v) s = finish 0x20 (writeAll (bitsOf v n.toNat) s) := by
  have hlegal : countLegal n = true := decide_eq_true hn
  rw [exec, execBwBits, if_pos hlegal, runGated, if_pos h0, writeBits_eq_writeAll]
  rfl

/-- A word that is no legal command raises `E_ILLEGAL` (R301). -/
theorem step_of_not_legalWord {s : State} {w : Word} (h0 : s.status.err = 0) (hm : s.nextMove = some (.command w))
    (hw : ¬LegalWord w) : step s = .next (State.failed { s with pos := s.pos + 1 } 1 (opByte w)) := by
  cases hd : decode w with
  | ok i => exact absurd ((decodesExactlyTheLegalWords w).1 ⟨i, hd⟩) hw
  | error r =>
    simp only [step, hm, hd]
    exact if_pos h0

/-- Settles O35: the command writes the bits one by one, which is one pass of `writeAll`; a count above 16 is not legal. -/
theorem bwBitsRule : Obligations.BwBitsRule := by
  intro n v s h0 hs
  refine ⟨fun hn h => ?_, fun hn k hk h => ?_, fun hn w hop hfield hm => ?_⟩
  · rw [exec_bwBits v h0 hn, writeAll_of_accepts hs.writer h, finish_ok]
  · rw [exec_bwBits v h0 hn, writeAll_of_fails hs.writer hk h]
    rfl
  · have hw : ¬LegalWord w := fun ⟨_, hcount, _⟩ => by
      have := hcount (.inl hop)
      rw [hfield] at this
      omega
    rw [step_of_not_legalWord h0 hm hw, opByte, hop]

/-! ## `BW_FLUSH` (R152, R155) -/

theorem exec_bwFlush {s : State} (h0 : s.status.err = 0) : exec .bwFlush s = finish 0x21 (flush s) := by
  rw [exec, execBwFlush, runGated, if_pos h0]
  rfl

theorem exec_bwFlush_of_partial {s : State} (h0 : s.status.err = 0) (hw : s.wcnt ≠ 0) :
    exec .bwFlush s = finish 0x21 (writeAll (List.replicate (8 - s.wcnt.toNat) true) s) := by
  rw [exec_bwFlush h0, flush, flushLoop_eq_writeAll hw (by omega)]

/-- `Flush` writes the 1 bits that the partial byte lacks, and none when there is no partial byte. -/
theorem flush_eq_writeAll (s : State) : flush s = writeAll (List.replicate ((8 - s.wcnt.toNat) % 8) true) s := by
  by_cases hw : s.wcnt = 0
  · rw [flush, flushLoop_empty 8 hw, hw]
    rfl
  · have hlt : 8 - s.wcnt.toNat < 8 := by bv_omega
    rw [flush, flushLoop_eq_writeAll hw (by omega), Nat.mod_eq_of_lt hlt]

/-- Settles O36: the 1 bits complete exactly the partial byte. -/
theorem bwFlushRule : Obligations.BwFlushRule := by
  intro s h0 hs
  have hpad : dataBytes (s.pendingBits ++ List.replicate (8 - s.wcnt.toNat) true) =
      [s.wbuf ||| BitVec.ofNat 8 (2 ^ (8 - s.wcnt.toNat) - 1)] := by rw [pendingBits_flush, dataBytes_bitsOf]
  have hleft : leftover (s.pendingBits ++ List.replicate (8 - s.wcnt.toNat) true) = [] := by
    rw [pendingBits_flush]
    exact leftover_eq_nil (by rw [length_bitsOf])
  refine ⟨fun hw => ?_, fun hw h => ?_, fun hw k hk h => ?_⟩
  · rw [exec_bwFlush h0, flush, flushLoop_empty 8 hw, finish_ok]
  · rw [← hpad] at h ⊢
    rw [exec_bwFlush_of_partial h0 hw, writeAll_of_accepts hs.writer h, State.wroteBits, hleft]
    rfl
  · rw [← hpad] at hk ⊢
    rw [exec_bwFlush_of_partial h0 hw, writeAll_of_fails hs.writer hk h]
    rfl

/-! ## `ENC_SYM` (R166) -/

theorem exec_encSym {sym : Byte} {s : State} (h0 : s.status.err = 0) (hr : s.status.encReady = true)
    (hc : s.clen.get 0 sym.toNat ≠ 0) : exec (.encSym sym) s = finish 0x28 (writeAll (codeBits s.code s.clen sym) s) := by
  rw [codeBits, ← writeBits_eq_writeAll]
  exact (runGated_require_pass (c := fun s => s.status.encReady) h0 hr).trans
    (congrArg (finish 0x28) (Cmd.bind_ok (require_true s _ (decide_eq_true hc))))

/-- Settles O44: past its two checks the command writes the bits of the code. -/
theorem encSymRule : Obligations.EncSymRule := by
  intro sym s h0 hs
  refine ⟨fun hr => runGated_require_fail (c := fun s => s.status.encReady) h0 hr, fun hr hc => ?_, fun hr hc h => ?_,
    fun hr hc k hk h => ?_⟩
  · exact (runGated_require_pass (c := fun s => s.status.encReady) h0 hr).trans
      (congrArg (finish 0x28) (Cmd.bind_error (require_false s _ (decide_eq_false (not_not.2 hc)))))
  · rw [exec_encSym h0 hr hc, writeAll_of_accepts hs.writer h, finish_ok]
  · rw [exec_encSym h0 hr hc, writeAll_of_fails hs.writer hk h]
    rfl

/-! ## `ENC_HDR` (R164, R165) -/

section
variable {s : State} (h0 : s.status.err = 0) (hr : s.status.encReady = true)
include h0 hr

theorem exec_encHdr_of_partial (hw : s.wcnt ≠ 0) : exec .encHdr s = .next (s.failed 3 0x27) :=
  (runGated_require_pass (c := fun s => s.status.encReady) h0 hr).trans
    (congrArg (finish 0x27) (Cmd.bind_error (require_false s _ (decide_eq_false hw))))

/-- With a code table and no partial byte the last check is that of the counts. -/
theorem exec_encHdr_of_aligned (hw : s.wcnt = 0) : exec .encHdr s =
    finish 0x27 ((do require (!someCountOver s.cpl) .cplOverflow; rawOutMany (headerBytes s)) s) := by
  rw [← hdrBytes_eq_headerBytes]
  exact (runGated_require_pass (c := fun s => s.status.encReady) h0 hr).trans
    (congrArg (finish 0x27) (Cmd.bind_ok (require_true s _ (decide_eq_true hw))))

theorem exec_encHdr (hw : s.wcnt = 0) (hc : ∀ L, 1 ≤ L → L ≤ 16 → (s.cpl.get 0 L).toNat ≤ 255) :
    exec .encHdr s = finish 0x27 (rawOutMany (headerBytes s) s) := by
  rw [exec_encHdr_of_aligned h0 hr hw, someCountOver_eq_false hc]
  exact congrArg (finish 0x27) (Cmd.bind_ok (require_true s _ rfl))

end

theorem someCountOver_eq_true {cpl : Table (BitVec 9)} (h : ∃ L, 1 ≤ L ∧ L ≤ 16 ∧ 255 < (cpl.get 0 L).toNat) :
    someCountOver cpl = true := by
  obtain ⟨L, h1, h16, hover⟩ := h
  exact List.any_eq_true.2 ⟨L, (mem_lenClasses L).2 ⟨h1, h16⟩, decide_eq_true hover⟩

/-- Settles O43: three checks in order, then the bytes of R164 as one raw sequence. -/
theorem encHdrRule : Obligations.EncHdrRule := by
  intro s h0
  refine ⟨fun hr => runGated_require_fail (c := fun s => s.status.encReady) h0 hr,
    fun hr hw => exec_encHdr_of_partial h0 hr hw, fun hr hw hover => ?_, fun hr hw hc => ⟨fun h => ?_, fun k hk h => ?_⟩⟩
  · rw [exec_encHdr_of_aligned h0 hr hw, someCountOver_eq_true hover]
    exact congrArg (finish 0x27) (Cmd.bind_error (require_false s _ rfl))
  · rw [exec_encHdr h0 hr hw hc, rawOutMany_of_accepts h, finish_ok]
  · rw [exec_encHdr h0 hr hw hc, rawOutMany_of_fails hk h]
    rfl

/-! ## The whole sequence (R279, R343) -/

theorem execAll_cons {i : Instr} {is : List Instr} {s t : State} (h : exec i s = .next t) :
    execAll (i :: is) s = execAll is t := by rw [execAll, h]

/-- One `ENC_SYM` for each symbol writes all their code bits as one pass of the writer (R343). -/
theorem execAll_encSyms {xs : List Byte} {is : List Instr} {s t : State} (h0 : s.status.err = 0)
    (hr : s.status.encReady = true) (hc : ∀ x ∈ xs, s.clen.get 0 x.toNat ≠ 0)
    (h : writeAll (xs.flatMap (codeBits s.code s.clen)) s = .ok () t) : execAll (xs.map .encSym ++ is) s = execAll is t := by
  induction xs generalizing s with
  | nil => cases h; rfl
  | cons x xs ih =>
    rw [List.flatMap_cons, writeAll_append] at h
    obtain ⟨⟨⟩, u, hx, hxs⟩ := Cmd.of_bind_ok h
    have hexec : exec (.encSym x) s = .next u := by rw [exec_encSym h0 hr (hc x List.mem_cons_self), hx, finish_ok]
    have hframe := (writeAll_frame _).of_ok hx
    have hstatus : u.status = s.status := by rw [hframe]
    have hcode : u.code = s.code := by rw [hframe]
    have hclen : u.clen = s.clen := by rw [hframe]
    rw [List.map_cons, List.cons_append, execAll_cons hexec]
    refine ih (hstatus ▸ h0) (hstatus ▸ hr) ?_ (hcode ▸ hclen ▸ hxs)
    exact fun y hy => hclen ▸ hc y (List.mem_cons_of_mem x hy)

/-- The host accepts a first part, and then the rest. -/
theorem Answers.acceptsBytes_append {a : Answers OutAnswer} {j k : Nat} (h : a.AcceptsBytes (j + k)) :
    a.AcceptsBytes j ∧ (a.skip j).AcceptsBytes k :=
  ⟨fun i hi => h i (by omega), fun i hi => by rw [nth_skip]; exact h (j + i) (by omega)⟩

/-- From an empty writer the symbols' bits and the padding of `BW_FLUSH` are one pass of the writer, and make whole bytes
(R153). -/
theorem execAll_payload {xs : List Byte} {s : State} (h0 : s.status.err = 0) (hr : s.status.encReady = true)
    (hs : s.WriterClear) (hw : s.wcnt = 0) (hc : ∀ x ∈ xs, s.clen.get 0 x.toNat ≠ 0)
    (h : s.boutHost.AcceptsBytes (stuffed (paddedBytes (xs.flatMap (codeBits s.code s.clen)))).length) :
    execAll (xs.map .encSym ++ [.bwFlush]) s =
      .next (s.gave (stuffed (paddedBytes (xs.flatMap (codeBits s.code s.clen))))) := by
  generalize hbits : xs.flatMap (codeBits s.code s.clen) = bits at h ⊢
  rw [paddedBytes] at h ⊢
  have hwhole : (bits ++ List.replicate ((8 - bits.length % 8) % 8) true).length % 8 = 0 := by
    rw [List.length_append, List.length_replicate]
    omega
  have hall := writeAll_of_accepts hs
    (bs := bits ++ List.replicate ((8 - bits.length % 8) % 8) true) (by rwa [State.bytesFor, pendingBits_of_empty hw])
  rw [wroteBits_of_whole hs hw hwhole, writeAll_append] at hall
  obtain ⟨⟨⟩, t, hsyms, hpad⟩ := Cmd.of_bind_ok hall
  have hwcnt : t.wcnt.toNat = bits.length % 8 := by
    rw [writeAll_ok hs hsyms, wroteBits_wcnt_toNat, hw]
    simp
  have hstatus : t.status = s.status := by rw [(writeAll_frame _).of_ok hsyms]
  have hflush : exec .bwFlush t = finish 0x21 (flush t) := exec_bwFlush (hstatus ▸ h0)
  rw [flush_eq_writeAll, hwcnt, hpad, finish_ok] at hflush
  rw [execAll_encSyms h0 hr hc (hbits ▸ hsyms), execAll_cons hflush, execAll]

/-- Settles O58: the header goes out raw and leaves the writer empty, and the payload follows it. -/
theorem encodeSequenceWritesFile : Obligations.EncodeSequenceWritesFile := by
  intro s xs h0 hs hr hw hcounts hcodes hacc
  rw [fileBytes, List.length_append] at hacc
  obtain ⟨hhdr, hpay⟩ := Answers.acceptsBytes_append hacc
  have hexec : exec .encHdr s = .next (s.gave (headerBytes s)) := by
    rw [exec_encHdr h0 hr hw hcounts, rawOutMany_of_accepts hhdr, finish_ok]
  have hrest := execAll_payload (s := s.gave (headerBytes s)) h0 hr hs.writer hw hcodes hpay
  rw [List.cons_append, execAll_cons hexec, hrest, State.gave_gave]
  rfl

end Sys2Proof.Machine

/-! SUPPORT. The loading of lengths and of the symbol count (41_encoder.md R159, R160, R162, R163). -/

namespace Sys2Proof.Machine

/-- Settles O37: the table with no run has every entry 0. -/
theorem encClrlenClearsLengths : Obligations.EncClrlenClearsLengths := fun _ h0 =>
  ⟨_, runGated_ok h0 (Cmd.modify_apply _ _), fun x => Table.get_nil 0 x.toNat, rfl⟩

/-- Settles O38: one entry of the table is set, and symbols have different entries. -/
theorem encSetlenLoadsOneLength : Obligations.EncSetlenLoadsOneLength := by
  intro sym len s h0
  refine ⟨_, runGated_ok h0 (Cmd.modify_apply _ _), fun x => ?_, rfl⟩
  simp only [Table.get_set, BitVec.toNat_inj]

/-- Settles O39: the loaded half is written beside the half that is kept. -/
theorem encSetcntLoadsHalves : Obligations.EncSetcntLoadsHalves := fun _ _ h0 =>
  ⟨⟨_, runGated_ok h0 (Cmd.modify_apply _ _), BitVec.extractLsb'_append_eq_right, BitVec.extractLsb'_append_eq_left⟩,
    ⟨_, runGated_ok h0 (Cmd.modify_apply _ _), BitVec.extractLsb'_append_eq_left, BitVec.extractLsb'_append_eq_right⟩⟩

end Sys2Proof.Machine

/-! SUPPORT. The code that `Canon` assigns (41_encoder.md R156, R157): the place of a coded symbol in canonical order, the
interval of slots that its code names, and the statements about `ENC_BUILD` that rest on them. -/

namespace Sys2Proof.Machine

/-! ## The slots of the symbols of a list of lengths (R157 (c), R207) -/

theorem slotStart_succ {M k : Nat} {Ls : List Nat} (hk : k < Ls.length) :
    slotStart M Ls (k + 1) = slotStart M Ls k + 2 ^ (M - Ls[k]) := by
  rw [slotStart, slotStart, ← List.take_concat_get' _ _ hk, kraft_append]
  simp [kraft]

theorem slotStart_mono {M j k : Nat} (Ls : List Nat) (h : j ≤ k) : slotStart M Ls j ≤ slotStart M Ls k := by
  obtain ⟨i, rfl⟩ := Nat.exists_eq_add_of_le h
  rw [slotStart, slotStart, List.take_add, kraft_append]
  exact Nat.le_add_right _ _

theorem slotStart_of_length_le {M k : Nat} {Ls : List Nat} (h : Ls.length ≤ k) : slotStart M Ls k = kraft M Ls := by
  rw [slotStart, List.take_of_length_le h]

theorem slotStart_append {M k : Nat} {Ls : List Nat} (Rs : List Nat) (hk : k ≤ Ls.length) :
    slotStart M (Ls ++ Rs) k = slotStart M Ls k := by rw [slotStart, slotStart, List.take_append_of_le_length hk]

/-- A slot belongs to one symbol at most. -/
theorem slot_unique {M x j k : Nat} {Ls : List Nat} (hj : slotStart M Ls j ≤ x ∧ x < slotStart M Ls (j + 1))
    (hk : slotStart M Ls k ≤ x ∧ x < slotStart M Ls (k + 1)) : j = k := by
  by_contra hne
  rcases Nat.lt_or_gt_of_ne hne with h | h
  · have := slotStart_mono (M := M) Ls (show j + 1 ≤ k from h)
    omega
  · have := slotStart_mono (M := M) Ls (show k + 1 ≤ j from h)
    omega

/-- Lengths of at most `M` bits give the same Kraft sum at either scale. -/
theorem kraft_scale {M N : Nat} {Ls : List Nat} (hMN : M ≤ N) (h : ∀ L ∈ Ls, L ≤ M) :
    kraft N Ls = kraft M Ls * 2 ^ (N - M) := by
  induction Ls with
  | nil => simp [kraft]
  | cons L Ls ih =>
    have hL := h L List.mem_cons_self
    have hp : 2 ^ (N - L) = 2 ^ (M - L) * 2 ^ (N - M) := by
      rw [← Nat.pow_add]
      congr 1
      omega
    have ih := ih fun K hK => h K (List.mem_cons_of_mem L hK)
    simp only [kraft, List.map_cons, List.sum_cons] at ih ⊢
    rw [ih, hp, Nat.add_mul]

/-! ## The symbols in canonical order (R40) -/

theorem nodup_allSymbols : allSymbols.Nodup := by
  refine List.Nodup.map_on (fun i hi j hj h => ?_) List.nodup_range
  have hi : i < 256 := List.mem_range.1 hi
  have hj : j < 256 := List.mem_range.1 hj
  have h := congrArg BitVec.toNat h
  rwa [BitVec.toNat_ofNat, BitVec.toNat_ofNat, Nat.mod_eq_of_lt hi, Nat.mod_eq_of_lt hj] at h

theorem nodup_canonicalOrder (len : Table (BitVec 5)) : (canonicalOrder len).Nodup := by
  refine List.nodup_flatMap.2 ⟨fun L _ => nodup_allSymbols.filter _, nodup_lenClasses.imp fun hne x h1 h2 => hne ?_⟩
  have h1 := of_decide_eq_true (List.mem_filter.1 h1).2
  have h2 := of_decide_eq_true (List.mem_filter.1 h2).2
  exact h1.symm.trans h2

section
variable (len : Table (BitVec 5))

/-- The lengths of the coded symbols, in canonical order. -/
def codedLengths : List Nat := (canonicalOrder len).map (lenOf len)

/-- The place of a symbol in canonical order. -/
def place (x : Byte) : Nat := (canonicalOrder len).idxOf x

end

section
variable {len : Table (BitVec 5)} {x y : Byte}

theorem place_lt (hx : Coded len x) : place len x < (canonicalOrder len).length :=
  List.idxOf_lt_length_of_mem (mem_canonicalOrder.2 hx)

theorem place_lt_codedLengths (hx : Coded len x) : place len x < (codedLengths len).length := by
  rw [codedLengths, List.length_map]
  exact place_lt hx

theorem getElem_place (hx : Coded len x) : (canonicalOrder len)[place len x]'(place_lt hx) = x := List.getElem_idxOf _

theorem codedLengths_place (hx : Coded len x) :
    (codedLengths len)[place len x]'(place_lt_codedLengths hx) = lenOf len x := by
  simp only [codedLengths, List.getElem_map, getElem_place hx]

theorem place_inj (hx : Coded len x) (h : place len x = place len y) : x = y :=
  (List.idxOf_inj (mem_canonicalOrder.2 hx)).1 h

/-- The Kraft sum of the symbols before `x` is where its slots start. -/
theorem kraft_earlier (M : Nat) (x : Byte) :
    kraft M ((earlier len x).map (lenOf len)) = slotStart M (codedLengths len) (place len x) := by
  have hp : (fun y => !decide (y ≠ x)) = (· == x) := by
    funext y
    by_cases h : y = x <;> simp [h]
  rw [earlier, List.takeWhile_eq_take_findIdx_not, hp, slotStart, codedLengths, List.map_take]
  rfl

end

/-! ## The codes `Canon` assigns (R157 (c)) -/

section
variable {len : Table (BitVec 5)}

/-- What holds of the codes after each assignment to a symbol without one: a listed symbol's code, scaled, is where its slots
start, and the other symbols have no code. -/
def CodesAssigned (len : Table (BitVec 5)) (a : CanonAcc) : Prop :=
  a.syms.Nodup → ∀ x : Byte,
    (x ∈ a.syms → (a.clen.get 0 x.toNat).toNat = lenOf len x ∧
      (a.code.get 0 x.toNat).toNat * 2 ^ (16 - lenOf len x) =
        slotStart 16 (a.syms.map (lenOf len)) (a.syms.idxOf x)) ∧
    (x ∉ a.syms → a.clen.get 0 x.toNat = 0 ∧ a.code.get 0 x.toNat = 0)

theorem CodesAssigned.assignSymbol {L : Nat} {s : Byte} {a : CanonAcc} (hL : L ≤ 16) (hs : lenOf len s = L)
    (hc : a.counter < 2 ^ L) (hk : KraftCounted len L a) (h : CodesAssigned len a) :
    CodesAssigned len (assignSymbol L s a) := by
  intro hnd x
  rw [assignSymbol_syms] at hnd
  have hfresh : s ∉ a.syms := fun hm => (List.nodup_append.1 hnd).2.2 s hm s (List.mem_singleton.2 rfl) rfl
  obtain ⟨hin, hout⟩ := h (List.nodup_append.1 hnd).1 x
  rw [assignSymbol_syms, assignSymbol_clen, assignSymbol_code, List.mem_append, List.mem_singleton, List.map_append]
  by_cases hx : x = s
  · subst hx
    refine ⟨fun _ => ?_, fun hn => absurd (.inr rfl) hn⟩
    have hpow : 2 ^ L ≤ 2 ^ 16 := Nat.pow_le_pow_right (by decide) hL
    have hp : (2 : Nat) ^ (17 - L) = 2 * 2 ^ (16 - L) := by rw [← Nat.pow_succ']; congr 1; omega
    have hcount := hk.1
    have hidx : List.idxOf x (a.syms ++ [x]) = (a.syms.map (lenOf len)).length := by
      rw [List.idxOf_append_of_notMem hfresh, List.idxOf_cons_self, List.length_map, Nat.add_zero]
    rw [hp, Nat.mul_left_comm] at hcount
    rw [if_pos rfl, if_pos rfl, BitVec.toNat_ofNat, BitVec.toNat_ofNat, Nat.mod_eq_of_lt (by omega),
      Nat.mod_eq_of_lt (by omega), hs, hidx, slotStart_append _ le_rfl, slotStart_of_length_le le_rfl]
    exact ⟨rfl, Nat.eq_of_mul_eq_mul_left Nat.two_pos hcount⟩
  · have hne : x.toNat ≠ s.toNat := fun hn => hx (BitVec.eq_of_toNat_eq hn)
    rw [if_neg hne, if_neg hne]
    refine ⟨fun hm => ?_, fun hn => hout fun hm => hn (.inl hm)⟩
    have hm : x ∈ a.syms := hm.resolve_right hx
    have hle : a.syms.idxOf x ≤ (a.syms.map (lenOf len)).length := by
      rw [List.length_map]
      exact List.idxOf_le_length
    rw [List.idxOf_append_of_mem hm, slotStart_append _ hle]
    exact hin hm

/-- The code table of a successful `Canon`. -/
theorem canon_codes {r : CanonAcc} (h : canon len = .ok r) (x : Byte) :
    (Coded len x → (r.clen.get 0 x.toNat).toNat = lenOf len x ∧
      (r.code.get 0 x.toNat).toNat * 2 ^ (16 - lenOf len x) = slotStart 16 (codedLengths len) (place len x)) ∧
    (¬Coded len x → r.clen.get 0 x.toNat = 0 ∧ r.code.get 0 x.toNat = 0) := by
  have hall := canon_keeps (P := fun L a => KraftCounted len L a ∧ CodesAssigned len a)
    (fun L s a _ hL hs hc ha => ⟨ha.1.assignSymbol hL hs hc, ha.2.assignSymbol hL hs hc ha.1⟩)
    (fun L a hL ha => ⟨ha.1.shift hL, ha.2⟩)
    ⟨by simp [KraftCounted, canonStart, kraft], fun _ _ => ⟨(nomatch ·), fun _ => ⟨rfl, rfl⟩⟩⟩ h
  have hcodes := hall.2
  rw [CodesAssigned, canon_syms h] at hcodes
  have hx := hcodes (nodup_canonicalOrder len) x
  rwa [mem_canonicalOrder] at hx

theorem canon_isCanonicalCode {r : CanonAcc} (h : canon len = .ok r) : IsCanonicalCode len r.code r.clen := by
  intro x
  rw [kraft_earlier]
  exact canon_codes h x

/-! ## When `Canon` succeeds (R157 (b)) -/

/-- An error in class `L` means that the symbols up to there break the Kraft inequality. -/
theorem assignClass_error_kraft {L : Nat} {ss : List Byte} {a : CanonAcc} {e : Err} (hL : L ≤ 16)
    (ha : KraftCounted len L a) (h : assignClass len L ss a = .error e) :
    2 ^ 16 < kraft 16 ((a.syms ++ ss.filter fun x => decide (lenOf len x = L)).map (lenOf len)) := by
  induction ss generalizing a with
  | nil => cases h
  | cons s ss ih =>
    rw [assignClass] at h
    split at h
    · rename_i hs
      have hs : lenOf len s = L := hs
      rw [List.filter_cons_of_pos (by rw [decide_eq_true_eq]; exact hs)]
      split at h
      · rename_i hc
        have hp : (2 : Nat) ^ 17 = 2 ^ L * 2 ^ (17 - L) := by rw [← Nat.pow_add]; congr 1; omega
        have hover := Nat.mul_le_mul_right (2 ^ (17 - L)) hc
        rw [← hp, ha.1] at hover
        have hpos : 0 < 2 ^ (16 - lenOf len s) := Nat.two_pow_pos _
        rw [List.map_append, kraft_append, List.map_cons, kraft, kraft, List.map_cons, List.sum_cons]
        rw [kraft] at hover
        omega
      · have := ih (ha.assignSymbol hL hs (by omega)) h
        rwa [assignSymbol_syms, List.append_assoc, List.singleton_append] at this
    · rename_i hs
      rw [List.filter_cons_of_neg (by rw [decide_eq_true_eq]; exact hs)]
      exact ih ha h

theorem assignClasses_error_kraft {n L : Nat} {a : CanonAcc} {e : Err} (hn : L + n ≤ 17) (ha : KraftCounted len L a)
    (h : assignClasses len (List.range' L n) a = .error e) :
    2 ^ 16 < kraft 16 ((a.syms ++ (List.range' L n).flatMap fun K =>
      allSymbols.filter fun x => decide (lenOf len x = K)).map (lenOf len)) := by
  induction n generalizing L a with
  | zero => cases h
  | succ n ih =>
    rw [List.range'_succ, assignClasses] at h
    rw [List.range'_succ, List.flatMap_cons, ← List.append_assoc]
    cases hc : assignClass len L allSymbols a with
    | error e' =>
      have := assignClass_error_kraft (by omega) ha hc
      rw [List.map_append, kraft_append]
      omega
    | ok b =>
      rw [hc] at h
      have hb : KraftCounted len L b :=
        assignClass_keeps (fun s a hs hlt ha => ha.assignSymbol (by omega) hs hlt) ha hc
      have := ih (by omega) (hb.shift (by omega)) h
      rwa [← assignClass_syms hc]

/-- Lengths that keep the Kraft inequality have a code (R157 (b)). -/
theorem canon_of_kraft_le (hx : ∃ x, Coded len x) (h : kraft 16 ((canonicalOrder len).map (lenOf len)) ≤ 2 ^ 16) :
    ∃ r, canon len = .ok r := by
  cases hc : canon len with
  | ok r => exact ⟨r, rfl⟩
  | error e =>
    rw [canon, if_pos ((someCoded_iff len).2 hx)] at hc
    have hover := assignClasses_error_kraft (L := 1) (n := 16) le_rfl (by simp [KraftCounted, canonStart, kraft]) hc
    exact absurd hover (Nat.not_lt.2 h)

/-! ## The least and the greatest length (R156) -/

theorem canon_class_used {r : CanonAcc} (h : canon len = .ok r) (L : Nat) :
    r.cpl.get 0 L ≠ 0 ↔ ∃ x, Coded len x ∧ lenOf len x = L := by
  have hpos : r.cpl.get 0 L ≠ 0 ↔ 0 < (r.cpl.get 0 L).toNat := by bv_omega
  rw [hpos, canon_counts h, List.countP_pos_iff]
  simp only [mem_canonicalOrder, decide_eq_true_eq]

theorem canon_least {r : CanonAcc} (h : canon len = .ok r) :
    (∃ x, Coded len x ∧ lenOf len x = leastClass r.cpl) ∧ (∀ x, Coded len x → leastClass r.cpl ≤ lenOf len x) ∧
      leastClass r.cpl ≤ 16 := by
  have hall := fun x (hx : Coded len x) => leastClass_le r.cpl hx.1 hx.2 ((canon_class_used h _).2 ⟨x, hx, rfl⟩)
  obtain ⟨x, hx⟩ := (canon_ok h).1
  obtain ⟨h1, h16, hused, -⟩ := hall x hx
  exact ⟨(canon_class_used h _).1 hused, fun y hy => (hall y hy).2.2.2, h16⟩

theorem canon_greatest {r : CanonAcc} (h : canon len = .ok r) :
    (∃ x, Coded len x ∧ lenOf len x = greatestClass r.cpl) ∧ (∀ x, Coded len x → lenOf len x ≤ greatestClass r.cpl) ∧
      greatestClass r.cpl ≤ 16 := by
  have hall := fun x (hx : Coded len x) =>
    le_greatestClass r.cpl hx.1 hx.2 ((canon_class_used h _).2 ⟨x, hx, rfl⟩)
  obtain ⟨x, hx⟩ := (canon_ok h).1
  obtain ⟨h1, h16, hused, -⟩ := hall x hx
  exact ⟨(canon_class_used h _).1 hused, fun y hy => (hall y hy).2.2.2, h16⟩

end

/-! ## `ENC_BUILD` that succeeds (R161) -/

theorem exec_encBuild_ok {s : State} {r : CanonAcc} (h0 : s.status.err = 0) (h : canon s.len = .ok r) :
    exec .encBuild s = .next (installCode r (beginBuild s)) := by
  refine runGated_ok h0 ?_
  have hc : canon (beginBuild s).len = .ok r := h
  simp only [Cmd.bind_apply, Cmd.modify_apply, Cmd.get_apply, hc]

/-- An `ENC_BUILD` that leaves no error installed the code of `Canon`. -/
theorem exec_encBuild_next {s t : State} (h0 : s.status.err = 0) (h : exec .encBuild s = .next t) (ht : t.status.err = 0) :
    ∃ r, canon s.len = .ok r ∧ t = installCode r (beginBuild s) := by
  cases hc : canon s.len with
  | ok r =>
    rw [exec_encBuild_ok h0 hc] at h
    cases h
    exact ⟨r, rfl, rfl⟩
  | error e =>
    rw [exec_encBuild_error h0 hc] at h
    cases h
    exact absurd ht (State.raise_err_ne_zero _ e _)

section
variable {len : Table (BitVec 5)} {r : CanonAcc} (h : canon len = .ok r) (s : State)
include h

theorem installCode_nsym_toNat : (installCode r s).nsym.toNat = (canonicalOrder len).length := by
  have h256 := (canon_syms_length h).2
  rw [installCode_nsym, BitVec.toNat_ofNat, Nat.mod_eq_of_lt (by omega), canon_syms h]

theorem installCode_symlist_get (k : Nat) : (installCode r s).symlist.get 0 k =
    if k < (canonicalOrder len).length then (canonicalOrder len).getD k 0 else s.symlist.get 0 k := by
  rw [installCode_symlist, Table.get_setMany, canon_syms h]
  simp

theorem installCode_minBits_toNat : (installCode r s).minBits.toNat = leastClass r.cpl := by
  have h16 := (canon_least h).2.2
  rw [installCode_minBits, BitVec.toNat_ofNat, Nat.mod_eq_of_lt (by omega)]

theorem installCode_maxBits_toNat : (installCode r s).maxBits.toNat = greatestClass r.cpl := by
  have h16 := (canon_greatest h).2.2
  rw [installCode_maxBits, BitVec.toNat_ofNat, Nat.mod_eq_of_lt (by omega)]

end

/-- Settles O40: the Kraft inequality makes `Canon` succeed, and each field installed is read off its result. -/
theorem encBuildInstallsCanonicalCode : Obligations.EncBuildInstallsCanonicalCode := by
  intro s h0 hx hkraft
  obtain ⟨r, hr⟩ := canon_of_kraft_le hx hkraft
  obtain ⟨hleast, hleast_le, -⟩ := canon_least hr
  obtain ⟨hgreatest, hle_greatest, -⟩ := canon_greatest hr
  refine ⟨_, exec_encBuild_ok h0 hr, canon_isCanonicalCode hr, fun L _ _ => canon_counts hr L,
    installCode_nsym_toNat hr _, fun k hk => ?_, fun k hk => ?_, ?_, ?_, fun x hx => ?_, (someLong_iff s.len).symm, rfl⟩
  · rw [installCode_symlist_get hr, if_pos hk]
  · rw [installCode_symlist_get hr, if_neg (Nat.not_lt.2 hk)]
    rfl
  · rwa [installCode_minBits_toNat hr]
  · rwa [installCode_maxBits_toNat hr]
  · rw [installCode_minBits_toNat hr, installCode_maxBits_toNat hr]
    exact ⟨hleast_le x hx, hle_greatest x hx⟩

/-! ## The slots of a code (R157 (b), (c)) -/

section
variable {len : Table (BitVec 5)} {r : CanonAcc} (h : canon len = .ok r) {x y : Byte}
include h

theorem coded_of_clen (hx : r.clen.get 0 x.toNat ≠ 0) : Coded len x := by
  by_contra hn
  exact hx ((canon_codes h x).2 hn).1

theorem codedLengths_le {L : Nat} (hL : L ∈ codedLengths len) : L ≤ greatestClass r.cpl := by
  obtain ⟨x, hx, rfl⟩ := List.mem_map.1 hL
  exact (canon_greatest h).2.1 x (mem_canonicalOrder.1 hx)

/-- At any scale that holds every length, a code is where its symbol's slots start. -/
theorem code_mul_eq_slotStart {M : Nat} (hM : greatestClass r.cpl ≤ M) (h16 : M ≤ 16) (hx : Coded len x) :
    (r.code.get 0 x.toNat).toNat * 2 ^ (M - lenOf len x) = slotStart M (codedLengths len) (place len x) := by
  have hle : lenOf len x ≤ M := ((canon_greatest h).2.1 x hx).trans hM
  have hp : 2 ^ (16 - lenOf len x) = 2 ^ (M - lenOf len x) * 2 ^ (16 - M) := by rw [← Nat.pow_add]; congr 1; omega
  have hscale : slotStart 16 (codedLengths len) (place len x) =
      slotStart M (codedLengths len) (place len x) * 2 ^ (16 - M) :=
    kraft_scale h16 fun L hL => (codedLengths_le h (List.mem_of_mem_take hL)).trans hM
  have hcode := ((canon_codes h x).1 hx).2
  rw [hp, hscale, ← Nat.mul_assoc] at hcode
  exact Nat.eq_of_mul_eq_mul_right (Nat.two_pow_pos _) hcode

/-- The slots whose top bits are a symbol's code are those between its start and the next symbol's. -/
theorem code_eq_iff_slot {M : Nat} (hM : greatestClass r.cpl ≤ M) (h16 : M ≤ 16) (hx : Coded len x) (slot : Nat) :
    slot / 2 ^ (M - lenOf len x) = (r.code.get 0 x.toNat).toNat ↔
      slotStart M (codedLengths len) (place len x) ≤ slot ∧ slot < slotStart M (codedLengths len) (place len x + 1) := by
  have hpos : 0 < 2 ^ (M - lenOf len x) := Nat.two_pow_pos _
  rw [slotStart_succ (place_lt_codedLengths hx), codedLengths_place hx, ← code_mul_eq_slotStart h hM h16 hx,
    Nat.div_eq_iff hpos]
  omega

end

/-! ## Prefixes (R157 (b)) -/

theorem bitsVal_lt (bs : List Bool) : bitsVal bs < 2 ^ bs.length := by
  induction bs using List.reverseRecOn with
  | nil => decide
  | append_singleton bs b ih =>
    have hb : bitsVal [b] < 2 := by cases b <;> decide
    rw [bitsVal_append, List.length_append, List.length_singleton, Nat.pow_one, Nat.pow_succ]
    omega

/-- The first bits of a value are its high part. -/
theorem bitsOf_prefix {v w : BitVec 16} {n m : Nat} (hv : v.toNat < 2 ^ n) (hw : w.toNat < 2 ^ m)
    (h : bitsOf v n <+: bitsOf w m) : n ≤ m ∧ w.toNat / 2 ^ (m - n) = v.toNat := by
  obtain ⟨rest, hrest⟩ := h
  have hlen := congrArg List.length hrest
  have hval := congrArg bitsVal hrest
  rw [List.length_append, length_bitsOf, length_bitsOf] at hlen
  rw [bitsVal_append, bitsVal_bitsOf, bitsVal_bitsOf, Nat.mod_eq_of_lt hv, Nat.mod_eq_of_lt hw] at hval
  have hm : m - n = rest.length := by omega
  have hlt := bitsVal_lt rest
  rw [hm, ← hval, Nat.mul_comm, Nat.mul_add_div (Nat.two_pow_pos _), Nat.div_eq_of_lt hlt]
  exact ⟨by omega, rfl⟩

/-- Settles O42: if a code were a prefix of another, the first slot of the longer one would be a slot of both symbols. -/
theorem builtCodeIsPrefixFree : Obligations.BuiltCodeIsPrefixFree := by
  intro s t h0 ht herr x y hne hcx hcy hpre
  obtain ⟨r, hr, rfl⟩ := exec_encBuild_next h0 ht herr
  have hx := coded_of_clen hr hcx
  have hy := coded_of_clen hr hcy
  have hfits := (canon_tables hr).fits
  obtain ⟨hle, hdiv⟩ := bitsOf_prefix (hfits x).2 (hfits y).2 hpre
  rw [((canon_codes hr x).1 hx).1, ((canon_codes hr y).1 hy).1] at hle hdiv
  have h16 := (canon_greatest hr).2.2
  have hslot_x : slotStart 16 (codedLengths s.len) (place s.len y) / 2 ^ (16 - lenOf s.len x) =
      (r.code.get 0 x.toNat).toNat := by
    have hp : 2 ^ (16 - lenOf s.len x) = 2 ^ (lenOf s.len y - lenOf s.len x) * 2 ^ (16 - lenOf s.len y) := by
      have := hy.2
      rw [← Nat.pow_add]
      congr 1
      omega
    rw [← code_mul_eq_slotStart hr h16 le_rfl hy, hp, Nat.mul_div_mul_right _ _ (Nat.two_pow_pos _), hdiv]
  have hslot_y : slotStart 16 (codedLengths s.len) (place s.len y) / 2 ^ (16 - lenOf s.len y) =
      (r.code.get 0 y.toNat).toNat := by
    rw [← code_mul_eq_slotStart hr h16 le_rfl hy, Nat.mul_div_cancel _ (Nat.two_pow_pos _)]
  exact hne (place_inj hx (slot_unique ((code_eq_iff_slot hr h16 le_rfl hx _).1 hslot_x)
    ((code_eq_iff_slot hr h16 le_rfl hy _).1 hslot_y)))

end Sys2Proof.Machine

/-! SUPPORT. The fill of the decode table (42_decoder.md R207), and the table that `DEC_BUILD` makes from the header of a built
code (R157 (c), R213). -/

namespace Sys2Proof.Machine

/-! ## `BuildTable`, symbol by symbol (R207) -/

section
variable {M : Nat} {Ls : List Nat} {dcpl dsyms : Table Byte} {old : Table DtEntry}

/-- The working values after the fill of the first `n` symbols. -/
structure Filled (M : Nat) (Ls : List Nat) (dsyms : Table Byte) (old : Table DtEntry) (n : Nat) (a : FillAcc) : Prop where
  k : a.k = n
  cur : a.cur = slotStart M Ls n
  table : IsFilledTable M Ls dsyms old a.dt n

/-- How a fill of the symbols up to number `m` ends: with all of them, or at the first that would pass `2^M`. -/
def FillEnds (M : Nat) (Ls : List Nat) (dsyms : Table Byte) (old : Table DtEntry) (m : Nat) (r : FillResult) : Prop :=
  (r.overlap = false ∧ Filled M Ls dsyms old m r.acc) ∨
  (r.overlap = true ∧ ∃ n, n < m ∧ Filled M Ls dsyms old n r.acc ∧ 2 ^ M < slotStart M Ls (n + 1))

theorem slotStart_succ_of_getElem? {n L : Nat} (hL : Ls[n]? = some L) :
    slotStart M Ls (n + 1) = slotStart M Ls n + 2 ^ (M - L) := by
  obtain ⟨hn, rfl⟩ := List.getElem?_eq_some_iff.1 hL
  exact slotStart_succ hn

theorem Filled.fillSymbol {n L : Nat} {a : FillAcc} (hL : Ls[n]? = some L) (hle : slotStart M Ls (n + 1) ≤ 2 ^ M)
    (h : Filled M Ls dsyms old n a) : Filled M Ls dsyms old (n + 1) (fillSymbol M L dsyms a) := by
  have hsucc := slotStart_succ_of_getElem? (M := M) hL
  obtain ⟨hk, hcur, hdone, hrest, habove⟩ := h
  refine ⟨by rw [fillSymbol_k, hk], by rw [fillSymbol_cur, hcur, hsucc], fun k hlt x h1 h2 => ?_, fun x h1 h2 => ?_,
    fun x hx => ?_⟩
  · rw [fillSymbol_dt, hcur, ← hsucc]
    rcases Nat.lt_succ_iff_lt_or_eq.1 hlt with hlt | rfl
    · have := slotStart_mono (M := M) Ls (show k + 1 ≤ n from hlt)
      rw [if_neg (by omega)]
      exact hdone k hlt x h1 h2
    · rw [if_pos ⟨h1, h2⟩, hk, List.getD_eq_getElem?_getD, hL, Option.getD_some]
  · rw [fillSymbol_dt, hcur, ← hsucc, if_neg (by omega)]
    exact hrest x ((slotStart_mono Ls n.le_succ).trans h1) h2
  · rw [fillSymbol_dt, hcur, ← hsucc, if_neg (by omega)]
    exact habove x hx

theorem fillClass_ends {n c L : Nat} {a : FillAcc} (hL : ∀ i, i < c → Ls[n + i]? = some L)
    (h : Filled M Ls dsyms old n a) : FillEnds M Ls dsyms old (n + c) (fillClass M L dsyms c a) := by
  induction c generalizing n a with
  | zero => exact .inl ⟨rfl, h⟩
  | succ c ih =>
    have hn : Ls[n]? = some L := hL 0 (Nat.succ_pos c)
    have hsucc := slotStart_succ_of_getElem? (M := M) hn
    rw [← h.cur] at hsucc
    rw [fillClass]
    split
    · exact .inr ⟨rfl, n, by omega, h, by omega⟩
    · rw [show n + (c + 1) = n + 1 + c by omega]
      refine ih (fun i hi => ?_) (h.fillSymbol hn (by omega))
      rw [show n + 1 + i = n + (i + 1) by omega]
      exact hL (i + 1) (Nat.succ_lt_succ hi)

theorem fillClasses_ends {Cs : List Nat} {n : Nat} {a : FillAcc} (hn : n ≤ Ls.length)
    (hLs : Ls.drop n = Cs.flatMap fun L => List.replicate (dcpl.get 0 L).toNat L) (h : Filled M Ls dsyms old n a) :
    FillEnds M Ls dsyms old Ls.length (fillClasses M dcpl dsyms Cs a) := by
  induction Cs generalizing n a with
  | nil =>
    have hlen : n = Ls.length := Nat.le_antisymm hn (List.drop_eq_nil_iff.1 hLs)
    exact .inl ⟨rfl, hlen ▸ h⟩
  | cons C Cs ih =>
    generalize hc : (dcpl.get 0 C).toNat = c
    rw [List.flatMap_cons, hc] at hLs
    have hlen := congrArg List.length hLs
    rw [List.length_drop, List.length_append, List.length_replicate] at hlen
    have hclass : FillEnds M Ls dsyms old (n + c) (fillClass M C dsyms c a) := by
      refine fillClass_ends (fun i hi => ?_) h
      rw [← List.getElem?_drop, hLs, List.getElem?_append_left (by rwa [List.length_replicate]),
        List.getElem?_replicate_of_lt hi]
    simp only [fillClasses, hc]
    obtain ⟨hok, hfill⟩ | ⟨hover, m, hm, hfill, hpass⟩ := hclass
    · rw [hok, if_neg (by decide)]
      refine ih (n := n + c) (by omega) ?_ hfill
      rw [← List.drop_drop, hLs, List.drop_left' List.length_replicate]
    · rw [hover, if_pos rfl]
      exact .inr ⟨hover, m, by omega, hfill, hpass⟩

/-- Everything `BuildTable` can do (R207). -/
theorem buildTable_ends (dcpl dsyms : Table Byte) (old : Table DtEntry) :
    FillEnds (greatestClass dcpl) (classList dcpl) dsyms old (classList dcpl).length (buildTable dcpl dsyms old) := by
  refine fillClasses_ends (Nat.zero_le _) rfl
    ⟨rfl, rfl, fun k hk => absurd hk (Nat.not_lt_zero k), fun x _ hx => ?_, fun x hx => ?_⟩
  · rw [Table.get_fill, if_pos ⟨Nat.zero_le x, by omega⟩]
  · rw [Table.get_fill, if_neg (by omega)]

/-- Counts that keep the Kraft inequality fill the table without an overlap. -/
theorem buildTable_filled (dsyms : Table Byte) (old : Table DtEntry)
    (h : kraft (greatestClass dcpl) (classList dcpl) ≤ 2 ^ greatestClass dcpl) :
    (buildTable dcpl dsyms old).overlap = false ∧
      Filled (greatestClass dcpl) (classList dcpl) dsyms old (classList dcpl).length (buildTable dcpl dsyms old).acc := by
  obtain hok | ⟨-, n, hn, -, hpass⟩ := buildTable_ends dcpl dsyms old
  · exact hok
  · have hle := slotStart_mono (M := greatestClass dcpl) (classList dcpl) (show n + 1 ≤ _ from hn)
    rw [slotStart_of_length_le le_rfl] at hle
    omega

/-- A slot before the end of the last symbol's slots belongs to some symbol. -/
theorem exists_slot {x n : Nat} (h : x < slotStart M Ls n) :
    ∃ k, k < n ∧ slotStart M Ls k ≤ x ∧ x < slotStart M Ls (k + 1) := by
  induction n with
  | zero => exact absurd h (Nat.not_lt_zero x)
  | succ n ih =>
    by_cases hx : x < slotStart M Ls n
    · obtain ⟨k, hk, hslot⟩ := ih hx
      exact ⟨k, by omega, hslot⟩
    · exact ⟨n, Nat.lt_succ_self n, by omega, h⟩

end

/-! ## `DEC_BUILD` that succeeds (R208) -/

/-- The state after a successful `DEC_BUILD`. -/
def State.tableBuilt (s : State) : State :=
  { installTable s with
    status := { (installTable s).status with
      warnIncomplete := tableIncomplete (buildTable s.dcpl s.dsyms s.dt).acc.cur (greatestClass s.dcpl), decReady := true } }

theorem exec_decBuild_ok {s : State} (h0 : s.status.err = 0) (hv : s.status.hdrValid = true)
    (hok : (buildTable s.dcpl s.dsyms s.dt).overlap = false) : exec .decBuild s = .next s.tableBuilt := by
  refine (runGated_require_pass (c := fun s => s.status.hdrValid) h0 hv).trans ?_
  dsimp only
  rw [Cmd.bind_ok (Cmd.set_apply _ _), hok]
  rfl

/-! ## The header of a built code (R213) -/

section
variable {len : Table (BitVec 5)}

/-- Each class has as many symbols in canonical order as in the alphabet. -/
theorem length_filter_class {L : Nat} (hL : L ∈ lenClasses) :
    (allSymbols.filter fun x => decide (lenOf len x = L)).length =
      (canonicalOrder len).countP fun x => decide (lenOf len x = L) := by
  rw [List.countP_eq_length_filter]
  refine List.Perm.length_eq ?_
  refine (List.perm_ext_iff_of_nodup (nodup_allSymbols.filter _) ((nodup_canonicalOrder len).filter _)).2 fun x => ?_
  simp only [List.mem_filter, mem_allSymbols, mem_canonicalOrder, decide_eq_true_eq, true_and]
  refine ⟨fun hx => ⟨?_, hx⟩, fun hx => hx.2⟩
  rw [Coded, hx]
  exact (mem_lenClasses L).1 hL

/-- The lengths in canonical order are the classes in order, each as often as it has symbols (R40). -/
theorem codedLengths_eq_flatMap : codedLengths len =
    lenClasses.flatMap fun L => List.replicate ((canonicalOrder len).countP fun x => decide (lenOf len x = L)) L := by
  rw [codedLengths, canonicalOrder, List.map_flatMap]
  refine List.flatMap_congr fun L hL => ?_
  rw [← canonicalOrder, ← length_filter_class hL, List.map_eq_replicate_iff]
  exact fun x hx => of_decide_eq_true (List.mem_filter.1 hx).2

end

section
variable {len : Table (BitVec 5)} {r : CanonAcc} {dcpl : Table Byte} (h : canon len = .ok r)
  (hd : ∀ L, 1 ≤ L → L ≤ 16 → (dcpl.get 0 L).toNat = (r.cpl.get 0 L).toNat)

include hd in
theorem greatestClass_of_header : greatestClass dcpl = greatestClass r.cpl := by
  refine congrArg (Option.getD · 0) (List.find?_congr fun L hL => ?_)
  obtain ⟨h1, h16⟩ := (mem_lenClasses L).1 (List.mem_reverse.1 hL)
  rw [hd L h1 h16]

include h

include hd in
theorem classList_of_header : classList dcpl = codedLengths len := by
  rw [codedLengths_eq_flatMap, classList]
  refine List.flatMap_congr fun L hL => ?_
  obtain ⟨h1, h16⟩ := (mem_lenClasses L).1 hL
  rw [hd L h1 h16, canon_counts h]

theorem kraft_codedLengths_le : kraft (greatestClass r.cpl) (codedLengths len) ≤ 2 ^ greatestClass r.cpl := by
  have h16 := (canon_greatest h).2.2
  have hp : (2 : Nat) ^ 16 = 2 ^ greatestClass r.cpl * 2 ^ (16 - greatestClass r.cpl) := by
    rw [← Nat.pow_add]
    congr 1
    omega
  have hle : kraft 16 (codedLengths len) ≤ 2 ^ 16 := canon_kraft_le h
  rw [kraft_scale h16 fun L => codedLengths_le h, hp] at hle
  exact Nat.le_of_mul_le_mul_right hle (Nat.two_pow_pos _)

/-- In a table filled from the code's header the slots of a coded symbol are those between its start and the next symbol's. -/
theorem filledTable_get_iff {dsyms : Table Byte} {old dt : Table DtEntry}
    (hsyms : ∀ k, k < (canonicalOrder len).length → dsyms.get 0 k = (canonicalOrder len).getD k 0)
    (ht : IsFilledTable (greatestClass r.cpl) (codedLengths len) dsyms old dt (codedLengths len).length) {x : Byte}
    (hx : Coded len x) (slot : Nat) :
    (dt.get .unfilled slot = ⟨true, r.clen.get 0 x.toNat, x⟩ ∧ slot < 2 ^ greatestClass r.cpl) ↔
      slotStart (greatestClass r.cpl) (codedLengths len) (place len x) ≤ slot ∧
        slot < slotStart (greatestClass r.cpl) (codedLengths len) (place len x + 1) := by
  obtain ⟨hfilled, hrest, -⟩ := ht
  have hlen : (codedLengths len).length = (canonicalOrder len).length := List.length_map ..
  constructor
  · rintro ⟨hget, hlt⟩
    by_cases hend : slotStart (greatestClass r.cpl) (codedLengths len) (codedLengths len).length ≤ slot
    · rw [hrest slot hend hlt] at hget
      cases hget
    · obtain ⟨k, hk, h1, h2⟩ := exists_slot (Nat.lt_of_not_le hend)
      have hk' : k < (canonicalOrder len).length := by omega
      rw [hfilled k hk slot h1 h2, hsyms k hk', List.getD_eq_getElem _ _ hk'] at hget
      have hsym : (canonicalOrder len)[k] = x := congrArg DtEntry.sym hget
      have hplace : place len x = k := hsym ▸ (nodup_canonicalOrder len).idxOf_getElem k hk'
      rw [hplace]
      exact ⟨h1, h2⟩
  · rintro ⟨h1, h2⟩
    have hk := place_lt_codedLengths hx
    have hend := slotStart_mono (M := greatestClass r.cpl) (codedLengths len) (show place len x + 1 ≤ _ from hk)
    rw [slotStart_of_length_le le_rfl] at hend
    have hkraft := kraft_codedLengths_le h
    rw [hfilled _ hk slot h1 h2, hsyms _ (place_lt hx), List.getD_eq_getElem _ _ hk,
      List.getD_eq_getElem _ _ (place_lt hx), codedLengths_place hx, getElem_place hx, ← ((canon_codes h x).1 hx).1,
      BitVec.ofNat_toNat, BitVec.setWidth_eq]
    exact ⟨rfl, by omega⟩

end

/-- Settles O56: the header gives the table the lengths and the symbols in canonical order, so a symbol's slots are those that
its code names. -/
theorem decodeTableInvertsCode : Obligations.DecodeTableInvertsCode := by
  intro s t u h0 ht herr hheader
  obtain ⟨r, hr, rfl⟩ := exec_encBuild_next h0 ht herr
  obtain ⟨hu0, hvalid, hcounts, hsyms⟩ := hheader
  have hM : greatestClass u.dcpl = greatestClass r.cpl := greatestClass_of_header hcounts
  have hLs : classList u.dcpl = codedLengths s.len := classList_of_header hr hcounts
  have h16 := (canon_greatest hr).2.2
  rw [installCode_nsym_toNat hr] at hsyms
  have hlisted : ∀ k, k < (canonicalOrder s.len).length → u.dsyms.get 0 k = (canonicalOrder s.len).getD k 0 :=
    fun k hk => by rw [hsyms k hk, installCode_symlist_get hr, if_pos hk]
  obtain ⟨hok, hfilled⟩ := buildTable_filled (dcpl := u.dcpl) u.dsyms u.dt
    (by rw [hM, hLs]; exact kraft_codedLengths_le hr)
  rw [hM, hLs] at hfilled
  refine ⟨_, exec_decBuild_ok hu0 hvalid hok, rfl, hu0, congrArg (BitVec.ofNat 5) hM, fun x hc slot => ?_⟩
  have hx := coded_of_clen hr hc
  have hslots := filledTable_get_iff hr hlisted hfilled.table hx slot
  have hcode := code_eq_iff_slot hr le_rfl h16 hx slot
  rw [installCode_maxBits_toNat hr, installCode_clen, installCode_code, ((canon_codes hr x).1 hx).1, hcode, ← hslots]
  exact ⟨id, fun h => h.1⟩

end Sys2Proof.Machine

/-! SUPPORT. The bit reader as a list of bits (42_decoder.md R200 to R203): reads in turn are one read of all their bits, and
what `BR_BITS` does with the stream. -/

namespace Sys2Proof.Machine

/-! ## The bits of a stream -/

theorem streamBits_append (ds es : List Byte) : streamBits (ds ++ es) = streamBits ds ++ streamBits es := List.flatMap_append

theorem length_streamBits (ds : List Byte) : (streamBits ds).length = 8 * ds.length := by
  induction ds with
  | nil => rfl
  | cons d ds ih =>
    rw [streamBits, List.flatMap_cons, List.length_append, length_bitsOf, ← streamBits, ih, List.length_cons]
    omega

theorem streamBits_singleton (d : Byte) : streamBits [d] = bitsOf d 8 := List.append_nil _

theorem bitsVal_singleton (b : Bool) : bitsVal [b] = b.toNat := Nat.zero_add _

theorem drop_bitsOf {w : Nat} (v : BitVec w) (n k : Nat) : (bitsOf v k).drop n = bitsOf v (k - n) := by
  refine List.ext_getElem (by simp) fun i h1 h2 => ?_
  rw [List.getElem_drop, getElem_bitsOf, getElem_bitsOf]
  congr 1
  omega

theorem length_bufferedBits (s : State) : s.bufferedBits.length = s.rcnt.toNat := length_bitsOf ..

/-! ## Reads in turn (R202) -/

/-- `s` with these contents of its reader. -/
def State.withReader (s : State) (b : Byte) (c : BitVec 4) : State := { s with rbuf := b, rcnt := c }

theorem State.readBitsOf_eq (s : State) (n : Nat) (ds : List Byte) : s.readBitsOf n ds =
    (s.took (stuffed ds).length).withReader (ds.getLastD s.rbuf) (BitVec.ofNat 4 (s.rcnt.toNat + 8 * ds.length - n)) := rfl

section
variable {s : State} {n m : Nat} {ds es fs : List Byte}

theorem length_readOf (h : ds.length = s.dataNeeded n) : (s.readOf n ds).length = n := by
  rw [State.readOf, List.length_take, List.length_append, length_bufferedBits, length_streamBits, h, State.dataNeeded]
  omega

/-- Fewer than eight bits stay in the buffer, or it is not refilled: the count fits its register. -/
theorem readBitsOf_rcnt_toNat (h : ds.length = s.dataNeeded n) :
    (s.readBitsOf n ds).rcnt.toNat = s.rcnt.toNat + 8 * ds.length - n := by
  have hlt := s.rcnt.isLt
  rw [State.dataNeeded] at h
  rw [State.readBitsOf_rcnt, BitVec.toNat_ofNat, Nat.mod_eq_of_lt (by omega)]

/-- The reader keeps the bits it has taken and not returned. -/
theorem bufferedBits_readBitsOf (h : ds.length = s.dataNeeded n) :
    (s.readBitsOf n ds).bufferedBits = (s.bufferedBits ++ streamBits ds).drop n := by
  rw [State.bufferedBits, readBitsOf_rcnt_toNat h, State.readBitsOf_rbuf]
  rw [State.dataNeeded] at h
  rcases List.eq_nil_or_concat' ds with rfl | ⟨es, d, rfl⟩
  · rw [streamBits, List.flatMap_nil, List.append_nil, State.bufferedBits, drop_bitsOf]
    rfl
  · rw [List.length_append, List.length_singleton] at h ⊢
    have hold : (s.bufferedBits ++ streamBits es).length ≤ n := by
      rw [List.length_append, length_bufferedBits, length_streamBits]
      omega
    rw [streamBits_append, streamBits_singleton, ← List.append_assoc, List.drop_append, List.drop_of_length_le hold,
      List.nil_append, drop_bitsOf, List.getLastD_concat, List.length_append, length_bufferedBits, length_streamBits]
    congr 1
    omega

/-- The data bytes of a longer read are those of its first part and those of the rest. -/
theorem exists_readSplit (h : ds.length = s.dataNeeded (n + m)) :
    ∃ es fs, ds = es ++ fs ∧ es.length = s.dataNeeded n ∧ fs.length = (s.readBitsOf n es).dataNeeded m := by
  have hle : s.dataNeeded n ≤ ds.length := by rw [h, State.dataNeeded, State.dataNeeded]; omega
  obtain ⟨es, fs, rfl, hes⟩ : ∃ es fs, ds = es ++ fs ∧ es.length = s.dataNeeded n :=
    ⟨_, _, (List.take_append_drop (s.dataNeeded n) ds).symm, List.length_take_of_le hle⟩
  have hcnt := readBitsOf_rcnt_toNat hes
  refine ⟨es, fs, rfl, hes, ?_⟩
  rw [List.length_append] at h
  simp only [State.dataNeeded] at h hes hcnt ⊢
  omega

/-- A read of `n` bits and then of `m` bits is a read of `n + m` bits. -/
theorem readBitsOf_readBitsOf (hes : es.length = s.dataNeeded n) (hfs : fs.length = (s.readBitsOf n es).dataNeeded m) :
    (s.readBitsOf n es).readBitsOf m fs = s.readBitsOf (n + m) (es ++ fs) := by
  have htook : (s.took (stuffed es).length).took (stuffed fs).length = s.took (stuffed (es ++ fs)).length := by
    rw [State.took_took, stuffed_append, List.length_append]
  have hbuf : fs.getLastD (es.getLastD s.rbuf) = (es ++ fs).getLastD s.rbuf := by
    rcases List.eq_nil_or_concat' fs with rfl | ⟨gs, g, rfl⟩
    · rw [List.append_nil]
      rfl
    · rw [List.getLastD_concat, ← List.append_assoc, List.getLastD_concat]
  have hcnt : (s.readBitsOf n es).rcnt.toNat + 8 * fs.length - m = s.rcnt.toNat + 8 * (es ++ fs).length - (n + m) := by
    rw [State.dataNeeded, readBitsOf_rcnt_toNat hes] at hfs
    rw [State.dataNeeded] at hes
    rw [readBitsOf_rcnt_toNat hes, List.length_append]
    omega
  rw [State.readBitsOf_eq, hcnt, State.readBitsOf_rbuf, hbuf, State.readBitsOf_eq s (n + m), ← htook]
  rfl

theorem readOf_append (hes : es.length = s.dataNeeded n) (fs : List Byte) :
    s.readOf (n + m) (es ++ fs) = s.readOf n es ++ (s.readBitsOf n es).readOf m fs := by
  have hlen := length_readOf hes
  rw [State.readOf, State.readOf, State.readOf, bufferedBits_readBitsOf hes, streamBits_append, ← List.append_assoc,
    List.take_add]
  rw [State.readOf, List.length_take] at hlen
  rw [List.take_append_of_le_length (by omega), List.drop_append_of_le_length (by omega)]

/-- A read of no bits takes nothing. -/
theorem readBitsOf_zero (s : State) : s.readBitsOf 0 [] = s := by
  have hcnt : BitVec.ofNat 4 (s.rcnt.toNat + 8 * ([] : List Byte).length - 0) = s.rcnt := by simp
  rw [State.readBitsOf_eq, hcnt]
  exact s.took_zero

/-! ## `ReadBits` of a stream that is long enough (R200, R201) -/

theorem readBit_of_offers (hn : ds.length = s.dataNeeded 1) (h : s.bin.Offers (stuffed ds)) :
    ∃ b, s.readOf 1 ds = [b] ∧ readBit s = .ok b (s.readBitsOf 1 ds) := by
  rw [State.dataNeeded] at hn
  by_cases h0 : s.rcnt = 0
  · have hcnt : s.rcnt.toNat = 0 := by rw [h0]; rfl
    obtain ⟨d, rfl⟩ := List.length_eq_one_iff.1 (hn.trans (by rw [hcnt]))
    refine ⟨d.getLsbD 7, ?_, ?_⟩
    · rw [State.readOf, State.bufferedBits, hcnt, streamBits_singleton]
      rfl
    · rw [readBit_fetch s h0, unstuffIn_of_offers h, State.readBitsOf, hcnt]
      rfl
  · obtain ⟨k, hk⟩ : ∃ k, s.rcnt.toNat = k + 1 := ⟨s.rcnt.toNat - 1, by bv_omega⟩
    obtain rfl := List.eq_nil_of_length_eq_zero (hn.trans (by omega))
    refine ⟨s.rbuf.getLsbD k, ?_, ?_⟩
    · rw [State.readOf, State.bufferedBits, hk, bitsOf_succ]
      rfl
    · have hcnt : s.rcnt - 1 = BitVec.ofNat 4 k := by bv_omega
      have hnil : s.took (stuffed []).length = s := s.took_zero
      rw [readBit_within s h0, hcnt, State.readBitsOf_eq, hnil, hk]
      rfl

theorem appendBit_eq (v : BitVec 16) (b : Bool) :
    (v <<< 1) ||| (BitVec.ofBool b).setWidth 16 = BitVec.ofNat 16 (v.toNat * 2 + b.toNat) := by
  rw [← BitVec.add_eq_or_of_and_eq_zero]
  · refine BitVec.eq_of_toNat_eq ?_
    cases b <;> simp [Nat.shiftLeft_eq]
  · cases b <;> simp [BitVec.and_one_eq_setWidth_ofBool_getLsbD]

theorem readBitsLoop_of_offers {v : BitVec 16} (hn : ds.length = s.dataNeeded n) (h : s.bin.Offers (stuffed ds)) :
    readBitsLoop n v s = .ok (BitVec.ofNat 16 (v.toNat * 2 ^ n + bitsVal (s.readOf n ds))) (s.readBitsOf n ds) := by
  induction n generalizing s v ds with
  | zero =>
    obtain rfl := List.eq_nil_of_length_eq_zero (hn.trans (by simp [State.dataNeeded]))
    rw [readBitsOf_zero, readBitsLoop]
    simp [State.readOf, bitsVal]
  | succ n ih =>
    rw [Nat.add_comm] at hn
    obtain ⟨es, fs, rfl, hes, hfs⟩ := exists_readSplit hn
    rw [stuffed_append, Answers.offers_append] at h
    obtain ⟨b, hb, hread⟩ := readBit_of_offers hes h.1
    rw [readBitsLoop, Cmd.bind_ok hread, ih hfs h.2, readBitsOf_readBitsOf hes hfs, Nat.add_comm n 1, appendBit_eq,
      readOf_append hes, hb, bitsVal_append, length_readOf hfs]
    have hshift : (v.toNat * 2 + b.toNat) * 2 ^ n = v.toNat * 2 ^ (1 + n) + b.toNat * 2 ^ n := by ring
    rw [bitsVal_singleton, ← Nat.add_assoc, ← hshift]
    congr 1
    refine BitVec.eq_of_toNat_eq ?_
    rw [BitVec.toNat_ofNat, BitVec.toNat_ofNat, BitVec.toNat_ofNat]
    exact ((Nat.mod_modEq _ _).mul_right _).add_right _

theorem readBits_of_offers (hn : ds.length = s.dataNeeded n) (h : s.bin.Offers (stuffed ds)) :
    readBits n s = .ok (BitVec.ofNat 16 (bitsVal (s.readOf n ds))) (s.readBitsOf n ds) := by
  rw [readBits, readBitsLoop_of_offers hn h]
  simp

/-- At most 16 bits fit the 16-bit value of `ReadBits`. -/
theorem bitsVal_readOf_lt (hn : ds.length = s.dataNeeded n) (h16 : n ≤ 16) : bitsVal (s.readOf n ds) < 2 ^ 16 := by
  have hlt := bitsVal_lt (s.readOf n ds)
  rw [length_readOf hn] at hlt
  exact hlt.trans_le (Nat.pow_le_pow_right Nat.two_pos h16)

end

/-! ## `ReadBits` that stops short (R121, R200, R201) -/

theorem Answers.offersThenEnds_append (a : Answers InAnswer) (bs cs : List Byte) :
    a.OffersThenEnds (bs ++ cs) ↔ a.Offers bs ∧ (a.skip bs.length).OffersThenEnds cs := by
  rw [OffersThenEnds, offers_append, List.length_append, and_assoc, OffersThenEnds, nth_skip]

theorem readBits_of_stops {s u : State} {n : Nat} {ds : List Byte} {code : BitVec 5} (h : s.ReaderStops n ds u code) :
    ∃ e : Err, e.code = code ∧ readBits n s = .error (.raised e) u := by
  have hafter : s.readerAfter ds = (s.took (stuffed ds).length).withReader (ds.getLastD s.rbuf) 0 := rfl
  obtain ⟨hn, ⟨hends, rfl, rfl⟩ | ⟨hends, rfl, rfl⟩ | ⟨x, hx, hoff, rfl, rfl⟩⟩ := h
  · rw [← List.append_nil (stuffed ds), Answers.offersThenEnds_append] at hends
    obtain ⟨hds, hend⟩ := hends
    refine ⟨.ioRead, rfl, (readBitsLoop_error hn hds (unstuffIn_of_ends (s := s.readerAfter ds) hend)).trans ?_⟩
    rw [← Nat.add_zero (stuffed ds).length, ← State.took_tookToEnd]
    rfl
  · rw [Answers.offersThenEnds_append] at hends
    obtain ⟨hds, hend⟩ := hends
    refine ⟨.ioRead, rfl, (readBitsLoop_error hn hds (unstuffIn_of_ff_ends (s := s.readerAfter ds) hend)).trans ?_⟩
    rw [← State.took_tookToEnd]
    rfl
  · rw [Answers.offers_append] at hoff
    obtain ⟨hds, hmark⟩ := hoff
    refine ⟨.marker, rfl, (readBitsLoop_error hn hds (unstuffIn_of_marker (s := s.readerAfter ds) hx hmark)).trans ?_⟩
    rw [← State.took_took]
    rfl

/-! ## `BR_BITS` (R203) -/

theorem exec_brBits {n : BitVec 5} {s : State} (h0 : s.status.err = 0) (hn : n.toNat ≤ 16) :
    exec (.brBits n) s = finish 0x30 ((do
      let v ← readBits n.toNat
      modify fun s : State => { s with resp := v.setWidth 32 }) s) := by
  have hlegal : countLegal n = true := decide_eq_true hn
  rw [exec, execBrBits, if_pos hlegal, runGated, if_pos h0]
  rfl

/-- Settles O45: `ReadBits` returns the bits or stops short of them; a count above 16 is not legal. -/
theorem brBitsRule : Obligations.BrBitsRule := by
  intro n s ds h0 _
  refine ⟨fun hn hds h => ?_, fun hn u code h => ?_, fun hn w hop hfield hm => ?_⟩
  · rw [exec_brBits h0 hn, Cmd.bind_ok (readBits_of_offers hds h), Cmd.modify_apply, finish_ok,
      BitVec.setWidth_ofNat_of_le_of_lt (by decide) (bitsVal_readOf_lt hds hn)]
  · obtain ⟨e, rfl, hread⟩ := readBits_of_stops h
    rw [exec_brBits h0 hn, Cmd.bind_error hread]
    rfl
  · have hw : ¬LegalWord w := fun ⟨_, hcount, _⟩ => by
      have := hcount (.inr hop)
      rw [hfield] at this
      omega
    rw [step_of_not_legalWord h0 hm hw, opByte, hop]

end Sys2Proof.Machine

/-! SUPPORT. The window of the decoder (42_decoder.md R209 to R211): `DEC_SEED`, `DEC_SYM` and `DEC_RUN`. -/

namespace Sys2Proof.Machine

/-! ## A reader within a larger state -/

/-- `s` with the reader, `MARKER` and BIN of `r`. -/
def State.withReaderOf (s r : State) : State :=
  { s with bin := r.bin, inPos := r.inPos, rbuf := r.rbuf, rcnt := r.rcnt, marker := r.marker }

/-- The reader stops in the same way whatever the rest of the state is. -/
theorem State.ReaderStops.of_sameReader {s u : State} {n : Nat} {ds : List Byte} {code : BitVec 5}
    (h : s.ReaderStops n ds u code) (t : State) : (t.withReaderOf s).ReaderStops n ds (t.withReaderOf u) code := by
  obtain ⟨hn, ⟨hends, rfl, rfl⟩ | ⟨hends, rfl, rfl⟩ | ⟨x, hx, hoff, rfl, rfl⟩⟩ := h
  · exact ⟨hn, .inl ⟨hends, rfl, rfl⟩⟩
  · exact ⟨hn, .inr (.inl ⟨hends, rfl, rfl⟩)⟩
  · exact ⟨hn, .inr (.inr ⟨x, hx, hoff, rfl, rfl⟩)⟩

/-- A reader that stops changes itself only. -/
theorem State.ReaderStops.frame {s u : State} {n : Nat} {ds : List Byte} {code : BitVec 5}
    (h : s.ReaderStops n ds u code) : u = s.withReaderOf u := by
  obtain ⟨-, ⟨-, -, rfl⟩ | ⟨-, -, rfl⟩ | ⟨x, -, -, -, rfl⟩⟩ := h <;> rfl

/-! ## `DEC_SEED` (R209) -/

/-- `s` before the bits of its window are read (R209). -/
def State.unseeded (s : State) : State :=
  { s with status := { s.status with seeded := false }, remain := s.numSym }

theorem exec_decSeed {s : State} (h0 : s.status.err = 0) : exec .decSeed s = finish 0x33 (seedWindow s) := by
  rw [exec, execDecSeed, runGated, if_pos h0]
  rfl

/-- `SeedWindow` with a table. -/
theorem seedWindow_apply {s : State} (hd : s.status.decReady = true) : seedWindow s = (do
    let w ← readBits s.dmaxBits.toNat
    modify fun t : State => { t with win := w, status := { t.status with seeded := true } }) s.unseeded := by
  rw [seedWindow, Cmd.bind_ok (Cmd.get_apply s), Cmd.bind_ok (require_true s _ hd), Cmd.bind_ok (Cmd.set_apply _ _)]
  rfl

/-- Settles O52: past its one check the command is `ReadBits`, whose value goes to the window. -/
theorem decSeedRule : Obligations.DecSeedRule := by
  intro s ds h0 _
  refine ⟨fun hd => runGated_require_fail (c := fun s => s.status.decReady) h0 hd, fun hd hds h => ?_,
    fun hd u code h => ?_⟩
  · rw [exec_decSeed h0, seedWindow_apply hd, Cmd.bind_ok (readBits_of_offers (s := s.unseeded) hds h)]
    rfl
  · obtain ⟨e, rfl, hread⟩ := readBits_of_stops (h.of_sameReader s.unseeded)
    rw [exec_decSeed h0, seedWindow_apply hd, Cmd.bind_error (s := s.unseeded) hread, h.frame]
    rfl

/-! ## `DEC_SYM` (R210) -/

/-- The slot that the window addresses. -/
def State.slot (s : State) : DtEntry := s.dt.get .unfilled s.win.toNat

/-- `s` with its slot's symbol emitted and counted, before the refill of the window (R210). -/
def State.answered (s : State) : State :=
  { s.emitted [s.slot.sym] with resp := s.slot.sym.setWidth 32, remain := s.remain - 1 }

section
variable {s : State} (hwin : s.win.toNat < 2 ^ s.dmaxBits.toNat)
include hwin

theorem decodeSymbol_empty (hv : s.slot.v = false) : decodeSymbol s = .error (.raised .emptySlot) s := by
  rw [decodeSymbol, Cmd.bind_ok (Cmd.get_apply s), Nat.mod_eq_of_lt hwin]
  exact Cmd.bind_error (require_false s _ hv)

section
variable (hv : s.slot.v = true) (hacc : s.soutHost.nth 0 = some .accept)
include hv hacc

/-- The decoding of a symbol once it is emitted. -/
theorem decodeSymbol_apply : decodeSymbol s = (do
    let t : State ← get
    if t.remain = 0 then pure ()
    else do
      let b ← readBits s.slot.len.toNat
      modify fun t : State => { t with win := shiftWindow t.win s.slot.len.toNat b s.dmaxBits.toNat }) s.answered := by
  have hout : symOut s.slot.sym s = .ok () (s.emitted [s.slot.sym]) := by rw [symOut_apply, hacc]
  rw [decodeSymbol, Cmd.bind_ok (Cmd.get_apply s), Nat.mod_eq_of_lt hwin]
  exact (Cmd.bind_ok (require_true s _ hv)).trans ((Cmd.bind_ok hout).trans (Cmd.bind_ok (Cmd.modify_apply _ _)))

theorem decodeSymbol_last (hr : s.remain = 1) : decodeSymbol s = .ok () s.answered := by
  have h1 : s.answered.remain = 0 := by rw [State.answered, hr]; rfl
  rw [decodeSymbol_apply hwin hv hacc, Cmd.bind_ok (Cmd.get_apply _), if_pos h1]
  rfl

section
variable (hr : 1 < s.remain.toNat)
include hr

theorem decodeSymbol_refill : decodeSymbol s = (do
    let b ← readBits s.slot.len.toNat
    modify fun t : State => { t with win := shiftWindow t.win s.slot.len.toNat b s.dmaxBits.toNat }) s.answered := by
  have h1 : s.answered.remain ≠ 0 := by
    change s.remain - 1 ≠ 0
    bv_omega
  rw [decodeSymbol_apply hwin hv hacc, Cmd.bind_ok (Cmd.get_apply _), if_neg h1]

end
end
end

/-- A shift that loses no bit is R210's window. -/
theorem shiftWindow_eq (win : BitVec 16) {M : Nat} {bs : List Bool} (h16 : bs.length ≤ 16) :
    shiftWindow win bs.length (BitVec.ofNat 16 (bitsVal bs)) M = BitVec.ofNat 16 (nextWindow M win.toNat bs) := by
  have hbits := bitsVal_lt bs
  have hpow : 2 ^ bs.length ≤ 2 ^ 16 := Nat.pow_le_pow_right Nat.two_pos h16
  have hmul : win.toNat * 2 ^ bs.length < 2 ^ 16 * 2 ^ 16 := Nat.mul_lt_mul_of_lt_of_le win.isLt hpow (by decide)
  have hval : ((win.setWidth 32 <<< bs.length) ||| (BitVec.ofNat 16 (bitsVal bs)).setWidth 32).toNat =
      win.toNat * 2 ^ bs.length + bitsVal bs := by
    rw [BitVec.toNat_or, BitVec.toNat_shiftLeft, BitVec.toNat_setWidth, BitVec.toNat_setWidth, BitVec.toNat_ofNat,
      Nat.mod_eq_of_lt (a := win.toNat) (by omega), Nat.shiftLeft_eq, Nat.mod_eq_of_lt (a := _ * _) (by omega),
      Nat.mod_eq_of_lt (a := bitsVal bs) (by omega), Nat.mod_eq_of_lt (a := bitsVal bs) (by omega), ← Nat.shiftLeft_eq,
      Nat.shiftLeft_add_eq_or_of_lt hbits]
  rw [shiftWindow, hval]
  rfl

theorem nextWindow_lt (M w : Nat) (bs : List Bool) : nextWindow M w bs < 2 ^ M := Nat.mod_lt _ (Nat.two_pow_pos M)

/-- A window of at most 16 bits fits its register. -/
theorem toNat_ofNat_window {M w : Nat} (hM : M ≤ 16) (hw : w < 2 ^ M) : (BitVec.ofNat 16 w).toNat = w := by
  rw [BitVec.toNat_ofNat, Nat.mod_eq_of_lt (hw.trans_le (Nat.pow_le_pow_right Nat.two_pos hM))]

/-- `s` after one symbol, its window refilled from the data bytes `es`. -/
def State.refilled (s : State) (es : List Byte) : State :=
  { s.answered.readBitsOf s.slot.len.toNat es with
    win := BitVec.ofNat 16 (nextWindow s.dmaxBits.toNat s.win.toNat (s.readOf s.slot.len.toNat es)) }

theorem refilled_win_toNat {s : State} (es : List Byte) (hM : s.dmaxBits.toNat ≤ 16) : (s.refilled es).win.toNat =
    nextWindow s.dmaxBits.toNat s.win.toNat (s.readOf s.slot.len.toNat es) := toNat_ofNat_window hM (nextWindow_lt ..)

section
variable {s : State} (hwin : s.win.toNat < 2 ^ s.dmaxBits.toNat) (hv : s.slot.v = true)
  (hacc : s.soutHost.nth 0 = some .accept) (hr : 1 < s.remain.toNat) {ds : List Byte}
include hwin hv hacc hr

theorem decodeSymbol_of_offers (h16 : s.slot.len.toNat ≤ 16) (hds : ds.length = s.dataNeeded s.slot.len.toNat)
    (h : s.bin.Offers (stuffed ds)) : decodeSymbol s = .ok () (s.refilled ds) := by
  have hlen := length_readOf hds
  have hshift := shiftWindow_eq (M := s.dmaxBits.toNat) s.win (hlen.trans_le h16)
  rw [hlen] at hshift
  rw [State.refilled, ← hshift, decodeSymbol_refill hwin hv hacc hr,
    Cmd.bind_ok (readBits_of_offers (s := s.answered) hds h)]
  rfl

theorem decodeSymbol_of_stops {u : State} {code : BitVec 5} (h : s.ReaderStops s.slot.len.toNat ds u code) :
    ∃ e : Err, e.code = code ∧ decodeSymbol s = .error (.raised e) (s.answered.withReaderOf u) := by
  obtain ⟨e, he, hread⟩ := readBits_of_stops (h.of_sameReader s.answered)
  exact ⟨e, he, (decodeSymbol_refill hwin hv hacc hr).trans (Cmd.bind_error (s := s.answered) hread)⟩

end

theorem exec_decSym {s : State} (h0 : s.status.err = 0) (hs : s.status.seeded = true) (hr : s.remain ≠ 0) :
    exec .decSym s = finish 0x34 (decodeSymbol s) := by
  rw [exec_decSym_eq, hs, if_neg (by decide), if_neg hr, runGated, if_pos h0]
  rfl

/-- Settles O53: past its two checks the command decodes one symbol, and each clause is one way that this ends. -/
theorem decSymRule : Obligations.DecSymRule := by
  intro s ds h0 hs hd
  have hwin := fun hseed => (hs.window hseed).1
  have hlen : s.status.seeded = true → s.slot.v = true → s.slot.len.toNat ≤ 16 := fun hseed hv =>
    (hd.slotLen (hs.window hseed).2 _ (hwin hseed) hv).2.trans hs.maxBits
  refine ⟨fun hseed => runGated_require_fail (c := fun s => s.status.seeded) h0 hseed, fun hseed hr => ?_,
    fun hseed hr hv => ?_, fun hseed hr hv hacc => ?_, fun hseed hr hv hacc hds h => ?_,
    fun hseed hr hv hacc u code h => ?_⟩
  · rw [exec_decSym_eq, hseed, if_neg (by decide), if_pos hr]
    exact runGated_raised h0 rfl
  · rw [exec_decSym h0 hseed hr, decodeSymbol_empty (hwin hseed) hv]
    rfl
  · rw [exec_decSym h0 hseed (by bv_omega), decodeSymbol_last (hwin hseed) hv (hacc 0 Nat.one_pos) hr, finish_ok,
      State.answered, hr]
    rfl
  · rw [exec_decSym h0 hseed (by bv_omega),
      decodeSymbol_of_offers (hwin hseed) hv (hacc 0 Nat.one_pos) hr (hlen hseed hv) hds h]
    rfl
  · obtain ⟨e, rfl, hdec⟩ := decodeSymbol_of_stops (hwin hseed) hv (hacc 0 Nat.one_pos) hr h
    rw [exec_decSym h0 hseed (by bv_omega), hdec, h.frame]
    rfl

/-! ## `DEC_RUN` over a stream that decodes (R211, R212) -/

/-- `s` after its window and the data bytes `ds` gave the symbols `ys`, with `n` bits read and the window `w` left. -/
def State.decoded (s : State) (ys : List Byte) (n : Nat) (ds : List Byte) (w : Nat) : State :=
  { (s.readBitsOf n ds).emitted ys with
    win := BitVec.ofNat 16 w, remain := 0, resp := (ys.map fun y => y.setWidth 32).getLastD s.resp }

theorem decoded_refilled {s : State} {m w : Nat} {ys es fs : List Byte} (hne : ys ≠ [])
    (hes : es.length = s.dataNeeded s.slot.len.toNat)
    (hfs : fs.length = (s.readBitsOf s.slot.len.toNat es).dataNeeded m) :
    (s.refilled es).decoded ys m fs w = s.decoded (s.slot.sym :: ys) (s.slot.len.toNat + m) (es ++ fs) w := by
  obtain ⟨y, ys, rfl⟩ := List.exists_cons_of_ne_nil hne
  have hsyms : ∀ t : State, t.emitted (s.slot.sym :: y :: ys) = (t.emitted [s.slot.sym]).emitted (y :: ys) :=
    fun t => (t.emitted_emitted [s.slot.sym] (y :: ys)).symm
  rw [State.decoded, State.decoded, ← readBitsOf_readBitsOf hes hfs, hsyms]
  rfl

/-- No bits are read from no bytes. -/
theorem eq_zero_of_readOf_nil {s : State} {n : Nat} {ds : List Byte} (hds : ds.length = s.dataNeeded n)
    (h : s.readOf n ds = []) : n = 0 ∧ ds = [] := by
  have hn := length_readOf hds
  rw [h] at hn
  obtain rfl : n = 0 := hn.symm
  exact ⟨rfl, List.eq_nil_of_length_eq_zero (hds.trans (by simp [State.dataNeeded]))⟩

theorem decodeLoop_of_decodesTo {s : State} {ys ds : List Byte} {n w : Nat} (hM : s.dmaxBits.toNat ≤ 16)
    (hlen : ∀ x, x < 2 ^ s.dmaxBits.toNat → (s.dt.get .unfilled x).v = true → (s.dt.get .unfilled x).len.toNat ≤ 16)
    (hwin : s.win.toNat < 2 ^ s.dmaxBits.toNat) (hrem : s.remain.toNat = ys.length)
    (hacc : s.soutHost.AcceptsSymbols ys.length) (hds : ds.length = s.dataNeeded n) (h : s.bin.Offers (stuffed ds))
    (hdec : DecodesTo s.dt s.dmaxBits.toNat ys s.win.toNat (s.readOf n ds) w) :
    decodeLoop ys.length s = .ok () (s.decoded ys n ds w) := by
  induction ys generalizing s ds n with
  | nil =>
    obtain ⟨hnil, rfl⟩ := hdec
    obtain ⟨rfl, rfl⟩ := eq_zero_of_readOf_nil hds hnil
    have h0 : s.remain = 0 := BitVec.eq_of_toNat_eq hrem
    rw [State.decoded, readBitsOf_zero, State.emitted_nil, BitVec.ofNat_toNat, BitVec.setWidth_eq, ← h0]
    rfl
  | cons y ys ih =>
    have hout : s.soutHost.nth 0 = some .accept := hacc 0 (Nat.succ_pos _)
    rw [List.length_cons] at hrem ⊢
    rw [decodeLoop_succ (by bv_omega)]
    cases ys with
    | nil =>
      obtain ⟨hv, rfl, hnil, rfl⟩ := hdec
      obtain ⟨rfl, rfl⟩ := eq_zero_of_readOf_nil hds hnil
      have h1 : s.remain = 1 := BitVec.eq_of_toNat_eq hrem
      rw [Cmd.bind_ok (decodeSymbol_last hwin hv hout h1), State.decoded, readBitsOf_zero, BitVec.ofNat_toNat,
        BitVec.setWidth_eq, State.answered, h1]
      rfl
    | cons z zs =>
      obtain ⟨hv, rfl, hle, hdec⟩ : s.slot.v = true ∧ s.slot.sym = y ∧
          s.slot.len.toNat ≤ (s.readOf n ds).length ∧ DecodesTo s.dt s.dmaxBits.toNat (z :: zs)
            (nextWindow s.dmaxBits.toNat s.win.toNat ((s.readOf n ds).take s.slot.len.toNat))
            ((s.readOf n ds).drop s.slot.len.toNat) w := hdec
      rw [length_readOf hds] at hle
      obtain ⟨m, rfl⟩ := Nat.exists_eq_add_of_le hle
      obtain ⟨es, fs, rfl, hes, hfs⟩ := exists_readSplit hds
      rw [stuffed_append, Answers.offers_append] at h
      have hes' := length_readOf hes
      rw [readOf_append hes, List.take_left' hes', List.drop_left' hes'] at hdec
      rw [← refilled_win_toNat es hM] at hdec
      have hwin' : (s.refilled es).win.toNat < 2 ^ s.dmaxBits.toNat := by
        rw [refilled_win_toNat es hM]
        exact nextWindow_lt ..
      rw [Cmd.bind_ok (decodeSymbol_of_offers hwin hv hout (by rw [hrem]; simp) (hlen _ hwin hv) hes h.1)]
      refine (ih (s := s.refilled es) (ds := fs) (n := m) hM hlen hwin' ?_ ?_ hfs h.2 hdec).trans ?_
      · change (s.remain - 1).toNat = _
        rw [List.length_cons] at hrem ⊢
        bv_omega
      · intro k hk
        change (s.soutHost.skip 1).nth k = _
        rw [Answers.nth_skip]
        exact hacc _ (by rw [List.length_cons]; omega)
      · rw [decoded_refilled (List.cons_ne_nil _ _) hes hfs]

theorem exec_decRun {s : State} (h0 : s.status.err = 0) : exec .decRun s = finish 0x35 ((do
    seedWindow
    let t : State ← get
    decodeLoop t.remain.toNat) s) := by
  rw [exec, execDecRun, runGated, if_pos h0]
  rfl

/-- `s` with its window seeded from the data bytes `es` (R209). -/
def State.windowSeeded (s : State) (es : List Byte) : State :=
  { s.unseeded.readBitsOf s.dmaxBits.toNat es with
    win := BitVec.ofNat 16 (bitsVal (s.readOf s.dmaxBits.toNat es)), status := { s.status with seeded := true } }

theorem seedWindow_of_offers {s : State} {es : List Byte} (hd : s.status.decReady = true)
    (hes : es.length = s.dataNeeded s.dmaxBits.toNat) (h : s.bin.Offers (stuffed es)) :
    seedWindow s = .ok () (s.windowSeeded es) := by
  rw [seedWindow_apply hd, Cmd.bind_ok (readBits_of_offers (s := s.unseeded) hes h)]
  rfl

/-- Settles O54: the first `DMAX_BITS` of the bits seed the window, and the loop decodes the rest. -/
theorem decRunDecodesStream : Obligations.DecRunDecodesStream := by
  intro s ys ds T w h0 hd hs hdata hnum hacc hT hds h hdec
  obtain ⟨m, rfl⟩ := Nat.exists_eq_add_of_le hT
  obtain ⟨es, fs, rfl, hes, hfs⟩ := exists_readSplit hds
  rw [stuffed_append, Answers.offers_append] at h
  have hes' := length_readOf hes
  rw [readOf_append hes, List.take_left' hes', List.drop_left' hes'] at hdec
  have hlt := bitsVal_lt (s.readOf s.dmaxBits.toNat es)
  rw [hes'] at hlt
  have hwin := toNat_ofNat_window hs.maxBits hlt
  have hloop : decodeLoop ys.length (s.windowSeeded es) = .ok () ((s.windowSeeded es).decoded ys m fs w) := by
    refine decodeLoop_of_decodesTo (s := s.windowSeeded es) hs.maxBits (fun x hx hv => ?_) (hwin.trans_lt hlt) hnum hacc hfs
      h.2 ?_
    · exact (hdata.slotLen hd x hx hv).2.trans hs.maxBits
    · rw [State.windowSeeded]
      exact hwin.symm ▸ hdec
  have hrem : (s.windowSeeded es).remain.toNat = ys.length := hnum
  rw [exec_decRun h0, Cmd.bind_ok (seedWindow_of_offers hd hes h.1), Cmd.bind_ok (Cmd.get_apply _), hrem, hloop, finish_ok,
    ← readBitsOf_readBitsOf hes hfs]
  rfl

/-! ## `DEC_RUN` as `DEC_SEED` and `DEC_SYM` (R211, R344) -/

theorem Act.decSym_status {s t : State} (h : Act .decSym s t) : t.status = s.status := by
  cases h with
  | clearLengths h' | setLength _ _ h' | beginBuild h' | installCode h' | closeHeader h' | installHeader h' | partTable h'
  | wholeTable h' => cases h'
  | unseed h' | seed h' => rcases h' with h' | h' <;> cases h'
  | _ => rfl

/-- A decoded symbol leaves `STATUS` as it is (R210). -/
theorem decodeSymbol_status {s t : State} (h : decodeSymbol s = .ok () t) : t.status = s.status :=
  ((decodeSymbol_acts (.inl rfl)).of_ok h).keeps (P := fun u => u.status = s.status)
    (fun _ _ ha hu => ha.decSym_status.trans hu) rfl

/-- A seeded window counts from `NUM_SYM`, with no error (R209). -/
theorem seedWindow_ok {s t : State} (h : seedWindow s = .ok () t) :
    t.status.seeded = true ∧ t.status.err = s.status.err ∧ t.remain = s.numSym := by
  cases hd : s.status.decReady with
  | false =>
    rw [seedWindow, Cmd.bind_ok (Cmd.get_apply s), Cmd.bind_error (require_false s _ hd)] at h
    cases h
  | true =>
    rw [seedWindow_apply hd] at h
    obtain ⟨w, u, hread, h⟩ := Cmd.of_bind_ok h
    have hframe := (readBits_frame _).of_ok hread
    cases h
    rw [hframe]
    exact ⟨rfl, rfl, rfl⟩

/-- An outcome whose error, if it has one, is recorded with the opcode byte `op`. -/
def recordedBy (op : Byte) : Host.Outcome State Fault Refusal → Host.Outcome State Fault Refusal
  | .next t => .next (if t.status.err = 0 then t else { t with status := { t.status with errOp := op } })
  | other => other

theorem recordedBy_noError {op : Byte} {t : State} (h : t.status.err = 0) : recordedBy op (.next t) = .next t :=
  congrArg Host.Outcome.next (if_pos h)

theorem recordedBy_raise (op op' : Byte) (t : State) (e : Err) :
    recordedBy op (.next (t.raise e op')) = .next (t.raise e op) :=
  congrArg Host.Outcome.next (if_neg (t.raise_err_ne_zero e op'))

/-- In the error state each `DEC_SYM` is dropped (R300). -/
theorem decSymTimes_of_error (k : Nat) {t : State} (h : t.status.err ≠ 0) : decSymTimes k t = .next t := by
  induction k with
  | zero => rfl
  | succ k ih =>
    rw [decSymTimes, show exec .decSym t = .next t from runGated_dropped h]
    exact ih

/-- The loop of `DEC_RUN` is one `DEC_SYM` for each symbol left. -/
theorem finish_decodeLoop {n : Nat} {t : State} (op : Byte) (h0 : t.status.err = 0) (hs : t.status.seeded = true)
    (hn : t.remain.toNat = n) : finish op (decodeLoop n t) = recordedBy op (decSymTimes n t) := by
  induction n generalizing t with
  | zero => exact (recordedBy_noError h0).symm
  | succ n ih =>
    have hr : t.remain ≠ 0 := by bv_omega
    rw [decodeLoop_succ hr, decSymTimes, exec_decSym h0 hs hr, Cmd.bind_apply]
    rcases hdec : decodeSymbol t with ⟨⟨⟩, u⟩ | ⟨e | f, u⟩
    · have hstatus := decodeSymbol_status hdec
      have hrem := decodeSymbol_remain hdec
      exact ih (hstatus ▸ h0) (hstatus ▸ hs) (by bv_omega)
    · rw [finish_raised, finish_raised]
      dsimp only
      rw [decSymTimes_of_error n (u.raise_err_ne_zero e _), recordedBy_raise]
    · rfl

/-- Settles O55: the seeding is shared, and the loop is compared symbol by symbol; after an error each `DEC_SYM` is
dropped. -/
theorem decRunIsSeedThenSyms : Obligations.DecRunIsSeedThenSyms := by
  intro s h0
  rw [exec_decRun h0, exec_decSeed h0, Cmd.bind_apply]
  rcases hseed : seedWindow s with ⟨⟨⟩, t⟩ | ⟨e | f, t⟩
  · obtain ⟨hs, herr, hrem⟩ := seedWindow_ok hseed
    have hloop := finish_decodeLoop 0x35 (herr.trans h0) hs rfl
    rw [hrem] at hloop
    dsimp only
    rw [Cmd.bind_ok (Cmd.get_apply t), hrem, hloop]
    rfl
  · have hdrop := recordedBy_raise 0x35 0x33 t e
    rw [finish_raised, ← hdrop, ← decSymTimes_of_error s.numSym.toNat (t.raise_err_ne_zero e _)]
    rfl
  · rfl

end Sys2Proof.Machine

/-! SUPPORT. `DEC_HDR` (42_decoder.md R204, R205): a good header, a bad one, and one that ends early. -/

namespace Sys2Proof.Machine

/-! ## Several bytes of BIN, in parts -/

theorem rawInMany_add (m n : Nat) (s : State) : rawInMany (m + n) s = (do
    let bs ← rawInMany m
    let cs ← rawInMany n
    pure (bs ++ cs)) s := by
  induction m generalizing s with
  | zero =>
    rw [Nat.zero_add, rawInMany, Cmd.bind_ok (Cmd.pure_apply s []), Cmd.bind_apply]
    cases rawInMany n s <;> rfl
  | succ m ih =>
    rw [Nat.add_right_comm, rawInMany, rawInMany, Cmd.bind_apply, Cmd.bind_apply, Cmd.bind_apply]
    cases rawIn s with
    | error r t => rfl
    | ok b t =>
      dsimp only
      rw [Cmd.bind_apply, ih, Cmd.bind_apply, Cmd.bind_apply]
      cases rawInMany m t with
      | error r u => rfl
      | ok bs u =>
        dsimp only [Cmd.pure_apply]
        rw [Cmd.bind_apply, Cmd.bind_apply]
        cases rawInMany n u <;> rfl

/-- End-of-stream before the last byte is an error, with the bytes before it consumed. -/
theorem rawInMany_of_ends {bs : List Byte} {n : Nat} {s : State} (hn : bs.length < n) (h : s.bin.OffersThenEnds bs) :
    rawInMany n s = .error (.raised .ioRead) (s.tookToEnd bs.length) := by
  obtain ⟨k, rfl⟩ := Nat.exists_eq_add_of_lt hn
  have hend : rawIn (s.took bs.length) = .error (.raised .ioRead) ((s.took bs.length).tookToEnd 0) :=
    rawIn_of_ends ((Answers.offersThenEnds_append _ bs []).1 (by rwa [List.append_nil])).2
  rw [Nat.add_assoc, rawInMany_add, Cmd.bind_ok (rawInMany_of_offers h.1), rawInMany, Cmd.bind_error (Cmd.bind_error hend),
    State.took_tookToEnd]
  rfl

/-! ## The fields of the fixed bytes (R204, R205) -/

theorem hdrSegLen_eq (h : List Byte) : hdrSegLen h = (h.getD 2 0).toNat * 256 + (h.getD 3 0).toNat := by
  rw [hdrSegLen, BitVec.toNat_append, ← Nat.shiftLeft_add_eq_or_of_lt (BitVec.isLt _), Nat.shiftLeft_eq]
  rfl

theorem hdrCounts_eq_drop {h : List Byte} (hlen : h.length = 21) : hdrCounts h = h.drop 5 := by
  refine List.ext_getElem (by rw [hdrCounts, List.length_map, List.length_drop, hlen]; rfl) fun i h1 h2 => ?_
  have hi : 5 + i < h.length := by rw [List.length_drop] at h2; omega
  simp only [hdrCounts, lenClasses, List.getElem_map, List.getElem_range', Nat.one_mul, List.getElem_drop]
  rw [hdrByte, show 4 + (1 + i) = 5 + i by omega, List.getD_eq_getElem _ _ hi]

/-- The trailing count is read as it is written (R164, R205). -/
theorem wordBE_bytes (n : BitVec 32) : wordBE ([24, 16, 8, 0].map fun k => BitVec.ofNat 8 (n.toNat / 2 ^ k)) = n := by
  have hbyte : ∀ k, BitVec.ofNat 8 (n.toNat / 2 ^ k) = n.extractLsb' k 8 := fun k => by
    rw [BitVec.extractLsb', Nat.shiftRight_eq_div_pow]
  simp only [hbyte, List.map_cons, List.map_nil]
  change n.extractLsb' 24 8 ++ n.extractLsb' 16 8 ++ n.extractLsb' 8 8 ++ n.extractLsb' 0 8 = n
  rw [BitVec.extractLsb'_append_extractLsb'_eq_extractLsb' (by decide),
    BitVec.extractLsb'_append_extractLsb'_eq_extractLsb' (by decide),
    BitVec.extractLsb'_append_extractLsb'_eq_extractLsb' (by decide)]
  exact BitVec.extractLsb'_eq_self

/-! ## The reading of a header (R204, R205) -/

theorem exec_decHdr {s : State} (h0 : s.status.err = 0) (hr : s.rcnt = 0) :
    exec .decHdr s = finish 0x31 (readHeader s.headerClosed) :=
  (runGated_require_pass h0 (decide_eq_true hr)).trans (congrArg (finish 0x31) (Cmd.bind_ok (Cmd.set_apply _ _)))

section
variable {s : State} {h : List Byte} (hlen : h.length = 21) (hoff : s.bin.Offers h)
include hlen hoff

theorem readHeader_bad {e : Err} (he : hdrError h = some e) : readHeader s = .error (.raised e) (s.took 21) := by
  have hread := rawInMany_of_offers hoff
  rw [hlen] at hread
  refine (Cmd.bind_ok hread).trans ?_
  rw [he]
  rfl

theorem readHeader_good (he : hdrError h = none) : readHeader s = readTail h (s.took 21) := by
  have hread := rawInMany_of_offers hoff
  rw [hlen] at hread
  refine (Cmd.bind_ok hread).trans ?_
  rw [he]

end

section
variable {s : State} {h : List Byte}

theorem readTail_of_offers {syms cs : List Byte} (htot : hdrTotal h = syms.length) (hcs : cs.length = 4)
    (hoff : s.bin.Offers (syms ++ cs)) :
    readTail h s = .ok () (installHeader h syms cs (s.took (syms.length + 4))) := by
  rw [Answers.offers_append] at hoff
  have hcount := rawInMany_of_offers (s := s.took syms.length) hoff.2
  rw [hcs, State.took_took] at hcount
  rw [readTail, htot, Cmd.bind_ok (rawInMany_of_offers hoff.1), Config.countBytes, Cmd.bind_ok hcount, Cmd.modify_apply]

/-- The tail stops where a read of all its bytes does. -/
theorem readTail_error {r : Stop} {u : State} (hread : rawInMany (hdrTotal h + 4) s = .error r u) :
    readTail h s = .error r u := by
  rw [rawInMany_add] at hread
  rw [readTail, Config.countBytes]
  cases hy : rawInMany (hdrTotal h) s with
  | error r' t =>
    rw [Cmd.bind_error hy] at hread ⊢
    cases hread
    rfl
  | ok y t =>
    rw [Cmd.bind_ok hy] at hread ⊢
    cases hc : rawInMany 4 t with
    | error r' v =>
      rw [Cmd.bind_error hc] at hread ⊢
      cases hread
      rfl
    | ok c v =>
      rw [Cmd.bind_ok hc] at hread
      cases hread

end

section
variable {s : State} {counts syms : List Byte} (n : BitVec 32) (hc : counts.length = 16)
  (hs : (counts.map BitVec.toNat).sum = syms.length) (hle : syms.length ≤ 256)
include hc

theorem length_fixedHeader (k : Nat) : (fixedHeader counts k).length = 21 := by
  rw [fixedHeader, List.length_append, hc]
  rfl

include hs

theorem hdrTotal_fixedHeader : hdrTotal (fixedHeader counts syms.length) = syms.length := by
  rw [hdrTotal, hdrCounts_fixedHeader hc, hs]

include hle

/-- A good header is installed (R205). -/
theorem readHeader_of_offers (hoff : s.bin.Offers (headerOf counts syms n)) :
    readHeader s = .ok () (installHeader (fixedHeader counts syms.length) syms
      ([24, 16, 8, 0].map fun k => BitVec.ofNat 8 (n.toNat / 2 ^ k)) (s.took (25 + syms.length))) := by
  have h21 := length_fixedHeader hc syms.length
  rw [headerOf_eq_append, Answers.offers_append, h21] at hoff
  rw [readHeader_good h21 hoff.1 (hdrError_fixedHeader hc hs hle),
    readTail_of_offers (s := s.took 21) (hdrTotal_fixedHeader hc hs) rfl hoff.2, State.took_took,
    show 21 + (syms.length + 4) = 25 + syms.length by omega]

/-- A good header that ends early: in its fixed bytes, or after them (R205, R345). -/
theorem readHeader_of_ends {k : Nat} (hk : k < 25 + syms.length)
    (hends : s.bin.OffersThenEnds ((headerOf counts syms n).take k)) :
    readHeader s = .error (.raised .ioRead) (s.tookToEnd k) := by
  have h21 := length_fixedHeader hc syms.length
  have htot := hdrTotal_fixedHeader hc hs
  have hlen : ((headerOf counts syms n).take k).length = k := by
    rw [List.length_take_of_le]
    rw [headerOf_eq_append]
    simp only [List.length_append, h21, List.length_map, List.length_cons, List.length_nil]
    omega
  by_cases hlt : k < 21
  · have hread := rawInMany_of_ends (hlen.trans_lt hlt) hends
    rw [hlen] at hread
    exact Cmd.bind_error hread
  · obtain ⟨j, rfl⟩ := Nat.exists_eq_add_of_le (Nat.le_of_not_lt hlt)
    rw [headerOf_eq_append, ← h21, List.take_length_add_append, h21, List.length_append, h21] at hlen
    rw [headerOf_eq_append, ← h21, List.take_length_add_append, Answers.offersThenEnds_append, h21] at hends
    have hread := rawInMany_of_ends (s := s.took 21) (n := hdrTotal (fixedHeader counts syms.length) + 4) (by omega) hends.2
    rw [readHeader_good h21 hends.1 (hdrError_fixedHeader hc hs hle), readTail_error hread, State.took_tookToEnd, hlen]

end

/-! ## `DEC_HDR` -/

/-- Settles O46: each field installed is read off the header's bytes. -/
theorem decHdrParsesHeader : Obligations.DecHdrParsesHeader := by
  intro s counts syms n h0 hr hc hs hle hoff
  have hread := readHeader_of_offers (s := s.headerClosed) n hc hs hle hoff
  refine ⟨_, by rw [exec_decHdr h0 hr, hread, finish_ok], fun L h1 h16 => ?_, fun k hk => ?_, fun k hk => ?_, ?_,
    wordBE_bytes n, rfl⟩
  · rw [installHeader_dcpl, hdrCounts_fixedHeader hc, Table.get_setMany, if_pos ⟨h1, by omega⟩]
  · rw [installHeader_dsyms, Table.get_setMany, if_pos ⟨k.zero_le, by omega⟩, Nat.sub_zero]
  · rw [installHeader_dsyms, Table.get_setMany, if_neg (by omega)]
    rfl
  · rw [installHeader_dnsym, hdrTotal_fixedHeader hc hs, BitVec.toNat_ofNat, Nat.mod_eq_of_lt (by omega)]

/-- Settles O47: the checks of R204 are made in this order, once the 21 bytes are read. -/
theorem decHdrRejectsInOrder : Obligations.DecHdrRejectsInOrder := by
  intro s h h0 hr hlen hoff
  have hbad : ∀ e, hdrError h = some e → exec .decHdr s = .next ((s.headerClosed.took 21).failed e.code 0x31) := by
    intro e he
    rw [exec_decHdr h0 hr, readHeader_bad (s := s.headerClosed) hlen hoff he]
    rfl
  have hseg := hdrSegLen_eq h
  have htot : hdrTotal h = ((h.drop 5).map BitVec.toNat).sum := by rw [hdrTotal, hdrCounts_eq_drop hlen]
  dsimp only
  rw [← hseg, ← htot]
  refine ⟨fun hm => hbad .badMarker ?_, fun hm hl => hbad .badLength ?_, fun hm hl hu hz => hbad .badClass ?_,
    fun hm hl hu hz hcount => hbad .countMismatch ?_⟩
  · exact if_pos hm
  · exact (if_neg (not_not.2 hm)).trans (if_pos hl)
  · exact (if_neg (not_not.2 hm)).trans <| (if_neg (not_not.2 ⟨hl, hu⟩)).trans <| if_pos hz
  · exact (if_neg (not_not.2 hm)).trans <| (if_neg (not_not.2 ⟨hl, hu⟩)).trans <| (if_neg (not_not.2 hz)).trans <|
      if_pos hcount

/-- Settles O48: the check of the reader comes first, and a short header stops in `RawIn`. -/
theorem decHdrShortOrMisaligned : Obligations.DecHdrShortOrMisaligned := by
  intro s h0
  refine ⟨fun hr => runGated_require_fail h0 (decide_eq_false hr), fun bs hr hlen hends => ?_,
    fun counts syms n k hr hc hs hle hk hends => ?_⟩
  · have hread : readHeader s.headerClosed = .error (.raised .ioRead) (s.headerClosed.tookToEnd bs.length) :=
      Cmd.bind_error (rawInMany_of_ends (s := s.headerClosed) hlen hends)
    rw [exec_decHdr h0 hr, hread]
    rfl
  · rw [exec_decHdr h0 hr, readHeader_of_ends (s := s.headerClosed) n hc hs hle hk hends]
    rfl

end Sys2Proof.Machine

/-! SUPPORT. `DEC_BUILD` (42_decoder.md R206 to R208): a fill that reaches the last symbol, and one that stops before it. -/

namespace Sys2Proof.Machine

theorem buildTable_cur_le (dcpl dsyms : Table Byte) (old : Table DtEntry) :
    (buildTable dcpl dsyms old).acc.cur ≤ 2 ^ greatestClass dcpl :=
  fillClasses_keeps (P := fun a => a.cur ≤ 2 ^ greatestClass dcpl) (fun _ _ _ _ hc _ => hc) (Nat.zero_le _)

/-- Settles O49: with room for every symbol the fill reaches the last one, and the cursor is the Kraft sum. -/
theorem decBuildFillsTable : Obligations.DecBuildFillsTable := by
  intro s M h0 hv hM hkraft
  obtain rfl := hM.unique (isMaxBits_greatestClass s.dcpl)
  obtain ⟨hok, hfilled⟩ := buildTable_filled s.dsyms s.dt hkraft
  have hcur := hfilled.cur
  rw [slotStart_of_length_le le_rfl] at hcur
  refine ⟨_, exec_decBuild_ok h0 hv hok, hfilled.table, ?_⟩
  rw [← hcur]
  rfl

theorem exec_decBuild_overlap {s : State} (h0 : s.status.err = 0) (hv : s.status.hdrValid = true)
    (hover : (buildTable s.dcpl s.dsyms s.dt).overlap = true) :
    exec .decBuild s = .next ((installTable s).failed 13 0x32) := by
  refine (runGated_require_pass (c := fun s => s.status.hdrValid) h0 hv).trans ?_
  dsimp only
  rw [Cmd.bind_ok (Cmd.set_apply _ _), hover]
  rfl

/-- Settles O50: the cursor never passes `2^M`, so a fill that reached the last symbol would keep the Kraft inequality. -/
theorem decBuildOverlapStops : Obligations.DecBuildOverlapStops := by
  intro s M h0 hv hM hkraft
  obtain rfl := hM.unique (isMaxBits_greatestClass s.dcpl)
  have hle := buildTable_cur_le s.dcpl s.dsyms s.dt
  obtain ⟨-, hfilled⟩ | ⟨hover, n, hn, hfilled, hpass⟩ := buildTable_ends s.dcpl s.dsyms s.dt
  · rw [hfilled.cur, slotStart_of_length_le le_rfl] at hle
    omega
  · refine ⟨_, n, exec_decBuild_overlap h0 hv hover, hn, hfilled.cur ▸ hle, hpass, hfilled.table, ?_⟩
    rw [← hfilled.cur]
    rfl

end Sys2Proof.Machine

/-! SUPPORT. Encoder and decoder together (42_decoder.md R212, R213): the code bits of symbols decode to these symbols, and
so does a whole file (48_host_reference.md R282). -/

namespace Sys2Proof.Machine

/-! ## Bits as numbers -/

theorem bitsVal_cons (b : Bool) (bs : List Bool) : bitsVal (b :: bs) = b.toNat * 2 ^ bs.length + bitsVal bs := by
  rw [← List.singleton_append, bitsVal_append, bitsVal_singleton]

theorem bitsVal_inj {bs cs : List Bool} (hlen : bs.length = cs.length) (h : bitsVal bs = bitsVal cs) : bs = cs := by
  induction bs generalizing cs with
  | nil => exact (List.eq_nil_of_length_eq_zero hlen.symm).symm
  | cons b bs ih =>
    obtain ⟨c, cs, rfl⟩ := List.exists_cons_of_length_eq_add_one hlen.symm
    have hlen' : bs.length = cs.length := Nat.succ.inj hlen
    have hb := bitsVal_lt bs
    have hc := bitsVal_lt cs
    rw [bitsVal_cons, bitsVal_cons, ← hlen'] at h
    rw [← hlen'] at hc
    obtain rfl : b = c := by cases b <;> cases c <;> simp at h ⊢ <;> omega
    rw [ih hlen' (Nat.add_left_cancel h)]

/-- Bits that make whole bytes are the bits of these bytes (R153). -/
theorem streamBits_dataBytes {bs : List Bool} (h : bs.length % 8 = 0) : streamBits (dataBytes bs) = bs := by
  induction hn : bs.length / 8 generalizing bs with
  | zero =>
    obtain rfl := List.eq_nil_of_length_eq_zero (l := bs) (by omega)
    rfl
  | succ n ih =>
    have h8 : (bs.take 8).length = 8 := List.length_take_of_le (by omega)
    have hval := bitsVal_lt (bs.take 8)
    rw [h8] at hval
    have hfirst : bitsOf (BitVec.ofNat 8 (bitsVal (bs.take 8))) 8 = bs.take 8 := by
      refine bitsVal_inj (by rw [length_bitsOf, h8]) ?_
      rw [bitsVal_bitsOf, BitVec.toNat_ofNat, Nat.mod_mod, Nat.mod_eq_of_lt hval]
    have hrest := ih (bs := bs.drop 8) (by rw [List.length_drop]; omega) (by rw [List.length_drop]; omega)
    conv_lhs => rw [← List.take_append_drop 8 bs, ← hfirst, dataBytes_bitsOf_append]
    rw [streamBits, List.flatMap_cons, ← streamBits, hfirst, hrest, List.take_append_drop]

/-! ## The window over a stream of bits (R210, R212) -/

theorem nextWindow_take {M L : Nat} {bs : List Bool} (h : M + L ≤ bs.length) :
    nextWindow M (bitsVal (bs.take M)) ((bs.drop M).take L) = bitsVal ((bs.drop L).take M) := by
  have hlen : ((bs.drop M).take L).length = L := by rw [List.length_take, List.length_drop]; omega
  have hlen' : ((bs.drop L).take M).length = M := by rw [List.length_take, List.length_drop]; omega
  have hval : bitsVal (bs.take M) * 2 ^ L + bitsVal ((bs.drop M).take L) =
      bitsVal (bs.take L) * 2 ^ M + bitsVal ((bs.drop L).take M) := by
    have hsplit := congrArg bitsVal (List.take_add (l := bs) (i := M) (j := L))
    rw [Nat.add_comm, List.take_add, bitsVal_append, bitsVal_append, hlen, hlen'] at hsplit
    exact hsplit.symm
  have hlt := bitsVal_lt ((bs.drop L).take M)
  rw [hlen'] at hlt
  rw [nextWindow, hlen, hval, Nat.mul_add_mod_self_right, Nat.mod_eq_of_lt hlt]

/-- Further symbols decode after a symbol that the window's slot gives. -/
theorem DecodesTo.cons {dt : Table DtEntry} {M w w' : Nat} {len : BitVec 5} {y : Byte} {ys : List Byte} {bs : List Bool}
    (hne : ys ≠ []) (hget : dt.get .unfilled w = ⟨true, len, y⟩) (hle : len.toNat ≤ bs.length)
    (h : DecodesTo dt M ys (nextWindow M w (bs.take len.toNat)) (bs.drop len.toNat) w') :
    DecodesTo dt M (y :: ys) w bs w' := by
  obtain ⟨z, zs, rfl⟩ := List.exists_cons_of_ne_nil hne
  simp only [DecodesTo, hget]
  exact ⟨trivial, trivial, hle, h⟩

/-- The length of a symbol's code as a number (R38). -/
def codeLen (clen : Table (BitVec 5)) (x : Byte) : Nat := (clen.get 0 x.toNat).toNat

section
variable {code : Table (BitVec 16)} {clen : Table (BitVec 5)}

theorem length_codeBits (x : Byte) : (codeBits code clen x).length = codeLen clen x := length_bitsOf ..

theorem length_flatMap_codeBits (xs : List Byte) :
    (xs.flatMap (codeBits code clen)).length = (xs.map (codeLen clen)).sum := by
  rw [List.length_flatMap]
  simp only [length_codeBits]

/-- A window that begins with a symbol's code addresses a slot of this symbol (R157 (c)). -/
theorem window_div_of_code (hfits : CodeFits code clen) {M : Nat} {x : Byte} (hx : codeLen clen x ≤ M) {rest : List Bool}
    (hlen : M ≤ codeLen clen x + rest.length) :
    bitsVal ((codeBits code clen x ++ rest).take M) / 2 ^ (M - codeLen clen x) = (code.get 0 x.toNat).toNat := by
  have hrest : (rest.take (M - codeLen clen x)).length = M - codeLen clen x := List.length_take_of_le (by omega)
  have hlt := bitsVal_lt (rest.take (M - codeLen clen x))
  rw [hrest] at hlt
  have hcode : bitsVal (codeBits code clen x) = (code.get 0 x.toNat).toNat := by
    rw [codeBits, bitsVal_bitsOf, Nat.mod_eq_of_lt (hfits x).2]
  rw [List.take_append, length_codeBits, List.take_of_length_le (by rwa [length_codeBits]), bitsVal_append, hrest, hcode,
    Nat.mul_comm, Nat.mul_add_div (Nat.two_pow_pos _), Nat.div_eq_of_lt hlt, Nat.add_zero]

/-- The slots whose top bits are a symbol's code give the symbol: what a decode table does that inverts a code (R213). -/
def InvertsCode (dt : Table DtEntry) (M : Nat) (code : Table (BitVec 16)) (clen : Table (BitVec 5)) : Prop :=
  ∀ x : Byte, clen.get 0 x.toNat ≠ 0 → codeLen clen x ≤ M ∧ ∀ slot,
    slot / 2 ^ (M - codeLen clen x) = (code.get 0 x.toNat).toNat →
      dt.get .unfilled slot = ⟨true, clen.get 0 x.toNat, x⟩

theorem decodesTo_of_codes (hfits : CodeFits code clen) {dt : Table DtEntry} {M : Nat} (hdt : InvertsCode dt M code clen)
    {xs : List Byte} {x : Byte} {pad bits : List Bool} (hc : ∀ y ∈ xs ++ [x], clen.get 0 y.toNat ≠ 0)
    (hpad : M ≤ pad.length + codeLen clen x) (hbits : bits = (xs ++ [x]).flatMap (codeBits code clen) ++ pad) :
    ∃ w, DecodesTo dt M (xs ++ [x]) (bitsVal (bits.take M)) ((bits.drop M).take (xs.map (codeLen clen)).sum) w := by
  induction xs generalizing bits with
  | nil =>
    obtain ⟨hx, hslot⟩ := hdt x (hc x (List.mem_singleton.2 rfl))
    have hget := hslot _ (window_div_of_code hfits hx (rest := pad) (by omega))
    rw [List.nil_append, List.flatMap_singleton] at hbits
    rw [← hbits] at hget
    refine ⟨_, ?_, ?_, rfl, rfl⟩ <;> rw [hget]
  | cons y ys ih =>
    obtain ⟨hy, hslot⟩ := hdt y (hc y List.mem_cons_self)
    obtain ⟨w, hrest⟩ := ih (fun z hz => hc z (List.mem_cons_of_mem y hz)) rfl
    generalize htail : (ys ++ [x]).flatMap (codeBits code clen) ++ pad = tail at hrest
    have hlen : tail.length = (ys.map (codeLen clen)).sum + codeLen clen x + pad.length := by
      rw [← htail, List.length_append, length_flatMap_codeBits]
      simp
    rw [List.cons_append, List.flatMap_cons, List.append_assoc, htail] at hbits
    have hget := hslot _ (window_div_of_code hfits hy (rest := tail) (by omega))
    rw [← hbits] at hget
    have hblen : bits.length = codeLen clen y + tail.length := by rw [hbits, List.length_append, length_codeBits]
    refine ⟨w, DecodesTo.cons (by simp) hget ?_ ?_⟩
    · change codeLen clen y ≤ _
      rw [List.map_cons, List.sum_cons, List.length_take, List.length_drop]
      omega
    · change DecodesTo dt M _ (nextWindow M _ (List.take (codeLen clen y) _)) (List.drop (codeLen clen y) _) w
      have hdrop : bits.drop (codeLen clen y) = tail := by rw [hbits, List.drop_left' (length_codeBits y)]
      rw [List.map_cons, List.sum_cons, List.take_take, Nat.min_eq_left (Nat.le_add_right _ _), nextWindow_take (by omega),
        List.drop_take, Nat.add_sub_cancel_left, List.drop_drop, Nat.add_comm M, ← List.drop_drop, hdrop]
      exact hrest

end

/-- The decode table of a built code's header inverts the code (R213). -/
theorem invertsCode_of_build {s t u v : State} (h0 : s.status.err = 0) (ht : exec .encBuild s = .next t)
    (herr : t.status.err = 0) (hheader : HoldsHeaderOf u t) (hv : exec .decBuild u = .next v) :
    InvertsCode v.dt t.maxBits.toNat t.code t.clen ∧ CodeFits t.code t.clen := by
  obtain ⟨v', hv', -, -, -, hslots⟩ := decodeTableInvertsCode s t u h0 ht herr hheader
  obtain rfl : v' = v := Host.Outcome.next.inj (hv'.symm.trans hv)
  obtain ⟨r, hr, rfl⟩ := exec_encBuild_next h0 ht herr
  refine ⟨fun x hx => ⟨?_, fun slot => (hslots x hx slot).2⟩, (canon_tables hr).fits⟩
  have hcoded := coded_of_clen hr hx
  rw [installCode_maxBits_toNat hr, codeLen, installCode_clen, ((canon_codes hr x).1 hcoded).1]
  exact (canon_greatest hr).2.1 x hcoded

/-- Settles O57, by induction on the symbols: each window begins with the code of the next one. -/
theorem decodeInvertsEncode : Obligations.DecodeInvertsEncode := by
  intro s t u v h0 ht herr hheader hv xs x pad hc hpad
  obtain ⟨hdt, hfits⟩ := invertsCode_of_build h0 ht herr hheader hv
  exact decodesTo_of_codes hfits hdt hc hpad rfl

/-! ## The invariants over one command -/

theorem exec_keeps_specInv {i : Instr} {s t : State} (hs : s.SpecInv) (h : exec i s = .next t) : t.SpecInv :=
  (exec_ends h).keeps (fun _ _ ha => ha.keeps_specInv) (fun _ _ hs => { hs with }) (fun _ _ hs => { hs with })
    (fun _ _ _ => { specInv_reset with }) hs

theorem exec_keeps_dataInv {i : Instr} {s t : State} (hs : s.DataInv) (h : exec i s = .next t) : t.DataInv :=
  (exec_ends h).keeps (fun _ _ ha => ha.keeps_dataInv) (fun _ e hs => hs.raise e _)
    (fun _ _ hs => { hs with
      errCode := Nat.zero_le _
      errOp := fun _ => rfl })
    (fun _ _ _ => { dataInv_reset with }) hs

/-! ## The header of the encoder, read back (R213) -/

/-- The counts, as the header has them. -/
def headerCounts (t : State) : List Byte := lenClasses.map fun L => (t.cpl.get 0 L).setWidth 8

/-- The symbols, as the header has them. -/
def headerSyms (t : State) : List Byte := (List.range t.nsym.toNat).map fun k => t.symlist.get 0 k

theorem headerBytes_eq_headerOf (t : State) : headerBytes t = headerOf (headerCounts t) (headerSyms t) t.encCnt := by
  have hlen : (headerSyms t).length = t.nsym.toNat := by rw [headerSyms, List.length_map, List.length_range]
  rw [headerOf, hlen]
  rfl

theorem getD_map_lenClasses (f : Nat → Byte) {L : Nat} (h1 : 1 ≤ L) (h16 : L ≤ 16) :
    (lenClasses.map f).getD (L - 1) 0 = f L := by
  have hget : lenClasses[L - 1]? = some L := by
    rw [lenClasses, Config.numLenClasses, List.getElem?_range' (by omega)]
    congr 1
    omega
  rw [List.getD_eq_getElem?_getD, List.getElem?_map, hget]
  rfl

/-- A block that is offered a built code's header holds that header after `DEC_HDR`, and has read nothing else. -/
theorem exec_decHdr_of_headerBytes {t u : State} (hsum : classSum t.cpl = t.nsym.toNat) (hn : t.nsym.toNat ≤ 256)
    (hcounts : ∀ L, 1 ≤ L → L ≤ 16 → (t.cpl.get 0 L).toNat ≤ 255) (h0 : u.status.err = 0) (hr : u.rcnt = 0)
    (hoff : u.bin.Offers (headerBytes t)) :
    ∃ v, exec .decHdr u = .next v ∧ HoldsHeaderOf v t ∧ v.numSym = t.encCnt ∧ v.rcnt = 0 ∧
      v.bin = u.bin.skip (headerBytes t).length ∧ v.soutHost = u.soutHost ∧ v.sout = u.sout := by
  have hlen : (headerSyms t).length = t.nsym.toNat := by rw [headerSyms, List.length_map, List.length_range]
  have hcnt : ∀ L, L ∈ lenClasses → ((t.cpl.get 0 L).setWidth 8).toNat = (t.cpl.get 0 L).toNat := fun L hL => by
    obtain ⟨h1, h16⟩ := (mem_lenClasses L).1 hL
    have := hcounts L h1 h16
    rw [BitVec.toNat_setWidth, Nat.mod_eq_of_lt (by omega)]
  have hc : (headerCounts t).length = 16 := by rw [headerCounts, List.length_map]; rfl
  have hs : ((headerCounts t).map BitVec.toNat).sum = (headerSyms t).length := by
    rw [hlen, ← hsum, headerCounts, List.map_map, classSum]
    exact congrArg List.sum (List.map_congr_left hcnt)
  have hbytes : (headerBytes t).length = 25 + (headerSyms t).length := by
    rw [headerBytes_eq_headerOf, headerOf_eq_append]
    simp only [List.length_append, length_fixedHeader hc, List.length_map, List.length_cons, List.length_nil]
    omega
  rw [headerBytes_eq_headerOf] at hoff
  obtain ⟨v, hv, hdcpl, hdsyms, -, -, hnum, hrest⟩ :=
    decHdrParsesHeader u (headerCounts t) (headerSyms t) t.encCnt h0 hr hc hs (by omega) hoff
  refine ⟨v, hv, ⟨?_, ?_, fun L h1 h16 => ?_, fun k hk => ?_⟩, hnum, ?_, ?_, ?_, ?_⟩
  · rw [hrest]
    exact h0
  · rw [hrest]
  · rw [hdcpl L h1 h16, headerCounts, getD_map_lenClasses _ h1 h16, hcnt L ((mem_lenClasses L).2 ⟨h1, h16⟩)]
  · rw [hdsyms k (by omega), headerSyms, List.getD_eq_getElem?_getD, List.getElem?_map, List.getElem?_range hk]
    rfl
  · rw [hrest]
    exact hr
  · rw [hrest, hbytes]
    rfl
  · rw [hrest]
    rfl
  · rw [hrest]
    rfl

/-- A `DEC_BUILD` that leaves no error built the table. -/
theorem exec_decBuild_next {s t : State} (h0 : s.status.err = 0) (h : exec .decBuild s = .next t)
    (ht : t.status.err = 0) : t = s.tableBuilt := by
  cases hv : s.status.hdrValid with
  | false =>
    have hfail : exec .decBuild s = .next (s.failed 2 0x32) :=
      runGated_require_fail (c := fun s => s.status.hdrValid) h0 hv
    cases hfail.symm.trans h
    cases ht
  | true =>
    cases hover : (buildTable s.dcpl s.dsyms s.dt).overlap with
    | false => exact Host.Outcome.next.inj (h.symm.trans (exec_decBuild_ok h0 hv hover))
    | true =>
      cases (exec_decBuild_overlap h0 hv hover).symm.trans h
      cases ht

/-! ## The payload as a stream (R153, R212) -/

theorem streamBits_paddedBytes (bs : List Bool) :
    streamBits (paddedBytes bs) = bs ++ List.replicate ((8 - bs.length % 8) % 8) true := by
  refine streamBits_dataBytes ?_
  rw [List.length_append, List.length_replicate]
  omega

section
variable {s : State} (h0 : s.status.err = 0) (hd : s.status.decReady = true) (hs : s.SpecInv) (hdata : s.DataInv)
  (hr : s.rcnt = 0)
include h0 hd hs hdata hr

/-- Data bytes that begin with enough bits decode: the decoder reads only those that it needs. -/
theorem exec_decRun_of_stream {ys ds : List Byte} {n w : Nat} (hnum : s.numSym.toNat = ys.length)
    (hacc : s.soutHost.AcceptsSymbols ys.length) (hlen : s.dmaxBits.toNat + n ≤ (streamBits ds).length)
    (h : s.bin.Offers (stuffed ds))
    (hdec : DecodesTo s.dt s.dmaxBits.toNat ys (bitsVal ((streamBits ds).take s.dmaxBits.toNat))
      (((streamBits ds).drop s.dmaxBits.toNat).take n) w) :
    ∃ v, exec .decRun s = .next v ∧ v.status.err = 0 ∧ v.remain = 0 ∧ v.sout = s.sout ++ ys ∧ v.dcpl = s.dcpl ∧
      v.dsyms = s.dsyms := by
  have hneed : s.dataNeeded (s.dmaxBits.toNat + n) ≤ ds.length := by
    rw [length_streamBits] at hlen
    rw [State.dataNeeded]
    omega
  obtain ⟨es, fs, rfl, hes⟩ : ∃ es fs, ds = es ++ fs ∧ es.length = s.dataNeeded (s.dmaxBits.toNat + n) :=
    ⟨_, _, (List.take_append_drop _ ds).symm, List.length_take_of_le hneed⟩
  have hbuf : s.bufferedBits = [] := by rw [State.bufferedBits, hr]; rfl
  have hread : s.readOf (s.dmaxBits.toNat + n) es = (streamBits (es ++ fs)).take (s.dmaxBits.toNat + n) := by
    have hle := length_readOf hes
    rw [State.readOf, hbuf, List.nil_append, List.length_take] at hle
    rw [State.readOf, hbuf, List.nil_append, streamBits_append, List.take_append_of_le_length (by omega)]
  rw [stuffed_append, Answers.offers_append] at h
  have hle := Nat.le_add_right s.dmaxBits.toNat n
  refine ⟨_, decRunDecodesStream s ys es _ w h0 hd hs hdata hnum hacc hle hes h.1 ?_, h0, rfl, rfl, rfl, rfl⟩
  rw [hread, List.take_take, Nat.min_eq_left hle, List.drop_take, Nat.add_sub_cancel_left]
  exact hdec

/-- A payload decodes through a table that inverts its code, with the bytes after it as lookahead (R212). -/
theorem exec_decRun_of_payload {code : Table (BitVec 16)} {clen : Table (BitVec 5)} {xs extra : List Byte} {x : Byte}
    (hfits : CodeFits code clen) (hdt : InvertsCode s.dt s.dmaxBits.toNat code clen)
    (hc : ∀ y ∈ xs ++ [x], clen.get 0 y.toNat ≠ 0) (hnum : s.numSym.toNat = xs.length + 1)
    (hacc : s.soutHost.AcceptsSymbols (xs.length + 1))
    (h : s.bin.Offers (stuffed (paddedBytes ((xs ++ [x]).flatMap (codeBits code clen)) ++ extra)))
    (hlook : s.dmaxBits.toNat ≤ codeLen clen x +
      (8 - ((xs ++ [x]).flatMap (codeBits code clen)).length % 8) % 8 + 8 * extra.length) :
    ∃ v, exec .decRun s = .next v ∧ v.status.err = 0 ∧ v.remain = 0 ∧ v.sout = s.sout ++ (xs ++ [x]) ∧
      v.dcpl = s.dcpl ∧ v.dsyms = s.dsyms := by
  have hlen := length_flatMap_codeBits (code := code) (clen := clen) (xs ++ [x])
  rw [List.map_append, List.sum_append, List.map_singleton, List.sum_singleton] at hlen
  generalize hbits : (xs ++ [x]).flatMap (codeBits code clen) = bits at h hlook hlen
  have hstream := streamBits_append (paddedBytes bits) extra
  rw [streamBits_paddedBytes, List.append_assoc] at hstream
  generalize htail : List.replicate ((8 - bits.length % 8) % 8) true ++ streamBits extra = pad at hstream
  have hpad : pad.length = (8 - bits.length % 8) % 8 + 8 * extra.length := by
    rw [← htail, List.length_append, List.length_replicate, length_streamBits]
  obtain ⟨w, hdec⟩ := decodesTo_of_codes hfits hdt hc (by omega) (congrArg (· ++ pad) hbits.symm)
  rw [← hstream] at hdec
  rw [← List.length_singleton (a := x), ← List.length_append] at hnum hacc
  exact exec_decRun_of_stream h0 hd hs hdata hr hnum hacc (by rw [hstream, List.length_append]; omega) h hdec

end

/-- The header of a built code has one entry for each symbol, at most 256 (R54). -/
theorem nsym_of_build {s t : State} (h0 : s.status.err = 0) (ht : exec .encBuild s = .next t) (herr : t.status.err = 0) :
    classSum t.cpl = t.nsym.toNat ∧ t.nsym.toNat ≤ 256 := by
  obtain ⟨r, hr, rfl⟩ := exec_encBuild_next h0 ht herr
  rw [installCode_nsym_toNat hr, installCode_cpl, canon_classSum hr, canon_syms hr]
  exact ⟨rfl, length_canonicalOrder_le⟩

/-- Settles O59: the header is read back, the table built from it inverts the code, and the payload decodes. -/
theorem roundTrip : Obligations.RoundTrip := by
  intro s t u xs x extra h0 ht herr hcounts hc hcnt hu0 hur hus hud hoff hacc hpad
  obtain ⟨hsum, hn⟩ := nsym_of_build h0 ht herr
  rw [fileBytes, List.append_assoc, ← stuffed_append, Answers.offers_append] at hoff
  obtain ⟨hhdr, hpay⟩ := hoff
  obtain ⟨a, ha, hheader, hnum, har, habin, hahost, haout⟩ := exec_decHdr_of_headerBytes hsum hn hcounts hu0 hur hhdr
  obtain ⟨b, hb, hready, hb0, hbM, -⟩ := decodeTableInvertsCode s t a h0 ht herr hheader
  obtain ⟨hdt, hfits⟩ := invertsCode_of_build h0 ht herr hheader hb
  have hbs := exec_keeps_specInv (exec_keeps_specInv hus ha) hb
  have hbd := exec_keeps_dataInv (exec_keeps_dataInv hud ha) hb
  obtain ⟨ha0, -, hdcpl, hdsyms⟩ := hheader
  obtain rfl := exec_decBuild_next ha0 hb hb0
  obtain ⟨v, hv, hv0, hrem, hout, hvcpl, hvsyms⟩ := exec_decRun_of_payload hb0 hready hbs hbd har hfits (hbM.symm ▸ hdt) hc
    ((congrArg BitVec.toNat hnum).trans hcnt) (hahost.symm ▸ hacc) (habin.symm ▸ hpay) (hbM.symm ▸ hpad)
  refine ⟨v, by rw [execAll_cons ha, execAll_cons hb, execAll_cons hv, execAll], hv0, hrem, ?_, ?_, ?_⟩
  · rw [hout]
    exact congrArg (· ++ _) haout
  · rw [hvcpl]
    exact hdcpl
  · rw [hvsyms]
    exact hdsyms

end Sys2Proof.Machine


/-! SUPPORT. Where the fields of a packed value stand (43_control.md R251), and the statements about the four control
commands. -/

namespace Sys2Proof.Machine

/-! ## Fields of a packed value -/

section
open BitVec (extractLsb'_append_eq_right extractLsb'_append_eq_left)
variable {i j k n : Nat}

/-- A field above the lowest part of a word is a field of the rest, its place counted from there. -/
theorem field_above {x : BitVec j} {y : BitVec n} {f : BitVec k} (h : x.extractLsb' i k = f) :
    (x ++ y).extractLsb' (i + n) k = f := by
  rw [BitVec.extractLsb'_append_eq_of_le (Nat.le_add_left n i), Nat.add_sub_cancel, h]

/-- The fields of a word of three, the lowest first. -/
theorem three_fields (a : BitVec j) (b : BitVec k) (c : BitVec n) :
    (a ++ b ++ c).extractLsb' 0 n = c ∧ (a ++ b ++ c).extractLsb' n k = b ∧ (a ++ b ++ c).extractLsb' (k + n) j = a := by
  refine ⟨extractLsb'_append_eq_right, ?_, field_above extractLsb'_append_eq_left⟩
  rw [BitVec.extractLsb'_append_eq_of_le le_rfl, Nat.sub_self, extractLsb'_append_eq_right]

variable (s : State) (idx : Nat)

theorem State.value_marker_fields :
    (s.value .marker idx).extractLsb' 0 8 = s.marker ∧ (s.value .marker idx).extractLsb' 8 24 = 0 := by
  have hpack : s.value .marker idx = 0#24 ++ s.marker := BitVec.setWidth_eq_append (by decide)
  rw [hpack]
  exact ⟨extractLsb'_append_eq_right, extractLsb'_append_eq_left⟩

theorem State.value_encSum_fields :
    (s.value .encSum idx).extractLsb' 0 9 = s.nsym ∧ (s.value .encSum idx).extractLsb' 9 7 = 0 ∧
    (s.value .encSum idx).extractLsb' 16 5 = s.minBits ∧ (s.value .encSum idx).extractLsb' 21 3 = 0 ∧
    (s.value .encSum idx).extractLsb' 24 5 = s.maxBits ∧ (s.value .encSum idx).extractLsb' 29 3 = 0 := by
  obtain ⟨hlow, hmax, hhigh⟩ := three_fields 0#3 s.maxBits 0#3
  exact ⟨extractLsb'_append_eq_right, field_above extractLsb'_append_eq_right,
    field_above (field_above extractLsb'_append_eq_right), field_above (field_above (field_above hlow)),
    field_above (field_above (field_above hmax)), field_above (field_above (field_above hhigh))⟩

theorem State.value_decSum_fields :
    (s.value .decSum idx).extractLsb' 0 9 = s.dnsym ∧ (s.value .decSum idx).extractLsb' 9 7 = 0 ∧
    (s.value .decSum idx).extractLsb' 16 5 = s.dmaxBits ∧ (s.value .decSum idx).extractLsb' 21 11 = 0 := by
  obtain ⟨hlow, hmax, hhigh⟩ := three_fields 0#11 s.dmaxBits 0#7
  exact ⟨extractLsb'_append_eq_right, field_above hlow, field_above hmax, field_above hhigh⟩

theorem State.value_dt_fields :
    (s.value .dt idx).extractLsb' 0 8 = (s.dt.get .unfilled idx).sym ∧
    (s.value .dt idx).extractLsb' 8 5 = (s.dt.get .unfilled idx).len ∧ (s.value .dt idx).extractLsb' 13 3 = 0 ∧
    (s.value .dt idx).getLsbD 16 = (s.dt.get .unfilled idx).v ∧ (s.value .dt idx).extractLsb' 17 15 = 0 := by
  unfold State.value
  generalize s.dt.get .unfilled idx = e
  obtain ⟨hlow, hv, hhigh⟩ := three_fields 0#15 (BitVec.ofBool e.v) 0#3
  refine ⟨extractLsb'_append_eq_right, field_above extractLsb'_append_eq_right, field_above (field_above hlow), ?_,
    field_above (field_above hhigh)⟩
  rw [getLsbD_append_high (by decide), getLsbD_append_high (by decide), getLsbD_append_high (by decide)]
  exact getLsbD_append_ofBool

end

/-! ## The control commands -/

/-- A narrow field with 0 above it is read with its number unchanged. -/
theorem rdGives_zeroExtended {sel : Sel} {idx : BitVec 16} {n : Nat} {x : BitVec n} (s : State) (h : sel.Covers idx)
    (hv : s.value sel idx.toNat = x.setWidth 32) (hn : n ≤ 32 := by decide) :
    RdGives s sel idx fun v => v.toNat = x.toNat :=
  rdGives_of_covers s h (by rw [hv, BitVec.toNat_setWidth_of_le hn])

/-- Settles O16, by where each field stands in the value of its selector; a register of the whole word is its own value. -/
theorem rdGivesRegisters : Obligations.RdGivesRegisters := by
  intro s
  refine ⟨?marker, ?outPos, ?writer, ?inPos, ?reader, ?encSum, ?encCnt, ?decSum, ?numSym, ?fill, ?win, ?remain⟩
  case marker => exact rdGives_of_covers s rfl (s.value_marker_fields _)
  case writer => exact rdGives_of_covers s rfl (three_fields 0#21 s.wcnt s.wbuf)
  case reader => exact rdGives_of_covers s rfl (three_fields 0#20 s.rcnt s.rbuf)
  case encSum => exact rdGives_of_covers s rfl (s.value_encSum_fields _)
  case decSum => exact rdGives_of_covers s rfl (s.value_decSum_fields _)
  case fill | win => exact rdGives_zeroExtended s rfl rfl
  case outPos | inPos | encCnt | numSym | remain => exact rdGives_of_covers s rfl rfl

/-- Settles O17, by where each field stands in the value of its selector, for an index the selector covers. -/
theorem rdGivesTableEntries : Obligations.RdGivesTableEntries := by
  intro s idx
  refine ⟨fun hsym => ⟨?len, ?code, ?symlist, ?dsyms⟩, fun h1 h16 => ⟨?cpl, ?dcpl⟩, ?dt⟩
  case len | symlist | dsyms => exact rdGives_zeroExtended s hsym rfl
  case code => exact rdGives_of_covers s hsym (three_fields 0#11 (s.clen.get 0 idx.toNat) (s.code.get 0 idx.toNat))
  case cpl | dcpl => exact rdGives_zeroExtended s ⟨h1, h16⟩ rfl
  case dt => exact rdGives_of_covers s trivial (s.value_dt_fields _)

/-- Settles O18: `exec` of `NOP` is the state as it is, and of `CLR_ERR` is `State.clearError`, neither of them gated. -/
theorem nopAndClrErrKeepTheRest : Obligations.NopAndClrErrKeepTheRest := fun _ => ⟨rfl, rfl⟩

/-- Settles O19: `exec` of `SOFT_RESET` is `State.blockReset`, not gated. -/
theorem softResetResetsBlock : Obligations.SoftResetResetsBlock := fun _ => rfl

end Sys2Proof.Machine

/-! SUPPORT. A host that answers: every primitive and every command goes on from answer to answer until it completes or raises
an error (R64 to R66, R271). -/

namespace Sys2Proof.Machine

/-! ## Commands that go on -/

/-- The command does not stall from `s`: it completes with the host still answering, or it raises an error. -/
def Cmd.GoesOn {α : Type} (x : Cmd α) (s : State) : Prop :=
  (∃ a t, x s = .ok a t ∧ t.HostAnswers) ∨ ∃ e t, x s = .error (.raised e) t

namespace Cmd.GoesOn

variable {α β : Type} {x : Cmd α} {g : α → Cmd β} {s t : State}

theorem done {a : α} (h : x s = .ok a t) (ht : t.HostAnswers) : x.GoesOn s := .inl ⟨a, t, h, ht⟩

theorem raised {e : Err} (h : x s = .error (.raised e) t) : x.GoesOn s := .inr ⟨e, t, h⟩

theorem pure (a : α) (hs : s.HostAnswers) : Cmd.GoesOn (Pure.pure a) s := done rfl hs

theorem raiseErr (e : Err) : Cmd.GoesOn (Machine.raiseErr e : Cmd α) s := raised rfl

theorem bind (hx : x.GoesOn s) (hg : ∀ a t, t.HostAnswers → (g a).GoesOn t) : (x >>= g).GoesOn s := by
  obtain ⟨a, t, h, ht⟩ | ⟨e, t, h⟩ := hx
  · rw [Cmd.GoesOn, Cmd.bind_ok h]
    exact hg a t ht
  · exact raised (Cmd.bind_error h)

/-- A first part that completes leaves it to the second. -/
theorem after {a : α} (h : x s = .ok a t) (hg : (g a).GoesOn t) : (x >>= g).GoesOn s := by
  rwa [Cmd.GoesOn, Cmd.bind_ok h]

theorem get {g : State → Cmd β} (h : (g s).GoesOn s) : (MonadState.get >>= g).GoesOn s := after (Cmd.get_apply s) h

theorem require {c : Bool} {e : Err} {g : PUnit → Cmd β} (h : (g ()).GoesOn s) :
    (Machine.require c e >>= g).GoesOn s := by
  cases c with
  | true => exact after (require_true s e rfl) h
  | false => exact raised (Cmd.bind_error (require_false s e rfl))

theorem ite {c : Prop} [Decidable c] {x y : Cmd α} (hx : c → x.GoesOn s) (hy : ¬c → y.GoesOn s) :
    (if c then x else y).GoesOn s := by
  split
  · exact hx ‹_›
  · exact hy ‹_›

end Cmd.GoesOn

/-- A gated command whose rule goes on has a next state (R300, R310). -/
theorem runGated_of_goesOn {o : Opcode} {x : Cmd Unit} {s : State} (h : x.GoesOn s) : ∃ t, runGated o x s = .next t := by
  by_cases h0 : s.status.err = 0
  · obtain ⟨_, t, h, -⟩ | ⟨e, t, h⟩ := h
    · exact ⟨t, runGated_ok h0 h⟩
    · exact ⟨_, runGated_raised h0 h⟩
  · exact ⟨s, runGated_dropped h0⟩

theorem illegalWord_completes (op : Byte) (s : State) : ∃ t, illegalWord op s = .next t := by
  unfold illegalWord
  split <;> exact ⟨_, rfl⟩

/-- A command with an operand check, legal or not (R96, R301). -/
theorem checked_completes {c : Prop} [Decidable c] {o : Opcode} {x : Cmd Unit} {s : State} (op : Byte) (h : x.GoesOn s) :
    ∃ t, (if c then runGated o x s else illegalWord op s) = .next t := by
  split
  · exact runGated_of_goesOn h
  · exact illegalWord_completes op s

/-! ## The primitives -/

section
variable {s : State} (hs : s.HostAnswers)
include hs

theorem rawIn_goesOn : rawIn.GoesOn s := by
  have hb : s.bin.nth 0 ≠ none := s.bin.nth_ne_none 0 hs.1
  have hrun := rawIn_apply s
  rcases hn : s.bin.nth 0 with _ | ⟨b | _⟩
  · exact absurd hn hb
  · rw [hn] at hrun
    exact .done hrun hs
  · rw [hn] at hrun
    exact .raised hrun

theorem rawOut_goesOn (b : Byte) : (rawOut b).GoesOn s := by
  have hb : s.boutHost.nth 0 ≠ none := s.boutHost.nth_ne_none 0 hs.2.1
  have hrun := rawOut_apply b s
  rcases hn : s.boutHost.nth 0 with _ | ⟨_ | _⟩
  · exact absurd hn hb
  · rw [hn] at hrun
    exact .done hrun hs
  · rw [hn] at hrun
    exact .raised hrun

theorem symOut_goesOn (y : Byte) : (symOut y).GoesOn s := by
  have hb : s.soutHost.nth 0 ≠ none := s.soutHost.nth_ne_none 0 hs.2.2
  have hrun := symOut_apply y s
  rcases hn : s.soutHost.nth 0 with _ | ⟨_⟩
  · exact absurd hn hb
  · rw [hn] at hrun
    exact .done hrun hs

theorem unstuffIn_goesOn : unstuffIn.GoesOn s :=
  .bind (rawIn_goesOn hs) fun b _ ht => .ite
    (fun _ => .bind (rawIn_goesOn ht) fun _ _ hu => .ite (fun _ => .pure b hu) fun _ =>
      .after (Cmd.modify_apply _ _) (.raiseErr _))
    fun _ => .pure b ht

theorem stuffOut_goesOn (b : Byte) : (stuffOut b).GoesOn s :=
  .bind (rawOut_goesOn hs b) fun _ _ ht => .ite (fun _ => rawOut_goesOn ht _) fun _ => .pure _ ht

theorem readBit_goesOn : readBit.GoesOn s :=
  .get (.ite
    (fun _ => .bind (unstuffIn_goesOn hs) fun _ _ ht => .after (Cmd.modify_apply _ _) (.pure _ ht))
    fun _ => .after (Cmd.set_apply _ _) (.pure _ hs))

theorem writeBit_goesOn (bit : Bool) : (writeBit bit).GoesOn s :=
  .get (.ite
    (fun _ => .after (Cmd.set_apply _ _) (stuffOut_goesOn (s := { s with wbuf := 0, wcnt := 0 }) hs _))
    fun _ => .done (Cmd.set_apply _ _) hs)

theorem rawInMany_goesOn (n : Nat) : (rawInMany n).GoesOn s := by
  induction n generalizing s with
  | zero => exact .pure _ hs
  | succ n ih => exact .bind (rawIn_goesOn hs) fun _ _ ht => .bind (ih ht) fun _ _ hu => .pure _ hu

theorem rawOutMany_goesOn (bs : List Byte) : (rawOutMany bs).GoesOn s := by
  induction bs generalizing s with
  | nil => exact .pure _ hs
  | cons b bs ih => exact .bind (rawOut_goesOn hs b) fun _ _ ht => ih ht

theorem readBits_goesOn (n : Nat) : (readBits n).GoesOn s := by
  suffices ∀ v, (readBitsLoop n v).GoesOn s from this 0
  induction n generalizing s with
  | zero => exact fun v => .pure v hs
  | succ n ih => exact fun v => .bind (readBit_goesOn hs) fun _ _ ht => ih ht _

theorem writeBits_goesOn (v : BitVec 16) (n : Nat) : (writeBits v n).GoesOn s := by
  induction n generalizing s with
  | zero => exact .pure _ hs
  | succ n ih => exact .bind (writeBit_goesOn hs _) fun _ _ ht => ih ht

theorem flushLoop_goesOn (n : Nat) : (flushLoop n).GoesOn s := by
  induction n generalizing s with
  | zero => exact .pure _ hs
  | succ n ih => exact .get (.ite (fun _ => .pure _ hs) fun _ => .bind (writeBit_goesOn hs true) fun _ _ ht => ih ht)

/-! ## The commands -/

theorem seedWindow_goesOn : seedWindow.GoesOn s := by
  refine .get (.require (.after (Cmd.set_apply _ _) (.bind (readBits_goesOn ?_ _) fun _ _ ht =>
    .done (Cmd.modify_apply _ _) ht)))
  exact hs

theorem decodeSymbol_goesOn : decodeSymbol.GoesOn s := by
  refine .get (.require (.bind (symOut_goesOn hs _) fun _ t ht => .after (Cmd.modify_apply _ _) (.get (.ite
    (fun _ => .pure _ ht)
    fun _ => .bind (readBits_goesOn ?_ _) fun _ _ hu => .done (Cmd.modify_apply _ _) hu))))
  exact ht

theorem decodeLoop_goesOn (n : Nat) : (decodeLoop n).GoesOn s := by
  induction n generalizing s with
  | zero => exact .pure _ hs
  | succ n ih => exact .get (.ite (fun _ => .pure _ hs) fun _ => .bind (decodeSymbol_goesOn hs) fun _ _ ht => ih ht)

theorem readHeader_goesOn : readHeader.GoesOn s := by
  refine .bind (rawInMany_goesOn hs _) fun h t ht => ?_
  cases hdrError h with
  | some e => exact .raiseErr e
  | none =>
    exact .bind (rawInMany_goesOn ht _) fun _ _ hu => .bind (rawInMany_goesOn hu _) fun _ _ hv =>
      .done (Cmd.modify_apply _ _) hv

/-- `ENC_BUILD` makes no port request: it raises the mapper's error or installs the code (R161). -/
theorem execEncBuild_completes : ∃ t, execEncBuild s = .next t := by
  refine runGated_of_goesOn (.after (Cmd.modify_apply _ _) (.get ?_))
  cases canon (beginBuild s).len with
  | error e => exact .raiseErr e
  | ok r => exact .done (Cmd.modify_apply _ _) hs

/-- No command is refused, and none stalls while the host answers (R271). -/
theorem exec_completes (i : Instr) : ∃ t, exec i s = .next t := by
  cases i with
  | nop | clrErr | softReset => exact ⟨_, rfl⟩
  | rd sel idx =>
    change ∃ t, execRd sel idx s = .next t
    unfold execRd
    split
    · exact ⟨_, rfl⟩
    · exact illegalWord_completes _ s
  | frPut b => exact runGated_of_goesOn (.get (.require (stuffOut_goesOn hs b)))
  | frRaw b => exact runGated_of_goesOn (.get (.require (rawOut_goesOn hs b)))
  | frGet =>
    exact runGated_of_goesOn
      (.get (.require (.bind (unstuffIn_goesOn hs) fun _ _ ht => .done (Cmd.modify_apply _ _) ht)))
  | frRawget =>
    exact runGated_of_goesOn (.get (.require (.bind (rawIn_goesOn hs) fun _ _ ht => .done (Cmd.modify_apply _ _) ht)))
  | bwBits n v => exact checked_completes _ (writeBits_goesOn hs v _)
  | bwFlush => exact runGated_of_goesOn (flushLoop_goesOn hs 8)
  | encClrlen | encSetlen | encSetcntLo | encSetcntHi => exact runGated_of_goesOn (.done (Cmd.modify_apply _ _) hs)
  | encBuild => exact execEncBuild_completes hs
  | encHdr => exact runGated_of_goesOn (.get (.require (.require (.require (rawOutMany_goesOn hs _)))))
  | encSym sym => exact runGated_of_goesOn (.get (.require (.require (writeBits_goesOn hs _ _))))
  | brBits n =>
    exact checked_completes _ (.bind (readBits_goesOn hs _) fun _ _ ht => .done (Cmd.modify_apply _ _) ht)
  | decHdr =>
    exact runGated_of_goesOn (.get (.require (.after (Cmd.set_apply _ _) (readHeader_goesOn (s := s.headerClosed) hs))))
  | decBuild =>
    exact runGated_of_goesOn (.get (.require (.after (Cmd.set_apply _ _)
      (.ite (fun _ => .raiseErr _) fun _ => .done (Cmd.set_apply _ _) hs))))
  | decSeed => exact runGated_of_goesOn (seedWindow_goesOn hs)
  | decSym => exact runGated_of_goesOn (.get (.require (.require (decodeSymbol_goesOn hs))))
  | decRun => exact runGated_of_goesOn (.bind (seedWindow_goesOn hs) fun _ _ ht => .get (decodeLoop_goesOn ht _))

end

/-- Settles O10: the host's next move is the reset input, a word that decodes to a command, or an illegal word. -/
theorem stepCompletesWhenHostAnswers : Obligations.StepCompletesWhenHostAnswers := by
  intro s hpos hs
  have hmove : s.nextMove = some s.program[s.pos] := List.getElem?_eq_getElem hpos
  unfold step
  rw [hmove]
  cases s.program[s.pos] with
  | resetInput => exact ⟨_, rfl⟩
  | command w =>
    dsimp only
    cases decode w with
    | ok i => exact exec_completes (s := s.advance) hs i
    | error r => exact illegalWord_completes _ _

end Sys2Proof.Machine

/-! SUPPORT. The host's tree builder (48_host_reference.md R273 to R278): a merge replaces two nodes of the array by one above
both, so the symbols stay, and the Kraft sum of a tree depends only on where it stands. -/

namespace Sys2Proof.Machine

/-! ## The leaves (R273) -/

/-- The symbols that occur, in ascending order (R273). -/
def usedSymbols (freq : List Nat) : List Byte := allSymbols.filter fun x => decide (0 < freq.getD x.toNat 0)

theorem leaves_eq_map (freq : List Nat) :
    leaves freq = (usedSymbols freq).map fun x => (freq.getD x.toNat 0, .leaf x) := by
  rw [leaves, usedSymbols, ← List.filterMap_eq_filter, List.map_filterMap]
  refine List.filterMap_congr fun x _ => ?_
  by_cases h : 0 < freq.getD x.toNat 0 <;> simp [Option.guard]

theorem leaves_eq_nil_iff (freq : List Nat) : leaves freq = [] ↔ usedSymbols freq = [] := by
  rw [leaves_eq_map, List.map_eq_nil_iff]

theorem length_leaves (freq : List Nat) : (leaves freq).length = (usedSymbols freq).length := by
  rw [leaves_eq_map, List.length_map]

/-! ## The tree -/

/-- The symbols of the leaves, left to right. -/
def Tree.symbols : Tree → List Byte
  | .leaf s => [s]
  | .node a b => a.symbols ++ b.symbols

theorem Tree.depths_symbols (t : Tree) (d : Nat) : (t.depths d).map Prod.fst = t.symbols := by
  induction t generalizing d with
  | leaf s => rfl
  | node a b iha ihb => rw [Tree.depths, Tree.symbols, List.map_append, iha, ihb]

/-- The Kraft sum of a list of lengths. -/
def kraftSum (ls : List (Byte × Nat)) : ℚ := (ls.map fun x => (1 / 2 ^ x.2 : ℚ)).sum

/-- The leaves below a node at depth `d` share what a code of length `d` takes: each node halves it (R277, R278). -/
theorem Tree.kraftSum_depths (t : Tree) (d : Nat) : kraftSum (t.depths d) = 1 / 2 ^ d := by
  induction t generalizing d with
  | leaf s => simp [Tree.depths, kraftSum]
  | node a b iha ihb =>
    have hsplit : kraftSum ((Tree.node a b).depths d) = kraftSum (a.depths (d + 1)) + kraftSum (b.depths (d + 1)) := by
      simp [Tree.depths, kraftSum]
    rw [hsplit, iha, ihb, pow_succ]
    ring

/-- The symbols of a node array. -/
def Active.symbols (A : Active) : List Byte := A.flatMap fun x => x.2.symbols

theorem Active.symbols_leaves (freq : List Nat) : Active.symbols (leaves freq) = usedSymbols freq := by
  rw [leaves_eq_map, Active.symbols, List.flatMap_map]
  exact List.flatMap_singleton' _

/-! ## The choice of two nodes (R274) -/

/-- A nonempty list has an element of least count, so a search for one finds an element. -/
theorem find_least_mem {live : List Nat} {i : Nat} (hi : i ∈ live) (count : Nat → Nat) :
    (live.find? fun i => live.all fun j => decide (count i ≤ count j)).getD 0 ∈ live := by
  obtain ⟨m, hm, hleast⟩ := live.toFinset.exists_min_image count ⟨i, List.mem_toFinset.2 hi⟩
  have hall : live.all (fun j => decide (count m ≤ count j)) = true :=
    List.all_eq_true.2 fun j hj => decide_eq_true (hleast j (List.mem_toFinset.2 hj))
  cases hk : live.find? fun i => live.all fun j => decide (count i ≤ count j) with
  | none => exact absurd hall (List.find?_eq_none.1 hk m (List.mem_toFinset.1 hm))
  | some k => exact List.mem_of_find?_eq_some hk

/-- The index chosen is one of the array and not the one skipped, if there is any such. -/
theorem leastIndex_spec {A : Active} {skip : Option Nat} {i : Nat} (hi : i < A.length) (hskip : some i ≠ skip) :
    leastIndex A skip < A.length ∧ some (leastIndex A skip) ≠ skip := by
  have hlive : ∀ j, j ∈ (List.range A.length).filter (fun i => decide (some i ≠ skip)) ↔ j < A.length ∧ some j ≠ skip := by
    simp
  exact (hlive _).1 (find_least_mem ((hlive i).2 ⟨hi, hskip⟩) _)

/-- A merge chooses two different nodes. -/
theorem leastIndex_two {A : Active} (h : 2 ≤ A.length) :
    leastIndex A none < A.length ∧ leastIndex A (some (leastIndex A none)) < A.length ∧
      leastIndex A none ≠ leastIndex A (some (leastIndex A none)) := by
  obtain ⟨hi, -⟩ := leastIndex_spec (A := A) (skip := none) (i := 0) (by omega) nofun
  obtain ⟨k, hk, hne⟩ : ∃ k < A.length, k ≠ leastIndex A none := by
    by_cases h0 : leastIndex A none = 0
    · exact ⟨1, by omega, by omega⟩
    · exact ⟨0, by omega, Ne.symm h0⟩
  obtain ⟨hj, hij⟩ := leastIndex_spec (skip := some (leastIndex A none)) hk (mt Option.some.inj hne)
  exact ⟨hi, hj, fun h => hij (congrArg some h.symm)⟩

/-! ## One merge (R275, R276) -/

section
variable {α : Type} {A : List α} {i j : Nat}

/-- Two elements of a list, and the rest. -/
theorem perm_eraseIdx_two (hi : i < A.length) (hj : j < A.length) (h : i ≠ j) :
    A.Perm (A[i] :: A[j] :: (A.eraseIdx (max i j)).eraseIdx (min i j)) := by
  wlog hlt : i < j generalizing i j
  · rw [max_comm, min_comm]
    exact (this hj hi h.symm (by omega)).trans (.swap ..)
  rw [max_eq_right hlt.le, min_eq_left hlt.le]
  have hi' : i < (A.eraseIdx j).length := by rw [List.length_eraseIdx_of_lt hj]; omega
  have hget : (A.eraseIdx j)[i] = A[i] := List.getElem_eraseIdx_of_lt hi' hlt
  calc
    List.Perm A (A[j] :: A.eraseIdx j) := (List.getElem_cons_eraseIdx_perm hj).symm
    List.Perm _ (A[j] :: A[i] :: (A.eraseIdx j).eraseIdx i) := by
      rw [← hget]
      exact (List.getElem_cons_eraseIdx_perm hi').symm.cons _
    List.Perm _ (A[i] :: A[j] :: (A.eraseIdx j).eraseIdx i) := .swap ..

/-- One of the two replaced and the other removed. -/
theorem set_eraseIdx_perm (hi : i < A.length) (hj : j < A.length) (h : i ≠ j) (m : α) :
    ((A.set (min i j) m).eraseIdx (max i j)).Perm (m :: (A.eraseIdx (max i j)).eraseIdx (min i j)) := by
  rw [List.eraseIdx_set_gt (by omega)]
  refine List.set_perm_cons_eraseIdx ?_ m
  rw [List.length_eraseIdx_of_lt] <;> omega

end

/-- Everything a merge does, for both placements: two nodes of the array give way to the node above them. -/
theorem mergeOnce_perm (p : Placement) {A : Active} (h : 2 ≤ A.length) :
    ∃ x y rest, A.Perm (x :: y :: rest) ∧ (mergeOnce p A).Perm ((x.1 + y.1, .node x.2 y.2) :: rest) := by
  obtain ⟨hi, hj, hne⟩ := leastIndex_two h
  refine ⟨_, _, _, perm_eraseIdx_two hi hj hne, ?_⟩
  rw [← List.getD_eq_getElem _ (0, .leaf 0) hi, ← List.getD_eq_getElem _ (0, .leaf 0) hj]
  cases p with
  | lowSlot => exact set_eraseIdx_perm hi hj hne _
  | append => exact List.perm_append_singleton _ _

theorem length_mergeOnce (p : Placement) {A : Active} (h : 2 ≤ A.length) : (mergeOnce p A).length + 1 = A.length := by
  obtain ⟨x, y, rest, hA, hm⟩ := mergeOnce_perm p h
  rw [hA.length_eq, hm.length_eq]
  rfl

theorem mergeOnce_symbols (p : Placement) {A : Active} (h : 2 ≤ A.length) : (mergeOnce p A).symbols.Perm A.symbols := by
  obtain ⟨x, y, rest, hA, hm⟩ := mergeOnce_perm p h
  calc
    List.Perm (mergeOnce p A).symbols (Active.symbols ((x.1 + y.1, .node x.2 y.2) :: rest)) := hm.flatMap_right _
    List.Perm _ (Active.symbols (x :: y :: rest)) := by simp [Active.symbols, Tree.symbols]
    List.Perm _ A.symbols := hA.symm.flatMap_right _

/-! ## All merges (R275) -/

theorem mergeAll_symbols (p : Placement) (fuel : Nat) (A : Active) : (mergeAll p fuel A).symbols.Perm A.symbols := by
  induction fuel generalizing A with
  | zero => exact .refl _
  | succ fuel ih =>
    rw [mergeAll]
    split
    · exact (ih _).trans (mergeOnce_symbols p (by omega))
    · exact .refl _

theorem mergeAll_of_short (p : Placement) (fuel : Nat) {A : Active} (h : A.length ≤ 2) : mergeAll p fuel A = A := by
  cases fuel with
  | zero => rfl
  | succ fuel => rw [mergeAll, if_neg (by omega)]

/-- The merging stops at two nodes. -/
theorem length_mergeAll (p : Placement) {fuel : Nat} {A : Active} (h : 2 ≤ A.length) (hf : A.length ≤ fuel + 2) :
    (mergeAll p fuel A).length = 2 := by
  induction fuel generalizing A with
  | zero => exact Nat.le_antisymm hf h
  | succ fuel ih =>
    rw [mergeAll]
    split
    · have hlen := length_mergeOnce p h
      exact ih (by omega) (by omega)
    · omega

/-! ## The lengths (R277, R278) -/

theorem codeLengths_eq_none_iff (p : Placement) (freq : List Nat) : codeLengths p freq = none ↔ leaves freq = [] := by
  unfold codeLengths
  split <;> simp_all

/-- The lengths are the depths below the nodes that are left, which stand at depth 1. -/
theorem codeLengths_some {p : Placement} {freq : List Nat} {ls : List (Byte × Nat)} (h : codeLengths p freq = some ls) :
    ls = (mergeAll p (leaves freq).length (leaves freq)).flatMap fun x => x.2.depths 1 := by
  unfold codeLengths at h
  split at h
  · cases h
  · exact (Option.some.inj h).symm

theorem depths_symbols (A : Active) : (A.flatMap fun x => x.2.depths 1).map Prod.fst = A.symbols := by
  simp only [List.map_flatMap, Tree.depths_symbols, Active.symbols]

/-- Two nodes at depth 1 take one half each. -/
theorem kraftSum_of_two {A : Active} (h : A.length = 2) : kraftSum (A.flatMap fun x => x.2.depths 1) = 1 := by
  obtain ⟨x, y, rfl⟩ := List.length_eq_two.1 h
  have hsplit : kraftSum ([x, y].flatMap fun x => x.2.depths 1) = kraftSum (x.2.depths 1) + kraftSum (y.2.depths 1) := by
    simp [kraftSum]
  rw [hsplit, Tree.kraftSum_depths, Tree.kraftSum_depths]
  norm_num

/-- Settles O60: the merges keep the symbols and stop at two nodes, whose Kraft sums are one half each; a single leaf stands
at depth 1 by itself. -/
theorem treeLengthsAreComplete : Obligations.TreeLengthsAreComplete := by
  intro p freq
  change (codeLengths p freq = none ↔ usedSymbols freq = []) ∧
    ∀ ls, codeLengths p freq = some ls → (ls.map Prod.fst).Perm (usedSymbols freq) ∧
      ((usedSymbols freq).length = 1 → ls.map Prod.snd = [1]) ∧ (2 ≤ (usedSymbols freq).length → kraftSum ls = 1)
  refine ⟨(codeLengths_eq_none_iff p freq).trans (leaves_eq_nil_iff freq), fun ls hls => ?_⟩
  rw [codeLengths_some hls]
  refine ⟨?symbols, fun hone => ?single, fun htwo => ?complete⟩
  case symbols =>
    rw [depths_symbols, ← Active.symbols_leaves]
    exact mergeAll_symbols p _ _
  case single =>
    obtain ⟨x, hx⟩ := List.length_eq_one_iff.1 hone
    rw [mergeAll_of_short p _ (by rw [length_leaves]; omega), leaves_eq_map, hx]
    rfl
  case complete => exact kraftSum_of_two (length_mergeAll p (by rw [length_leaves]; exact htwo) (by omega))

end Sys2Proof.Machine

/-! SUPPORT. The error state (60_exceptions.md R300 to R302): what a move of the host does with an error pending and without
one, and the `require` lines, each of which fails before any other effect of its command. -/

namespace Sys2Proof.Machine

/-! ## Gating (R300, R301) -/

section
variable {s : State} (he : s.status.err ≠ 0)
include he

theorem illegalWord_dropped (op : Byte) : illegalWord op s = .next s := if_neg he

/-- A command with a checked operand is dropped whether the check passes or not. -/
theorem checked_dropped (c : Prop) [Decidable c] (o : Opcode) (x : Cmd Unit) :
    (if c then runGated o x s else illegalWord o.byte s) = .next s := by
  split
  · exact runGated_dropped he
  · exact illegalWord_dropped he _

/-- In the error state every command but the four controls is dropped. -/
theorem exec_dropped {i : Instr} (hi : isControl i = false) : exec i s = .next s := by
  cases i with
  | nop | rd | clrErr | softReset => cases hi
  | bwBits | brBits => exact checked_dropped he ..
  | _ => exact runGated_dropped he

end

/-- A word that decodes to no command is an illegal word. -/
theorem step_of_not_ok {s : State} {w : Word} (hw : s.program[s.pos]? = some (.command w))
    (hd : ∀ i, decode w ≠ .ok i) : step s = illegalWord (opByte w) s.advance := by
  have hmove : s.nextMove = some (.command w) := hw
  unfold step
  rw [hmove]
  dsimp only
  cases hdec : decode w with
  | ok i => exact absurd hdec (hd i)
  | error r => rfl

/-- Settles O7: a word that decodes runs through `exec`, which drops all but the controls in the error state; any other word
is illegal, and so raises `E_ILLEGAL` or is dropped. -/
theorem stepGatesByErrorState : Obligations.StepGatesByErrorState := by
  intro s w hw
  have hrun := fun i => stepRunsDecodedCommand s w i hw
  refine ⟨fun h0 => ⟨hrun, fun hd => ?illegal⟩, fun he => ⟨fun i hi _ => hrun i hi, fun hc => ?dropped⟩⟩
  case illegal => exact (step_of_not_ok hw hd).trans (if_pos h0)
  case dropped =>
    by_cases hlegal : ∃ i, decode w = .ok i
    · obtain ⟨i, hi⟩ := hlegal
      exact (hrun i hi).trans (exec_dropped (s := s.advance) he (hc i hi))
    · exact (step_of_not_ok hw (not_exists.1 hlegal)).trans (illegalWord_dropped (s := s.advance) he _)

/-! ## A failed `require` (R302) -/

/-- `SeedWindow` without a table. -/
theorem seedWindow_not_ready {s : State} (hd : s.status.decReady = false) :
    seedWindow s = .error (.raised .notReady) s := by
  rw [seedWindow, Cmd.bind_ok (Cmd.get_apply s), Cmd.bind_error (require_false s _ hd)]

/-- A seeded window with no symbol left (R210). -/
theorem exec_decSym_of_none_left {s : State} (h0 : s.status.err = 0) (hs : s.status.seeded = true) (hr : s.remain = 0) :
    exec .decSym s = .next (s.failed 3 0x34) := by
  rw [exec_decSym_eq, hs, if_neg (by decide), if_pos hr]
  exact runGated_raised h0 rfl

/-- Settles O51: each of these lines is the first of its command's rule, or follows another that passed, and nothing is
written before it. -/
theorem failedRequireChangesOnlyStatus : Obligations.FailedRequireChangesOnlyStatus := by
  intro s b h0
  refine ⟨fun hw => ⟨?frPut, ?frRaw⟩, fun hr => ⟨?frGet, ?frRawget, ?decHdr⟩, fun hready => ⟨?encHdr, ?encSym⟩,
    fun hready hw => exec_encHdr_of_partial h0 hready hw, ?decBuild, fun hd => ⟨?decSeed, ?decRun⟩, ?unseeded,
    fun hs hr => exec_decSym_of_none_left h0 hs hr⟩
  case frPut | frRaw => exact runGated_require_fail h0 (decide_eq_false hw)
  case frGet | frRawget | decHdr => exact runGated_require_fail h0 (decide_eq_false hr)
  case encHdr | encSym => exact runGated_require_fail (c := fun s => s.status.encReady) h0 hready
  case decBuild => exact fun hv => runGated_require_fail (c := fun s => s.status.hdrValid) h0 hv
  case decSeed => exact runGated_raised h0 (seedWindow_not_ready hd)
  case decRun => exact runGated_raised h0 (Cmd.bind_error (seedWindow_not_ready hd))
  case unseeded => exact fun hs => runGated_require_fail (c := fun s => s.status.seeded) h0 hs

end Sys2Proof.Machine

/-! SUPPORT. Ready tables (70_reset_and_hazards.md R347): which elementary updates keep `ReadyInv`, and why `DEC_HDR` and
`DEC_BUILD`, two of whose updates do not keep it alone, keep it as whole commands. -/

namespace Sys2Proof.Machine

/-! ## A change of the lengths (R25) -/

/-- The lengths are the same, or `ENC_READY` is 0; `ENC_BUILD`, which alone sets it, leaves the lengths as they are. -/
def LengthsOrNotReady (i : Instr) (s t : State) : Prop :=
  t.len = s.len ∨ (i ≠ .encBuild ∧ t.status.encReady = false)

theorem Act.lengthsOrNotReady {i : Instr} {s t u : State} (h : Act i t u) (ht : LengthsOrNotReady i s t) :
    LengthsOrNotReady i s u := by
  cases h with
  | clearLengths hi | setLength _ _ hi => exact .inr ⟨by simp [hi], rfl⟩
  | beginBuild hi | installCode hi => exact .inl (ht.resolve_right fun hn => hn.1 hi)
  | _ => exact ht

theorem exec_lengthsOrNotReady {i : Instr} {s t : State} (h : exec i s = .next t) : LengthsOrNotReady i s t :=
  (exec_ends h).keeps (fun _ _ ha => ha.lengthsOrNotReady) (fun _ _ hu => hu) (fun _ _ hu => hu)
    (fun hi _ _ => .inr ⟨by simp [hi], rfl⟩) (.inl rfl)

/-! ## Elementary updates (R25, R27) -/

theorem readyInv_reset : State.reset.ReadyInv where
  code h := nomatch h
  counts h := nomatch h
  symbols h := nomatch h
  table h := nomatch h

/-- Two updates need more than the invariant: a header may be installed only over a table that is not ready, and the table of
`DEC_BUILD` is ready only after a fill without an overlap. -/
theorem Act.keeps_readyInv {i : Instr} {s t : State} (h : Act i s t) (hheader : i = .decHdr → s.status.decReady = false)
    (hbuild : i ≠ .decBuild) (hs : s.ReadyInv) : t.ReadyInv := by
  cases h with
  | clearLengths | setLength | beginBuild =>
    exact { hs with
      code := fun h => nomatch h
      counts := fun h => nomatch h
      symbols := fun h => nomatch h }
  | installCode _ r hr =>
    exact { hs with
      code := fun _ => canon_isCanonicalCode hr
      counts := fun _ L _ _ => canon_counts hr L
      symbols := fun _ => by
        rw [installCode_nsym_toNat hr]
        exact ⟨rfl, fun k hk => by rw [installCode_symlist_get hr, if_pos hk]; rfl⟩ }
  | closeHeader => exact { hs with table := fun h => nomatch h }
  | installHeader hi => exact { hs with table := fun h => absurd h (by rw [installHeader_decReady, hheader hi]; decide) }
  | partTable hi | wholeTable hi => exact absurd hi hbuild
  | _ => exact { hs with }

/-! ## `DEC_HDR` (R27, R205) -/

theorem Act.decHdr_not_ready {s t : State} (h : Act .decHdr s t) (hs : s.status.decReady = false) :
    t.status.decReady = false := by
  cases h with
  | wholeTable hi => cases hi
  | partTable | closeHeader => rfl
  | _ => exact hs

/-- `DEC_HDR` clears `DEC_READY` before it reads, and none of its updates sets it again. -/
theorem readHeader_keeps_readyInv {s : State} (hs : s.ReadyInv) : (readHeader.stateAfter s.headerClosed).ReadyInv := by
  have hclosed : s.headerClosed.ReadyInv := { hs with table := fun h => nomatch h }
  have hacts : Acts .decHdr s.headerClosed (readHeader.stateAfter s.headerClosed) := decHdr_acts _
  exact (hacts.keeps (P := fun u => u.status.decReady = false ∧ u.ReadyInv)
    (fun _ _ ha hu => ⟨ha.decHdr_not_ready hu.1, ha.keeps_readyInv (fun _ => hu.1) (by decide) hu.2⟩) ⟨rfl, hclosed⟩).2

theorem exec_decHdr_keeps_readyInv {s t : State} (hs : s.ReadyInv) (h : exec .decHdr s = .next t) : t.ReadyInv := by
  by_cases h0 : s.status.err = 0
  · by_cases hr : s.rcnt = 0
    · have hread := readHeader_keeps_readyInv hs
      unfold Cmd.stateAfter at hread
      rw [exec_decHdr h0 hr] at h
      rcases hx : readHeader s.headerClosed with ⟨⟨⟩, u⟩ | ⟨e | f, u⟩ <;> rw [hx] at h hread <;> cases h
      · exact hread
      · exact { hread with }
    · cases (runGated_require_fail h0 (decide_eq_false hr)).symm.trans h
      exact { hs with }
  · cases (exec_dropped h0 rfl).symm.trans h
    exact hs

/-! ## `DEC_BUILD` (R207, R208) -/

theorem IsFilledTable.self {M n : Nat} {Ls : List Nat} {dsyms : Table Byte} {old new : Table DtEntry}
    (h : IsFilledTable M Ls dsyms old new n) : IsFilledTable M Ls dsyms new new n :=
  ⟨h.1, h.2.1, fun _ _ => rfl⟩

theorem installTable_fill_eq_cur (s : State) :
    (installTable s).fill.toNat = (buildTable s.dcpl s.dsyms s.dt).acc.cur := by
  have hcur := buildTable_cur_le s.dcpl s.dsyms s.dt
  have hpow : 2 ^ greatestClass s.dcpl ≤ 2 ^ 16 := Nat.pow_le_pow_right (by decide) (greatestClass_le _)
  rw [installTable_fill, BitVec.toNat_ofNat, Nat.mod_eq_of_lt (by omega)]

/-- A fill without an overlap reached the last symbol of the header. -/
theorem filled_of_no_overlap {dcpl dsyms : Table Byte} {old : Table DtEntry}
    (h : (buildTable dcpl dsyms old).overlap = false) :
    Filled (greatestClass dcpl) (classList dcpl) dsyms old (classList dcpl).length (buildTable dcpl dsyms old).acc := by
  obtain ⟨-, hfilled⟩ | ⟨hover, -⟩ := buildTable_ends dcpl dsyms old
  · exact hfilled
  · rw [h] at hover
    cases hover

theorem State.ReadyInv.tableBuilt {s : State} (hs : s.ReadyInv) (h : (buildTable s.dcpl s.dsyms s.dt).overlap = false) :
    s.tableBuilt.ReadyInv :=
  { hs with
    table := fun _ => by
      have hmax : s.tableBuilt.dmaxBits.toNat = greatestClass s.dcpl := installTable_dmaxBits_toNat s
      have hfill : s.tableBuilt.fill.toNat = _ := installTable_fill_eq_cur s
      obtain ⟨-, hcur, htable⟩ := filled_of_no_overlap h
      rw [hmax, hfill, hcur]
      exact ⟨isMaxBits_greatestClass _, htable.self, slotStart_of_length_le le_rfl⟩ }

theorem exec_decBuild_keeps_readyInv {s t : State} (hs : s.ReadyInv) (h : exec .decBuild s = .next t) : t.ReadyInv := by
  by_cases h0 : s.status.err = 0
  · cases hv : s.status.hdrValid with
    | false =>
      cases (runGated_require_fail (c := fun s => s.status.hdrValid) h0 hv).symm.trans h
      exact { hs with }
    | true =>
      cases hover : (buildTable s.dcpl s.dsyms s.dt).overlap with
      | false =>
        cases (exec_decBuild_ok h0 hv hover).symm.trans h
        exact hs.tableBuilt hover
      | true =>
        cases (exec_decBuild_overlap h0 hv hover).symm.trans h
        exact { hs with table := fun h => nomatch h }
  · cases (exec_dropped h0 rfl).symm.trans h
    exact hs

/-! ## Every command and every step (R347) -/

theorem exec_keeps_readyInv {i : Instr} {s t : State} (hs : s.ReadyInv) (h : exec i s = .next t) : t.ReadyInv := by
  by_cases hheader : i = .decHdr
  · subst hheader
    exact exec_decHdr_keeps_readyInv hs h
  by_cases hbuild : i = .decBuild
  · subst hbuild
    exact exec_decBuild_keeps_readyInv hs h
  exact (exec_ends h).keeps (fun _ _ ha => ha.keeps_readyInv (fun hi => absurd hi hheader) hbuild)
    (fun _ _ hu => { hu with }) (fun _ _ hu => { hu with }) (fun _ _ _ => { readyInv_reset with }) hs

theorem step_keeps_readyInv {s t : State} (hs : s.ReadyInv) (h : step s = .next t) : t.ReadyInv := by
  have hadvance : s.advance.ReadyInv := { hs with }
  obtain ⟨-, rfl⟩ | ⟨w, i, -, -, hexec⟩ | ⟨w, r, -, -, rfl⟩ := step_next h
  · exact { readyInv_reset with }
  · exact exec_keeps_readyInv hadvance hexec
  · split
    · exact { hs with }
    · exact hadvance

/-- Settles O28: no command that changes the lengths leaves `ENC_READY` set, and each command keeps `ReadyInv`, since
`ENC_BUILD` and `DEC_BUILD` set their flag only when they have built the table from what the state holds. -/
theorem lengthChangeClearsEncReady : Obligations.LengthChangeClearsEncReady :=
  ⟨fun _ _ _ h hlen => ((exec_lengthsOrNotReady h).resolve_left hlen).2, readyInv_reset,
    fun _ _ hs h => step_keeps_readyInv hs h⟩

end Sys2Proof.Machine
